-- ==== Sys2Proof/Word.lean ====
section
/-! DEFINITION. The word types of the block (00_scope.md R4, R7, R8). -/

namespace Sys2Proof

/-- A symbol or a pixel sample: `SYM_W = SAMPLE_W = 8` bits, unsigned (R4). -/
abbrev Byte := BitVec 8

/-- A register or a command word: 32 bits (10_state.md R17). -/
abbrev Word := BitVec 32

/-- A host address: `ADDR_W = 24` bits (20_memory.md R42). -/
abbrev Addr := BitVec 24

/-- A bitstring (R8): position 0, the first bit produced or consumed, is the list's head. -/
abbrev Bitstring := List Bool

end Sys2Proof
end

