-- ==== Sys2Proof/Config.lean ====
section
/-! DEFINITION. What an implementation fixes (00_scope.md R4, R5) and the values the spec leaves free (40_host_access.md
R72, 60_exceptions.md R103). -/

namespace Sys2Proof.Config

/-- The four size parameters of R4. Every other row of that table is one value and stands below or in the types. -/
structure Params where
  /-- `MSG_MAX`: message buffer size in symbols. -/
  msgMax : Nat
  /-- `OUT_MAX`: decoded-output buffer size in symbols. -/
  outMax : Nat
  /-- `PIX_MAX`: pixel memory size in samples. -/
  pixMax : Nat
  /-- `BITBUF_BITS`: bit buffer size in bits. -/
  bitbufBits : Nat
deriving DecidableEq, Repr

/-- The defaults of R4. -/
def Params.default : Params where
  msgMax := 65536
  outMax := 65536
  pixMax := 3145728
  bitbufBits := 3145728

/-- `DELIM`, the byte of '#' (R4, 10_state.md R30). -/
def delim : Byte := 0x23

/-- `IMG_CH`, the channels of a pixel (R4, 10_state.md R24). -/
def imgCh : Nat := 3

/-- `NSYM_MAX = 2 ^ SYM_W`, the most distinct symbols of a frequency map (R4). -/
def nsymMax : Nat := 256

/-- The byte the n-th draw of a run gives (R72, R103; log 8). It has no body: nothing constrains it. -/
opaque freeByte : Nat → Byte

end Sys2Proof.Config
end

