-- ==== Sys2Proof/Syntax.lean ====
section
/-! DEFINITION. The commands of 30_encoding.md R61, one constructor per row of spec/opcode_table.json. -/

namespace Sys2Proof

/-- A command. None has an operand field (R60): every operand is a named register or array. -/
inductive Instr where
  /-- `NOP`, 43_control.md R98. -/
  | nop
  /-- `CLEAR`, 43_control.md R99. -/
  | clear
  /-- `HUFF_COUNT`, 41_huffman.md R78. -/
  | huffCount
  /-- `HUFF_BUILD`, 41_huffman.md R79. -/
  | huffBuild
  /-- `HUFF_ENCODE`, 41_huffman.md R80. -/
  | huffEncode
  /-- `HUFF_DECODE`, 41_huffman.md R81. -/
  | huffDecode
  /-- `CAP_CHECK`, 42_lsb.md R91. -/
  | capCheck
  /-- `EMBED`, 42_lsb.md R92. -/
  | embed
  /-- `EXTRACT`, 42_lsb.md R93. -/
  | extract
deriving DecidableEq, Repr

/-- All nine commands, in the table's order. -/
def Instr.all : List Instr :=
  [.nop, .clear, .huffCount, .huffBuild, .huffEncode, .huffDecode, .capCheck, .embed, .extract]

end Sys2Proof
end

