-- ==== Sys2Proof/WellFormed.lean ====
section
/-! DEFINITION. Which terms are well formed: parameters (00_scope.md R4, R5), command words (30_encoding.md R61) and
commands. -/

namespace Sys2Proof

/-- The constraints of R4 and R5 on the parameters, together. -/
def Config.Params.ok (p : Config.Params) : Bool :=
  decide (1 ≤ p.msgMax) && decide (p.msgMax ≤ 65536)
    && decide (1 ≤ p.outMax) && decide (p.outMax ≤ 851968)
    && decide (1 ≤ p.pixMax) && decide (p.pixMax ≤ 12582912)
    && decide (p.pixMax ≤ p.bitbufBits) && decide (p.bitbufBits % 8 = 0) && decide (p.bitbufBits ≤ 25165824)

/-- The `OPC` values of R61. -/
def legalOpcodes : List Byte := [0x00, 0x01, 0x10, 0x11, 0x12, 0x13, 0x20, 0x21, 0x22]

/-- R61: "A command word is legal exactly when `RSVD = 0` and `OPC` is listed here." -/
def legalWord (w : Word) : Bool :=
  decide (w.extractLsb' 8 24 = 0) && legalOpcodes.contains (w.extractLsb' 0 8)

/-- A command has no field that could be out of range (R60), so the check of a command is that the table lists it. -/
def Instr.wf (i : Instr) : Bool := Instr.all.contains i

end Sys2Proof
end

