-- ==== Sys2Proof/Decode.lean ====
section
/-! DEFINITION. The command word's decoder and encoder (30_encoding.md R59, R61, R62; 40_host_access.md R71). -/

namespace Sys2Proof

/-- Why a word or a byte sequence is no command. -/
inductive DecodeError where
  /-- Bits [31:8] (`RSVD`) are not all 0 (R62, R71's first line). -/
  | reservedBits
  /-- `RSVD = 0` and bits [7:0] (`OPC`) are none of the nine (R62, R71's last arm). -/
  | unknownOpcode (opc : Byte)
  /-- Fewer bytes than the fixed length of four (R63). -/
  | tooShort
deriving DecidableEq, Repr

/-- `OPC`, bits [7:0] of a command word (R59). -/
def opcField (w : Word) : Byte := w.extractLsb' 0 8

/-- `RSVD`, bits [31:8] of a command word (R59). -/
def rsvdField (w : Word) : BitVec 24 := w.extractLsb' 8 24

/-- The command an `OPC` value selects (R61). -/
def decodeOpc (opc : Byte) : Except DecodeError Instr :=
  if opc = 0x00 then .ok .nop
  else if opc = 0x01 then .ok .clear
  else if opc = 0x10 then .ok .huffCount
  else if opc = 0x11 then .ok .huffBuild
  else if opc = 0x12 then .ok .huffEncode
  else if opc = 0x13 then .ok .huffDecode
  else if opc = 0x20 then .ok .capCheck
  else if opc = 0x21 then .ok .embed
  else if opc = 0x22 then .ok .extract
  else .error (.unknownOpcode opc)

/-- Decoding a command word, in the order of R71: the reserved bits first, then `OPC`. -/
def decode (w : Word) : Except DecodeError Instr :=
  if rsvdField w ≠ 0 then .error .reservedBits else decodeOpc (opcField w)

/-- The full word of a command (R61). -/
def encode : Instr → Word
  | .nop => 0x00000000
  | .clear => 0x00000001
  | .huffCount => 0x00000010
  | .huffBuild => 0x00000011
  | .huffEncode => 0x00000012
  | .huffDecode => 0x00000013
  | .capCheck => 0x00000020
  | .embed => 0x00000021
  | .extract => 0x00000022

/-- The number the bytes stand for, least significant byte first (20_memory.md R46). -/
def leValue : List Byte → Nat
  | [] => 0
  | b :: bs => b.toNat + 256 * leValue bs

/-- The low `n` bytes of a number, least significant byte first (20_memory.md R46). -/
def leBytes : Nat → Nat → List Byte
  | 0, _ => []
  | n + 1, v => BitVec.ofNat 8 v :: leBytes n (v / 256)

/-- Decoding the bytes of a write to `CMD`, little-endian, with what follows them. -/
def decodeBytes : List Byte → Except DecodeError (Instr × List Byte)
  | b0 :: b1 :: b2 :: b3 :: rest => (decode (BitVec.ofNat 32 (leValue [b0, b1, b2, b3]))).map fun i => (i, rest)
  | _ => .error .tooShort

/-- The four bytes of a command's word, as a 4-byte write to `CMD` carries them. -/
def encodeBytes (i : Instr) : List Byte := leBytes 4 (encode i).toNat

/-- What the decoder reads from the low `nbits` bits of `w`, numbered as spec/opcode_table.json numbers them, laid out in
memory order with zeros above. -/
def decodeTableWord (nbits w : Nat) : Option Instr :=
  match decodeBytes (leBytes 4 (w % 2 ^ nbits)) with
  | .ok (i, _) => if w % 2 ^ nbits < 2 ^ 32 then some i else none
  | .error _ => none

end Sys2Proof
end

