-- ==== Sys2Proof/Machine/Bus.lean ====
section
/-! DEFINITION. The host transaction and its response (30_encoding.md R58), the registers and windows by name (10_state.md
R17, 20_memory.md R43), and the host's operations (30_encoding.md R64, R65). -/

namespace Sys2Proof.Machine

open Sys2Proof

/-- `size` of a transaction: 1, 2 or 4 bytes (R58). -/
inductive AccessSize where
  | one
  | two
  | four
deriving DecidableEq, Repr

/-- The data of a transaction, `8 × size` bits wide (R58). -/
inductive BusData where
  | one (v : BitVec 8)
  | two (v : BitVec 16)
  | four (v : BitVec 32)
deriving DecidableEq, Repr

/-- A host transaction `(kind, addr, size, wdata)` (R58). -/
inductive Transaction where
  | read (addr : Addr) (size : AccessSize)
  | write (addr : Addr) (wdata : BusData)
deriving DecidableEq, Repr

/-- What a transaction answers: read data, a completed write, or a bus error (R58, 40_host_access.md R66, R67). -/
inductive Response where
  | data (rdata : BusData)
  | ok
  | busError
deriving DecidableEq, Repr

/-- One operation of a host program (R64, R65), or the platform's reset (70_reset_and_hazards.md R108). -/
inductive HostOp where
  /-- One transaction. -/
  | access (t : Transaction)
  /-- `WAIT`: read `STATUS`, again while its bit 0 is 1. -/
  | wait
  /-- The platform asserts reset. -/
  | reset
deriving DecidableEq, Repr

/-- The thirteen registers (10_state.md R17). -/
inductive Reg where
  | CMD | STATUS | MSG_LEN | BIT_LEN | IMG_H | IMG_W | IMG_C | CAP_AVAIL | NSYM | OUT_LEN | DEC_BITS | MAX_CODE_LEN
  | DELIM_REG
deriving DecidableEq, Repr

/-- The eight windows of the address map (20_memory.md R43). -/
inductive Window where
  | MSGBUF | FMAP_SYM | FMAP_CNT | CODE_LEN | CODE | OUTBUF | BITBUF | PIX
deriving DecidableEq, Repr

/-- The access kinds (10_state.md R18). -/
inductive Access where
  | wo
  | ro
  | rw
deriving DecidableEq, Repr

/-- What a mapped, aligned access reaches. -/
inductive Target where
  | reg (r : Reg)
  | window (w : Window)
deriving DecidableEq, Repr

end Sys2Proof.Machine
end

