-- ==== Sys2Proof/Machine/Memory.lean ====
section
/-! DEFINITION. The one memory behind the block's RW arrays and `OUTBUF`, keyed by host address (20_memory.md R42, R43),
and the bit order of packed bitstrings (R47). -/

namespace Sys2Proof.Machine

open Sys2Proof

/-- Bytes by host address. An address is listed exactly when its byte carries a written mark (10_state.md R39; log 1);
an unlisted address reads as no value. -/
abbrev Memory := List Host.Cell

/-- The canonical form: addresses strictly rising. No entry can equal what an unlisted address reads as, since that is
no value. -/
abbrev Memory.wf (m : Memory) : Prop := m.Pairwise fun c d => c.1 < d.1

/-- The byte at an address, if it has been written. -/
def Memory.read (m : Memory) (a : Nat) : Option Byte :=
  match m with
  | [] => none
  | c :: rest => if c.1 = a then some c.2 else Memory.read rest a

/-- The cells of consecutive bytes from an address on. -/
def cellsFrom (a : Nat) : List Byte → Memory
  | [] => []
  | b :: bs => (a, b) :: cellsFrom (a + 1) bs

/-- Writing consecutive bytes from address `a` on; their written marks are set. -/
def Memory.writeBlock (m : Memory) (a : Nat) (bs : List Byte) : Memory :=
  m.filter (fun c => decide (c.1 < a)) ++ cellsFrom a bs ++ m.filter (fun c => decide (a + bs.length ≤ c.1))

/-- All the values of a list, if none is missing. -/
def collect {α : Type} : List (Option α) → Option (List α)
  | [] => some []
  | none :: _ => none
  | some x :: rest => (collect rest).map (x :: ·)

/-- The `n` consecutive bytes from address `a` on, if all have been written. -/
def Memory.readBlock (m : Memory) (a n : Nat) : Option (List Byte) :=
  collect ((List.range n).map fun k => m.read (a + k))

/-- Bit `j` of a packed byte, `j = 0` the most significant (R47). -/
def bitOfByte (b : Byte) (j : Nat) : Bool := b.getLsbD (7 - j)

/-- The byte with these bits, the first the most significant (R47). -/
def packByte (b0 b1 b2 b3 b4 b5 b6 b7 : Bool) : Byte :=
  BitVec.ofNat 8 (128 * b0.toNat + 64 * b1.toNat + 32 * b2.toNat + 16 * b3.toNat
    + 8 * b4.toNat + 4 * b5.toNat + 2 * b6.toNat + b7.toNat)

/-- The byte that packs the first eight bits of a bitstring, padded with zeros (R47). -/
def byteOfBits (bits : Bitstring) : Byte :=
  packByte (bits.getD 0 false) (bits.getD 1 false) (bits.getD 2 false) (bits.getD 3 false)
    (bits.getD 4 false) (bits.getD 5 false) (bits.getD 6 false) (bits.getD 7 false)

/-- A bitstring packed into whole bytes, zeros after its end up to the next multiple of 8 (R47, 10_state.md R34). -/
def packBits (bits : Bitstring) : List Byte :=
  (List.range ((bits.length + 7) / 8)).map fun k => byteOfBits (bits.drop (8 * k))

end Sys2Proof.Machine
end

