-- ==== Sys2Proof/Machine/State.lean ====
section
/-! DEFINITION. The state of the block (10_state.md), the reasons a step can stop, and the state after reset. -/

namespace Sys2Proof.Machine

open Sys2Proof

/-- The error codes of 60_exceptions.md R100; the reserved codes 11 to 15 are never produced and have no constructor. -/
inductive ErrCode where
  | none
  | badCmd
  | capacity
  | noTree
  | fmap
  | noDelim
  | freqOvf
  | msgLen
  | bitLen
  | dims
  | outOvf
deriving DecidableEq, Repr

/-- `ENGINE` (10_state.md R37): idle, or holding an accepted command word that has not completed. -/
inductive Engine where
  | idle
  | pending (w : Word)
deriving DecidableEq, Repr

/-- The two agents (00_scope.md R6). -/
inductive Agent where
  | host
  | engine
deriving DecidableEq, Repr

/-- The code table (10_state.md R33): entry `s` is the code of symbol `s`, `CODE_LEN[s]` bits long; `CODE[s]` is those
bits with zeros after them (20_memory.md R44). The empty bitstring means that `s` has no code (log 3). -/
abbrev CodeTable := List Bitstring

/-- Why the machine stops. -/
inductive Fault where
  /-- `UninitRead` (10_state.md R39): raised by a host read or a command that reads a byte or bit never written since
  reset. Safe: the hardware goes on with some value. -/
  | uninitRead
  /-- `HazardWrite` (40_host_access.md R73): raised by a host write to a RW register or window while `BUSY = 1`. Safe:
  the hardware goes on with an unspecified effect. -/
  | hazardWrite
  /-- Raised by every step of a state whose `FAULTED` flag is set (70_reset_and_hazards.md R118). Safe: no agent of the
  spec's model steps there either. -/
  | faulted
deriving DecidableEq, Repr

/-- Why a step has no meaning. -/
inductive Refusal where
  /-- An arm of exec without a meaning yet. Safe: nothing follows from it. -/
  | notModelled (mnemonic : String)
deriving DecidableEq, Repr

/-- The state of the block, and of the one host beside it. -/
structure State where
  /-- `ENGINE` (R37). `STATUS.BUSY` is computed from it. -/
  engine : Engine
  /-- `STATUS.DONE` (R20). -/
  done : Bool
  /-- `STATUS.TREE_VALID` (R20). -/
  treeValid : Bool
  /-- `STATUS.DELIM_FOUND` (R20). -/
  delimFound : Bool
  /-- `STATUS.CMD_OVR` (R20). -/
  cmdOvr : Bool
  /-- `STATUS.ERR` (R20). -/
  err : ErrCode
  /-- `STATUS.LAST_OP` (R20). -/
  lastOp : Byte
  /-- `MSG_LEN` (R21). -/
  msgLen : Word
  /-- `BIT_LEN` (R22). -/
  bitLen : Word
  /-- `IMG_H` bits [15:0] (R23). -/
  imgH : BitVec 16
  /-- `IMG_W` bits [15:0] (R23). -/
  imgW : BitVec 16
  /-- `CAP_AVAIL` (R25). -/
  capAvail : Word
  /-- `NSYM` bits [8:0] (R26). -/
  nsym : BitVec 9
  /-- `OUT_LEN` (R27). -/
  outLen : Word
  /-- `DEC_BITS` (R28). -/
  decBits : Word
  /-- `MAX_CODE_LEN` bits [7:0] (R29). -/
  maxCodeLen : Byte
  /-- `CODE_LEN` and `CODE` (R33); `none` while no build has written them since reset. -/
  codeTable : Option CodeTable
  /-- `MSGBUF`, `FMAP_SYM`, `FMAP_CNT`, `OUTBUF`, the bit buffer and `PIX` (R31, R32, R34, R35, R36) with their written
  marks (R39). -/
  mem : Memory
  /-- `FAULTED` (R40). -/
  faulted : Bool
  /-- The parameters (00_scope.md R4); no step writes them. The model's own field (log 6). -/
  params : Config.Params
  /-- The host's operations still to come, in its issue order (20_memory.md R53). The model's own field (log 5). -/
  host : List HostOp
  /-- Which agent moves when both can. The model's own field (log 5). -/
  turns : List Agent
  /-- What the bus answered so far, oldest first. The model's own field (log 7). -/
  responses : List Response
  /-- How many free bytes have been drawn. The model's own field (log 8). -/
  draws : Nat
deriving DecidableEq, Repr

/-- The machine right after reset (70_reset_and_hazards.md R108, R109), with the default parameters, nothing listed in
memory and nothing for the host to do. -/
def State.reset : State where
  engine := .idle
  done := false
  treeValid := false
  delimFound := false
  cmdOvr := false
  err := .none
  lastOp := 0
  msgLen := 0
  bitLen := 0
  imgH := 0
  imgW := 0
  capAvail := 0
  nsym := 0
  outLen := 0
  decBits := 0
  maxCodeLen := 0
  codeTable := none
  mem := []
  faulted := false
  params := Config.Params.default
  host := []
  turns := []
  responses := []
  draws := 0

end Sys2Proof.Machine
end

