-- ==== Sys2Proof/Machine/Flags.lean ====
section
/-! DEFINITION. `STATUS`: its fields, its word, and every rule that writes a field (10_state.md R20). -/

namespace Sys2Proof.Machine

open Sys2Proof

/-- `STATUS.BUSY`: 1 exactly when `ENGINE = PENDING(_)` (R37; log 2). -/
def State.busy (s : State) : Bool :=
  match s.engine with
  | .idle => false
  | .pending _ => true

/-- The code of an error in `STATUS.ERR` (60_exceptions.md R100). -/
def ErrCode.code : ErrCode → BitVec 4
  | .none => 0
  | .badCmd => 1
  | .capacity => 2
  | .noTree => 3
  | .fmap => 4
  | .noDelim => 5
  | .freqOvf => 6
  | .msgLen => 7
  | .bitLen => 8
  | .dims => 9
  | .outOvf => 10

/-- A one-bit field as a bit vector. -/
def flagBit (b : Bool) : BitVec 1 := BitVec.ofBool b

/-- The word a read of `STATUS` returns: the fields of R20 in place, the reserved bits 0. -/
def State.statusWord (s : State) : Word :=
  (0 : BitVec 8) ++ s.lastOp ++ (0 : BitVec 4) ++ s.err.code ++ (0 : BitVec 3) ++ flagBit s.cmdOvr
    ++ flagBit s.delimFound ++ flagBit s.treeValid ++ flagBit s.done ++ flagBit s.busy

/-- The updates of a command's issue (40_host_access.md R68): `ENGINE`, `BUSY`, `DONE`, `ERR`, `LAST_OP`. -/
def State.issue (s : State) (w : Word) : State :=
  { s with engine := .pending w, done := false, err := .none, lastOp := opcField w }

/-- The update of a `CMD` write while busy (40_host_access.md R69). -/
def State.overrun (s : State) : State := { s with cmdOvr := true }

/-- The updates of a completion without error (40_host_access.md R70): `BUSY`, `DONE`, `ENGINE`. `ERR` stays 0 from the
issue. -/
def State.finish (s : State) : State := { s with engine := .idle, done := true }

/-- The updates of a completion with an error (40_host_access.md R70, 60_exceptions.md R103). -/
def State.fail (s : State) (e : ErrCode) : State := { s with engine := .idle, done := true, err := e }

end Sys2Proof.Machine
end

