-- ==== Sys2Proof/Machine/Operands.lean ====
section
/-! DEFINITION. Where the registers and windows stand (20_memory.md R43) and how a command reads its operands
(30_encoding.md R60). -/

namespace Sys2Proof.Machine

open Sys2Proof

/-- The host address of a window's first byte (R43). -/
def Window.base : Window → Nat
  | .MSGBUF => 0x010000
  | .FMAP_SYM => 0x020000
  | .FMAP_CNT => 0x020400
  | .CODE_LEN => 0x021000
  | .CODE => 0x022000
  | .OUTBUF => 0x030000
  | .BITBUF => 0x100000
  | .PIX => 0x400000

/-- The mapped size of a window in bytes (R43). -/
def Window.size (p : Config.Params) : Window → Nat
  | .MSGBUF => p.msgMax
  | .FMAP_SYM => 256
  | .FMAP_CNT => 1024
  | .CODE_LEN => 256
  | .CODE => 8192
  | .OUTBUF => p.outMax
  | .BITBUF => p.bitbufBits / 8
  | .PIX => p.pixMax

/-- The host's access to a window (R43). -/
def Window.access : Window → Access
  | .MSGBUF => .rw
  | .FMAP_SYM => .rw
  | .FMAP_CNT => .rw
  | .CODE_LEN => .ro
  | .CODE => .ro
  | .OUTBUF => .ro
  | .BITBUF => .rw
  | .PIX => .rw

/-- The eight windows, in address order. -/
def allWindows : List Window := [.MSGBUF, .FMAP_SYM, .FMAP_CNT, .CODE_LEN, .CODE, .OUTBUF, .BITBUF, .PIX]

/-- The window an address is mapped in. -/
def windowAt (p : Config.Params) (a : Nat) : Option Window :=
  allWindows.find? fun w => decide (w.base ≤ a) && decide (a < w.base + w.size p)

/-- The offset of a register (10_state.md R17). -/
def Reg.offset : Reg → Nat
  | .CMD => 0x000
  | .STATUS => 0x004
  | .MSG_LEN => 0x008
  | .BIT_LEN => 0x00C
  | .IMG_H => 0x010
  | .IMG_W => 0x014
  | .IMG_C => 0x018
  | .CAP_AVAIL => 0x01C
  | .NSYM => 0x020
  | .OUT_LEN => 0x024
  | .DEC_BITS => 0x028
  | .MAX_CODE_LEN => 0x02C
  | .DELIM_REG => 0x030

/-- The host's access to a register (10_state.md R17). -/
def Reg.access : Reg → Access
  | .CMD => .wo
  | .STATUS => .ro
  | .MSG_LEN => .rw
  | .BIT_LEN => .rw
  | .IMG_H => .rw
  | .IMG_W => .rw
  | .IMG_C => .ro
  | .CAP_AVAIL => .ro
  | .NSYM => .rw
  | .OUT_LEN => .ro
  | .DEC_BITS => .ro
  | .MAX_CODE_LEN => .ro
  | .DELIM_REG => .ro

/-- The thirteen registers, in offset order. -/
def allRegs : List Reg :=
  [.CMD, .STATUS, .MSG_LEN, .BIT_LEN, .IMG_H, .IMG_W, .IMG_C, .CAP_AVAIL, .NSYM, .OUT_LEN, .DEC_BITS, .MAX_CODE_LEN,
    .DELIM_REG]

/-- The register at an offset. -/
def regAt (a : Nat) : Option Reg := allRegs.find? fun r => decide (r.offset = a)

/-- One past the register block's last mapped byte (R43). -/
def regsEnd : Nat := 0x000034

/-- `CODE[s]` cut to its `CODE_LEN[s]` bits; empty for a symbol without a code (10_state.md R33). -/
def codeOf (t : CodeTable) (s : Byte) : Bitstring := t.getD s.toNat []

/-- Byte `s` of the `CODE_LEN` window (R43). -/
def codeLenByte (t : CodeTable) (s : Nat) : Byte := BitVec.ofNat 8 (t.getD s []).length

/-- Byte `k` of the `CODE` window: bits `8 (k mod 32) ..` of `CODE[k / 32]`, zeros after the code (R43, R44, R47). -/
def codeByte (t : CodeTable) (k : Nat) : Byte := byteOfBits ((t.getD (k / 32) []).drop (8 * (k % 32)))

/-- The byte of a window at a host address; none where its written mark is clear or no window is mapped
(10_state.md R39). -/
def State.byteAt (s : State) (a : Nat) : Option Byte :=
  match windowAt s.params a with
  | none => none
  | some .CODE_LEN => s.codeTable.map fun t => codeLenByte t (a - Window.base .CODE_LEN)
  | some .CODE => s.codeTable.map fun t => codeByte t (a - Window.base .CODE)
  | some _ => s.mem.read a

/-- The `n` bytes of a window from a host address on, if all are written. -/
def State.bytesAt (s : State) (a n : Nat) : Option (List Byte) :=
  collect ((List.range n).map fun k => s.byteAt (a + k))

/-- `MSGBUF[0 .. MSG_LEN)` (10_state.md R31). -/
def State.message (s : State) : Option (List Byte) :=
  s.mem.readBlock (Window.base .MSGBUF) s.msgLen.toNat

/-- `FMAP_SYM[0 .. n)` (10_state.md R32). -/
def State.fmapSyms (s : State) (n : Nat) : Option (List Byte) :=
  s.mem.readBlock (Window.base .FMAP_SYM) n

/-- `FMAP_CNT[i]`, little-endian; all four of its bytes must be written (10_state.md R32, R39). -/
def State.fmapCnt (s : State) (i : Nat) : Option Nat :=
  (s.mem.readBlock (Window.base .FMAP_CNT + 4 * i) 4).map leValue

/-- `FMAP_CNT[0 .. n)` (10_state.md R32). -/
def State.fmapCnts (s : State) (n : Nat) : Option (List Nat) :=
  collect ((List.range n).map s.fmapCnt)

/-- `BIT(i)` (10_state.md R34, 20_memory.md R47). -/
def State.bit (s : State) (i : Nat) : Option Bool :=
  (s.mem.read (Window.base .BITBUF + i / 8)).map fun b => bitOfByte b (i % 8)

/-- `BIT(0 .. n)`, each bit with its written mark: what a command that reads bit by bit sees. -/
def State.bitStream (s : State) (n : Nat) : List (Option Bool) := (List.range n).map s.bit

/-- `BIT(0 .. n)`, if all are written. -/
def State.bits (s : State) (n : Nat) : Option Bitstring := collect (s.bitStream n)

/-- `PIX[0 .. n)`, if all are written; raster order is index order (20_memory.md R48). -/
def State.pixels (s : State) (n : Nat) : Option (List Byte) := s.mem.readBlock (Window.base .PIX) n

/-- `OUTBUF[0 .. n)`, if all are written (10_state.md R35). -/
def State.outbuf (s : State) (n : Nat) : Option (List Byte) := s.mem.readBlock (Window.base .OUTBUF) n

/-- The index in `PIX` of sample `(y, x, c)` of a grid `width` pixels wide (20_memory.md R48). -/
def pixIndex (width y x c : Nat) : Nat := (y * width + x) * 3 + c

/-- `IMG_H × IMG_W × 3`, exact (42_lsb.md R88). -/
def State.capacity (s : State) : Nat := s.imgH.toNat * s.imgW.toNat * Config.imgCh

end Sys2Proof.Machine
end

