-- ==== Sys2Proof/Machine/Ops.lean ====
section
/-! DEFINITION. The shared operations: completing and aborting a command (40_host_access.md R70, 60_exceptions.md R103,
R104), the commands' stores, the capacity check (42_lsb.md R91), clearing registers and reset (43_control.md R99,
70_reset_and_hazards.md R108), and the free values. -/

namespace Sys2Proof.Machine

open Sys2Proof

/-- What a command, a transaction or a step answers. -/
abbrev Result := Host.Outcome State Fault Refusal

/-- A command that ends without error (40_host_access.md R70). -/
def complete (s : State) : Result := .next s.finish

/-- **Taking a command error**, the block's one kind of exception (60_exceptions.md R103): `STATUS.ERR` takes the code,
`BUSY` goes to 0 and `DONE` to 1. Whatever the command's rule commits all the same is in `s` already. -/
def abort (e : ErrCode) (s : State) : Result := .next (s.fail e)

/-- **Return from an error** (60_exceptions.md R104): there is none but the next issue, which sets `ERR` to 0
(40_host_access.md R68). -/
def returnFromError (w : Word) (s : State) : State := s.issue w

/-- A command's read of state whose written mark is clear (10_state.md R39). -/
def uninit : Result := .fault .uninitRead

/-- A command that needs an operand which may be unwritten. -/
def withOperand {α : Type} (x : Option α) (k : α → Result) : Result :=
  match x with
  | none => uninit
  | some a => k a

/-- Storing bytes from a host address on; their written marks are set (10_state.md R39). -/
def State.storeBytes (s : State) (a : Nat) (bs : List Byte) : State := { s with mem := s.mem.writeBlock a bs }

/-- Storing bytes at the front of a window. -/
def State.storeAt (s : State) (w : Window) (bs : List Byte) : State := s.storeBytes w.base bs

/-- `FMAP_SYM[0..n) <- SYMS; FMAP_CNT[0..n) <- CNTS; NSYM <- n` (41_huffman.md R78, R80). -/
def State.storeFreqMap (s : State) (fm : List (Byte × Nat)) : State :=
  { ((s.storeAt .FMAP_SYM (fm.map (·.1))).storeAt .FMAP_CNT (fm.flatMap fun e => leBytes 4 e.2)) with
    nsym := BitVec.ofNat 9 fm.length }

/-- The length of a table's longest code (41_huffman.md R76). -/
def maxLen (t : CodeTable) : Nat := (t.map List.length).foldr max 0

/-- `CODE_LEN <- CODE_LEN'; CODE <- CODE'; MAX_CODE_LEN <- MAX_CODE_LEN'; STATUS.TREE_VALID <- 1` (41_huffman.md R79,
R80). -/
def State.loadTable (s : State) (t : CodeTable) : State :=
  { s with codeTable := some t, maxCodeLen := BitVec.ofNat 8 (maxLen t), treeValid := true }

/-- `BIT(0 .. n) <- bits; BIT(n .. 8⌈n/8⌉) <- 0; BIT_LEN <- n` (41_huffman.md R80, 42_lsb.md R93). -/
def State.storeBits (s : State) (bits : Bitstring) : State :=
  { s.storeAt .BITBUF (packBits bits) with bitLen := BitVec.ofNat 32 bits.length }

/-- `OUTBUF[0 .. |out|) <- out; OUT_LEN <- |out|; DEC_BITS <- i; STATUS.DELIM_FOUND <- found` (41_huffman.md R81). -/
def State.storeDecoded (s : State) (out : List Byte) (used : Nat) (found : Bool) : State :=
  { s.storeAt .OUTBUF out with
    outLen := BitVec.ofNat 32 out.length, decBits := BitVec.ofNat 32 used, delimFound := found }

/-- The next `n` free bytes. -/
def State.freeBytes (s : State) (n : Nat) : List Byte :=
  (List.range n).map fun k => Config.freeByte (s.draws + k)

/-- The counter moves past `n` free bytes. -/
def State.drawn (s : State) (n : Nat) : State := { s with draws := s.draws + n }

/-- `OUTBUF[0..OUT_MAX)` after `E_OUTOVF`: unspecified, with its written marks set (60_exceptions.md R103). -/
def State.spoilOutbuf (s : State) : State :=
  (s.storeAt .OUTBUF (s.freeBytes s.params.outMax)).drawn s.params.outMax

/-- `CAP_AVAIL <- cap` (42_lsb.md R91). -/
def State.setCapAvail (s : State) : State := { s with capAvail := BitVec.ofNat 32 s.capacity }

/-- The dimension check that `CAP_CHECK`, `EMBED` and `EXTRACT` begin with, and their write of `CAP_AVAIL`
(42_lsb.md R91, R92, R93). -/
def withDims (s : State) (k : State → Result) : Result :=
  if s.params.pixMax < s.capacity then abort .dims s else k s.setCapAvail

/-- The whole capacity check of `CAP_CHECK` and `EMBED` (42_lsb.md R91, R92). -/
def withCapacity (s : State) (k : State → Result) : Result :=
  withDims s fun s1 =>
    if s1.params.bitbufBits < s1.bitLen.toNat then abort .bitLen s1
    else if s1.capacity < s1.bitLen.toNat then abort .capacity s1
    else k s1

/-- The registers and flags `CLEAR` returns to their reset values (43_control.md R99). -/
def State.clearRegs (s : State) : State :=
  { s with
    msgLen := 0, bitLen := 0, imgH := 0, imgW := 0, capAvail := 0, nsym := 0, outLen := 0, decBits := 0,
    maxCodeLen := 0, treeValid := false, delimFound := false, cmdOvr := false }

/-- Reset by the platform (70_reset_and_hazards.md R108): the engine idle, `STATUS` and the registers 0, every written
mark clear. `FAULTED` is not cleared (10_state.md R40). -/
def State.platformReset (s : State) : State :=
  { s.clearRegs with
    engine := .idle, done := false, err := .none, lastOp := 0, codeTable := none, mem := [] }

end Sys2Proof.Machine
end

