-- ==== Sys2Proof/Machine/Control.lean ====
section
/-! DEFINITION. The control commands: 43_control.md. -/

namespace Sys2Proof.Machine

/-- **NOP** (R98): nothing but the completion. -/
def execNop (s : State) : Result := complete s

/-- **CLEAR** (R99). -/
def execClear (s : State) : Result := complete s.clearRegs

end Sys2Proof.Machine
end

