-- ==== Sys2Proof/Machine/Huffman.lean ====
section
/-! DEFINITION. The Huffman encoder/decoder: the four algorithms of 41_huffman.md section 1 and the commands of section
2. -/

namespace Sys2Proof.Machine

open Sys2Proof

/-- A frequency map in index order: symbols with their counts (00_scope.md R12, 41_huffman.md R74). -/
abbrev FreqMap := List (Byte × Nat)

/-- One symbol counted: its entry's count up by one, or a new entry at the end with count 1 (R74). -/
def countSymbol (fm : FreqMap) (x : Byte) : FreqMap :=
  match fm with
  | [] => [(x, 1)]
  | e :: rest => if e.1 = x then (e.1, e.2 + 1) :: rest else e :: countSymbol rest x

/-- **Count(M)** (R74). -/
def countSymbols (msg : List Byte) : FreqMap := msg.foldl countSymbol []

/-- A Huffman node (00_scope.md R12, 10_state.md R38). The branch label of a node is its side: left 0, right 1. -/
inductive Tree where
  | leaf (sym : Byte) (freq : Nat)
  | node (freq : Nat) (left right : Tree)
deriving DecidableEq, Repr

/-- A node's frequency. -/
def treeFreq : Tree → Nat
  | .leaf _ f => f
  | .node f _ _ => f

/-- `StableSortByFreq` (00_scope.md R10): insertion sort, which puts a node before the equal ones behind it. -/
def stableSortByFreq (l : List Tree) : List Tree :=
  l.insertionSort fun a b => treeFreq a ≤ treeFreq b

/-- One pass of the loop of R75: the two lowest nodes leave the list, the first becomes the left child of a node that is
appended at the end. -/
def mergeLowest (l : List Tree) : List Tree :=
  match stableSortByFreq l with
  | a :: b :: rest => rest ++ [.node (treeFreq a + treeFreq b) a b]
  | short => short

/-- `n` passes of the loop of R75. -/
def mergePasses : Nat → List Tree → List Tree
  | 0, l => l
  | n + 1, l => mergePasses n (mergeLowest l)

/-- **BuildTree** (R75): the loop runs `n - 1` times. An empty map has no tree; every caller refuses it first. -/
def buildTree (fm : FreqMap) : Option Tree :=
  (mergePasses (fm.length - 1) (fm.map fun e => .leaf e.1 e.2)).head?

/-- **Walk** (R76): every leaf with the branch labels on its path after `p`. -/
def walk : Tree → Bitstring → List (Byte × Bitstring)
  | .leaf x _, p => [(x, p)]
  | .node _ l r, p => walk l (p ++ [false]) ++ walk r (p ++ [true])

/-- Every leaf with its code; the leaf of a single-symbol tree gets "0" (R76). -/
def leafCodes : Tree → List (Byte × Bitstring)
  | .leaf x _ => [(x, [false])]
  | .node f l r => walk (.node f l r) []

/-- The code of a symbol in a list of leaves; empty for a symbol that has no leaf. -/
def codeIn (leaves : List (Byte × Bitstring)) (x : Byte) : Bitstring :=
  match leaves.find? fun e => decide (e.1 = x) with
  | some e => e.2
  | none => []

/-- **Codes(root)** (R76): the entries of all 256 symbols. -/
def codesOf (root : Tree) : CodeTable :=
  (List.range Config.nsymMax).map fun k => codeIn (leafCodes root) (BitVec.ofNat 8 k)

/-- BuildTree, then Codes: the code table of a frequency map (R75, R76). -/
def codeTableOf (fm : FreqMap) : CodeTable :=
  match buildTree fm with
  | some root => codesOf root
  | none => List.replicate Config.nsymMax []

/-- The codes of a message, concatenated (R80). -/
def encodeMessage (t : CodeTable) (msg : List Byte) : Bitstring := msg.flatMap (codeOf t)

/-- The symbol whose code a bitstring is, if there is one (R77). -/
def symbolOf (t : CodeTable) (acc : Bitstring) : Option Byte :=
  (t.findIdx? fun c => decide (c = acc)).map (BitVec.ofNat 8)

/-- How a decode ends. -/
inductive Decoded where
  /-- The text, the number of bits consumed, and whether the delimiter's code was met. -/
  | text (out : List Byte) (used : Nat) (found : Bool)
  /-- A symbol would be the `(OUT_MAX + 1)`-th: `E_OUTOVF`. -/
  | overflow
  /-- The next bit has never been written. -/
  | unwritten
deriving DecidableEq, Repr

/-- **Decode** (R77) from a point inside its loop: `acc`, `out` and `i` as there. The delimiter is tested before the
symbols (90_conflicts.md C7). -/
def decodeFrom (t : CodeTable) (outMax : Nat) (bits : List (Option Bool)) (acc : Bitstring) (out : List Byte)
    (i : Nat) : Decoded :=
  match bits with
  | [] => .text out i false
  | none :: _ => .unwritten
  | some b :: rest =>
    if acc ++ [b] = codeOf t Config.delim then .text out (i + 1) true
    else
      match symbolOf t (acc ++ [b]) with
      | none => decodeFrom t outMax rest (acc ++ [b]) out (i + 1)
      | some x =>
        if out.length = outMax then .overflow else decodeFrom t outMax rest [] (out ++ [x]) (i + 1)

/-- **Decode** (R77) of a stream of bits. -/
def decodeBits (t : CodeTable) (outMax : Nat) (bits : List (Option Bool)) : Decoded :=
  decodeFrom t outMax bits [] [] 0

/-- **HUFF_COUNT** (R78). -/
def execHuffCount (s : State) : Result :=
  if s.params.msgMax < s.msgLen.toNat then abort .msgLen s
  else withOperand s.message fun msg => complete (s.storeFreqMap (countSymbols msg))

/-- **HUFF_BUILD** (R79). -/
def execHuffBuild (s : State) : Result :=
  if s.nsym.toNat = 0 ∨ Config.nsymMax < s.nsym.toNat then abort .fmap s
  else withOperand (s.fmapSyms s.nsym.toNat) fun syms =>
    if ¬ syms.Nodup then abort .fmap s
    else if Config.delim ∉ syms then abort .noDelim s
    else withOperand (s.fmapCnts s.nsym.toNat) fun cnts =>
      if 2 ^ 32 - 1 < cnts.sum then abort .freqOvf s
      else complete (s.loadTable (codeTableOf (syms.zip cnts)))

/-- **HUFF_ENCODE** (R80). -/
def execHuffEncode (s : State) : Result :=
  if s.params.msgMax < s.msgLen.toNat then abort .msgLen s
  else withOperand s.message fun msg =>
    if countSymbols msg = [] then abort .fmap s
    else if Config.delim ∉ (countSymbols msg).map (·.1) then abort .noDelim s
    else
      let table := codeTableOf (countSymbols msg)
      let bits := encodeMessage table msg
      if s.params.bitbufBits < bits.length then abort .bitLen s
      else complete (((s.storeFreqMap (countSymbols msg)).loadTable table).storeBits bits)

/-- **HUFF_DECODE** (R81). With `TREE_VALID = 1` the table is written (10_state.md R39). -/
def execHuffDecode (s : State) : Result :=
  if s.treeValid = false then abort .noTree s
  else if s.params.bitbufBits < s.bitLen.toNat then abort .bitLen s
  else withOperand s.codeTable fun t =>
    match decodeBits t s.params.outMax (s.bitStream s.bitLen.toNat) with
    | .text out used found => complete (s.storeDecoded out used found)
    | .overflow => abort .outOvf s.spoilOutbuf
    | .unwritten => uninit

end Sys2Proof.Machine
end

