-- ==== Sys2Proof/Machine/Lsb.lean ====
section
/-! DEFINITION. The LSB embedder/extractor: 42_lsb.md. -/

namespace Sys2Proof.Machine

open Sys2Proof

/-- `even(v)` of a sample (00_scope.md R11). -/
def evenSample (v : Byte) : Bool := decide (v.toNat % 2 = 0)

/-- **EmbedSample(v, b)** (R89), modulo 256. -/
def embedSample (v : Byte) (b : Bool) : Byte :=
  if evenSample v && !b then BitVec.ofNat 8 (v.toNat + 255)
  else if !evenSample v && b then BitVec.ofNat 8 (v.toNat + 1)
  else v

/-- **ExtractSample(v)** (R90): even is 1, odd is 0. -/
def extractSample (v : Byte) : Bool := evenSample v

/-- One bit into each sample, in raster order (R92). -/
def embedBits (pix : List Byte) (bits : Bitstring) : List Byte := List.zipWith embedSample pix bits

/-- One bit out of each sample, in raster order (R93). -/
def extractBits (pix : List Byte) : Bitstring := pix.map extractSample

/-- **CAP_CHECK** (R91). -/
def execCapCheck (s : State) : Result := withCapacity s complete

/-- **EMBED** (R92). -/
def execEmbed (s : State) : Result :=
  withCapacity s fun s1 =>
    withOperand (s1.bits s1.bitLen.toNat) fun bits =>
      withOperand (s1.pixels s1.bitLen.toNat) fun pix => complete (s1.storeAt .PIX (embedBits pix bits))

/-- **EXTRACT** (R93). -/
def execExtract (s : State) : Result :=
  withDims s fun s1 => withOperand (s1.pixels s1.capacity) fun pix => complete (s1.storeBits (extractBits pix))

end Sys2Proof.Machine
end

