-- ==== Sys2Proof/Machine/Dispatch.lean ====
section
/-! DEFINITION. The engine step of each command (40_host_access.md R70, R71): one arm per constructor of Instr. -/

namespace Sys2Proof.Machine

open Sys2Proof

def exec (i : Instr) (s : State) : Host.Outcome State Fault Refusal :=
  match i with
  | .nop => Sys2Proof.Machine.execNop s
  | .clear => Sys2Proof.Machine.execClear s
  | .huffCount => Sys2Proof.Machine.execHuffCount s
  | .huffBuild => Sys2Proof.Machine.execHuffBuild s
  | .huffEncode => Sys2Proof.Machine.execHuffEncode s
  | .huffDecode => Sys2Proof.Machine.execHuffDecode s
  | .capCheck => Sys2Proof.Machine.execCapCheck s
  | .embed => Sys2Proof.Machine.execEmbed s
  | .extract => Sys2Proof.Machine.execExtract s

end Sys2Proof.Machine
end

