-- ==== Sys2Proof/Machine/HostAccess.lean ====
section
/-! DEFINITION. The host's operations: 40_host_access.md R66 to R69, R72, R73, over the address map and alignment rules of
20_memory.md R43, R46, R49, R50. -/

namespace Sys2Proof.Machine

open Sys2Proof

/-- The number of bytes of an access. -/
def AccessSize.bytes : AccessSize → Nat
  | .one => 1
  | .two => 2
  | .four => 4

/-- The size of a transaction's data. -/
def BusData.size : BusData → AccessSize
  | .one _ => .one
  | .two _ => .two
  | .four _ => .four

/-- The number a transaction's data stands for. -/
def BusData.value : BusData → Nat
  | .one v => v.toNat
  | .two v => v.toNat
  | .four v => v.toNat

/-- Data of a size from a number. -/
def busData (n : AccessSize) (v : Nat) : BusData :=
  match n with
  | .one => .one (BitVec.ofNat 8 v)
  | .two => .two (BitVec.ofNat 16 v)
  | .four => .four (BitVec.ofNat 32 v)

/-- The bytes of a transaction's data, least significant first (R46). -/
def BusData.bytes (d : BusData) : List Byte := leBytes d.size.bytes d.value

/-- What an access of `n` bytes at `a` reaches; none is a bus error (R49, R50). -/
def resolve (p : Config.Params) (a n : Nat) : Option Target :=
  if a < regsEnd then
    if n = 4 ∧ a % 4 = 0 then (regAt a).map .reg else none
  else
    match windowAt p a with
    | none => none
    | some w => if a % n = 0 ∧ a + n ≤ w.base + w.size p then some (.window w) else none

/-- What a read of a register returns (10_state.md R17 to R30); reserved bits read 0. -/
def State.readReg (s : State) : Reg → Word
  | .CMD => 0
  | .STATUS => s.statusWord
  | .MSG_LEN => s.msgLen
  | .BIT_LEN => s.bitLen
  | .IMG_H => s.imgH.setWidth 32
  | .IMG_W => s.imgW.setWidth 32
  | .IMG_C => BitVec.ofNat 32 Config.imgCh
  | .CAP_AVAIL => s.capAvail
  | .NSYM => s.nsym.setWidth 32
  | .OUT_LEN => s.outLen
  | .DEC_BITS => s.decBits
  | .MAX_CODE_LEN => s.maxCodeLen.setWidth 32
  | .DELIM_REG => Config.delim.setWidth 32

/-- Storing the writable bits of a word in a RW register (10_state.md R18, R21, R22, R23, R26); no other register takes
a value from the host. -/
def State.writeReg (s : State) (r : Reg) (v : Word) : State :=
  match r with
  | .MSG_LEN => { s with msgLen := v }
  | .BIT_LEN => { s with bitLen := v }
  | .IMG_H => { s with imgH := v.setWidth 16 }
  | .IMG_W => { s with imgW := v.setWidth 16 }
  | .NSYM => { s with nsym := v.setWidth 9 }
  | .CMD => s
  | .STATUS => s
  | .IMG_C => s
  | .CAP_AVAIL => s
  | .OUT_LEN => s
  | .DEC_BITS => s
  | .MAX_CODE_LEN => s
  | .DELIM_REG => s

/-- The registers whose read returns its defined value even while busy (R72). -/
def Reg.steady : Reg → Bool
  | .CMD => true
  | .STATUS => true
  | .IMG_C => true
  | .DELIM_REG => true
  | .MSG_LEN => false
  | .BIT_LEN => false
  | .IMG_H => false
  | .IMG_W => false
  | .CAP_AVAIL => false
  | .NSYM => false
  | .OUT_LEN => false
  | .DEC_BITS => false
  | .MAX_CODE_LEN => false

/-- The transaction ends with a response. -/
def State.respond (s : State) (r : Response) : State := { s with responses := s.responses ++ [r] }

/-- A read that returns `draw(8n bits)` (R72). -/
def drawRead (n : AccessSize) (s : State) : State :=
  (s.respond (.data (busData n (leValue (s.freeBytes n.bytes))))).drawn n.bytes

/-- **Host read** (R66). -/
def hostRead (a : Addr) (n : AccessSize) (s : State) : Result :=
  match resolve s.params a.toNat n.bytes with
  | none => .next (s.respond .busError)
  | some (.reg r) =>
    if s.busy && !r.steady then .next (drawRead n s)
    else .next (s.respond (.data (busData n (s.readReg r).toNat)))
  | some (.window _) =>
    if s.busy then .next (drawRead n s)
    else withOperand (s.bytesAt a.toNat n.bytes) fun bs => .next (s.respond (.data (busData n (leValue bs))))

/-- A write to `CMD` (R67): issue while idle (R68), overrun while busy (R69). -/
def State.writeCmd (s : State) (w : Word) : State := if s.busy then s.overrun else s.issue w

/-- **Host write** (R67). -/
def hostWrite (a : Addr) (d : BusData) (s : State) : Result :=
  match resolve s.params a.toNat d.size.bytes with
  | none => .next (s.respond .busError)
  | some (.reg r) =>
    match r.access with
    | .wo => .next ((s.writeCmd (BitVec.ofNat 32 d.value)).respond .ok)
    | .ro => .next (s.respond .ok)
    | .rw =>
      if s.busy then .fault .hazardWrite
      else .next ((s.writeReg r (BitVec.ofNat 32 d.value)).respond .ok)
  | some (.window w) =>
    match w.access with
    | .wo => .next (s.respond .ok)
    | .ro => .next (s.respond .ok)
    | .rw =>
      if s.busy then .fault .hazardWrite
      else .next ((s.storeBytes a.toNat d.bytes).respond .ok)

/-- One transaction (R58). -/
def hostAccess (t : Transaction) (s : State) : Result :=
  match t with
  | .read a n => hostRead a n s
  | .write a d => hostWrite a d s

/-- The address of a register, for a host program. -/
def regAddr (r : Reg) : Addr := BitVec.ofNat 24 r.offset

/-- The host's list moves on. -/
def State.withHost (s : State) (rest : List HostOp) : State := { s with host := rest }

/-- The host's next operation (30_encoding.md R64, R65; reset: 70_reset_and_hazards.md R108). `WAIT` reads `STATUS` and
stays while bit 0 of what it read is 1. -/
def hostStep (s : State) : Result :=
  match s.host with
  | [] => .next s
  | .access t :: rest => hostAccess t (s.withHost rest)
  | .reset :: rest => .next (s.withHost rest).platformReset
  | .wait :: rest => hostAccess (.read (regAddr .STATUS) .four) (if s.busy then s else s.withHost rest)

/-- `WR8`, `WR16`, `WR32` (R64). -/
def wr (a : Addr) (d : BusData) : HostOp := .access (.write a d)

/-- `RD8`, `RD16`, `RD32` (R64). -/
def rd (a : Addr) (n : AccessSize) : HostOp := .access (.read a n)

/-- `WR NAME, v` (R64). -/
def wrReg (r : Reg) (v : Word) : HostOp := wr (regAddr r) (.four v)

/-- `RD NAME` (R64), and the transaction of `EXPECT NAME = v` (R65). -/
def rdReg (r : Reg) : HostOp := rd (regAddr r) .four

/-- `CMD MNEMONIC` (R64). -/
def cmd (i : Instr) : HostOp := wrReg .CMD (encode i)

/-- `RUN MNEMONIC` (R65). -/
def runCmd (i : Instr) : List HostOp := [cmd i, .wait]

/-- `LOADB a, b0 … bn` (R65); `LOADS` is the same with the bytes of a text. -/
def loadBytes (a : Addr) : List Byte → List HostOp
  | [] => []
  | b :: bs => wr a (.one b) :: loadBytes (a + 1) bs

end Sys2Proof.Machine
end

