-- ==== Sys2Proof/Machine/Engine.lean ====
section
/-! DEFINITION. The engine's step on a command word (40_host_access.md R70, R71), the interleaving of the two agents
(20_memory.md R53, 70_reset_and_hazards.md R119), and how a command word is placed for the engine. -/

namespace Sys2Proof.Machine

open Sys2Proof

/-- **Engine step** on the accepted word (R70, R71): a command's meaning, or `E_BADCMD` for an illegal word (R62). -/
def runWord (w : Word) (s : State) : Result :=
  match decode w with
  | .ok i => exec i s
  | .error _ => abort .badCmd s

/-- Both agents can move and the schedule names the host. -/
def hostGoesFirst (s : State) : Bool := decide (s.turns.head? = some .host) && !s.host.isEmpty

/-- The schedule moves on by one entry. -/
def State.passTurn (s : State) : State := { s with turns := s.turns.tail }

/-- The next step of the interleaving (R53; log 5). While the engine is idle only the host can move. While a command is
pending the schedule decides; a used-up schedule, or a host with nothing left to do, lets the engine move (R119). -/
def agentStep (s : State) : Result :=
  match s.engine with
  | .idle => hostStep s
  | .pending w => if hostGoesFirst s then hostStep s.passTurn else runWord w s.passTurn

/-- The word made of the low `nbits` bits of `w`. -/
def tableWord (nbits w : Nat) : Word := BitVec.ofNat 32 (w % 2 ^ nbits)

/-- The state after the host has written a command word to `CMD` and the write was accepted (R68), the engine to move
next (log 10). -/
def placeWord (w : Word) (s : State) : State := { s.issue w with turns := .engine :: s.turns }

end Sys2Proof.Machine
end

