-- ==== Sys2Proof/Machine/Step.lean ====
section
/-! DEFINITION. One step of the system of block and host. -/

namespace Sys2Proof.Machine

/-- A faulted state takes no step (70_reset_and_hazards.md R118); any other takes the next step of its interleaving. -/
def step (s : State) : Host.Outcome State Fault Refusal :=
  if s.faulted then .fault .faulted else agentStep s

/-- The state in which the very next step runs the command word `w` of `nbits` bits (log 10). -/
def State.withFetchWord (s : State) (nbits w : Nat) : State := placeWord (tableWord nbits w) s

end Sys2Proof.Machine
end

