-- ==== Sys2Proof/Safety.lean ====
section
/-! DEFINITION. Runs with the `FAULTED` flag, the end of a run (70_reset_and_hazards.md R118, R120), the node
that branch labels lead to (41_huffman.md R75), and the invariant of the block's state. -/

namespace Sys2Proof.Machine

open Sys2Proof

/-- The state after one step, as the spec's own model counts steps: a model fault sets `FAULTED` and changes nothing else
(R118, 10_state.md R40). -/
def State.advance (s : State) : State :=
  match step s with
  | .next t => t
  | .fault _ => { s with faulted := true }
  | .refused _ => s

/-- The state after `n` steps. -/
def State.afterSteps (s : State) : Nat → State
  | 0 => s
  | n + 1 => s.advance.afterSteps n

/-- **End of a run** (R120): the host has performed its last operation, `ENGINE = IDLE`, `FAULTED = 0`. -/
def State.final (s : State) : Prop := s.host = [] ∧ s.engine = .idle ∧ s.faulted = false

/-- A window that the memory stands behind; the code table stands behind the other two (log 3). -/
def inMemory : Window → Bool
  | .CODE_LEN => false
  | .CODE => false
  | .MSGBUF => true
  | .FMAP_SYM => true
  | .FMAP_CNT => true
  | .OUTBUF => true
  | .BITBUF => true
  | .PIX => true

/-- Every address that carries a written mark is mapped, in a window that the memory stands behind (20_memory.md R43,
10_state.md R39). -/
def State.marksMapped (s : State) : Prop :=
  ∀ c ∈ s.mem, ∃ w, windowAt s.params c.1 = some w ∧ inMemory w = true

/-- The node that branch labels lead to from a node, the left child at 0 and the right child at 1 (41_huffman.md R75:
"a.branch <- 0;  b.branch <- 1" of the left and the right child). None where they lead past a leaf. -/
def follow : Tree → Bitstring → Option Tree
  | t, [] => some t
  | .leaf _ _, _ :: _ => none
  | .node _ left _, false :: p => follow left p
  | .node _ _ right, true :: p => follow right p

/-- No code is a prefix of another symbol's code (00_scope.md R8, 41_huffman.md R82). -/
def prefixFree (t : CodeTable) : Prop :=
  ∀ x y : Byte, x ≠ y → codeOf t x ≠ [] → codeOf t y ≠ [] → ¬ codeOf t x <+: codeOf t y

/-- What a code table is after a successful build (10_state.md R33, 41_huffman.md R79, R82, R84): an entry for each of
the 256 symbols, no code longer than 255 bits, a code for the delimiter, prefix-free. -/
structure TableOk (t : CodeTable) : Prop where
  entries : t.length = Config.nsymMax
  lengths : ∀ x : Byte, (codeOf t x).length ≤ 255
  delimiter : codeOf t Config.delim ≠ []
  prefixFree : prefixFree t

/-- The invariant of the block's state. -/
structure State.Inv (s : State) : Prop where
  /-- The parameters meet 00_scope.md R4 and R5. -/
  params : s.params.ok = true
  /-- The memory is in canonical form. -/
  memory : s.mem.wf
  /-- Written marks stand only on mapped bytes. -/
  marks : s.marksMapped
  /-- A code table that has been written is a good one. -/
  table : ∀ t, s.codeTable = some t → TableOk t
  /-- `TREE_VALID = 1` implies that the table is written (10_state.md R39), and `MAX_CODE_LEN` is its longest code's
  length (R29). -/
  treeValid : s.treeValid = true → ∃ t, s.codeTable = some t ∧ s.maxCodeLen.toNat = maxLen t
  /-- `CAP_AVAIL` is at most `PIX_MAX` (R25). -/
  capAvail : s.capAvail.toNat ≤ s.params.pixMax
  /-- `OUT_LEN` is at most `OUT_MAX` (R27). -/
  outLen : s.outLen.toNat ≤ s.params.outMax
  /-- `DEC_BITS` is at most `BITBUF_BITS` (R28). -/
  decBits : s.decBits.toNat ≤ s.params.bitbufBits

end Sys2Proof.Machine
end

