-- ==== Sys2Proof/Certificates/Slice0/Obligations.lean ====
section
/-! DEFINITION. The statements about the model, for the provers. R<n> are the numbered rules of spec/. -/

open Sys2Proof Sys2Proof.Machine

/-! ### Encoding -/

/-- R61, whole: which words are legal, and the full word of each command; all 32 bits are compared. -/
def Obligations.DecoderAcceptsExactlyTheListedWords : Prop :=
  ∀ w : Word,
    ((∃ i, decode w = .ok i) ↔
      w.extractLsb' 8 24 = 0 ∧
        w.extractLsb' 0 8 ∈ ([0x00, 0x01, 0x10, 0x11, 0x12, 0x13, 0x20, 0x21, 0x22] : List Byte)) ∧
    (decode w = .ok .nop ↔ w = 0x00000000) ∧
    (decode w = .ok .clear ↔ w = 0x00000001) ∧
    (decode w = .ok .huffCount ↔ w = 0x00000010) ∧
    (decode w = .ok .huffBuild ↔ w = 0x00000011) ∧
    (decode w = .ok .huffEncode ↔ w = 0x00000012) ∧
    (decode w = .ok .huffDecode ↔ w = 0x00000013) ∧
    (decode w = .ok .capCheck ↔ w = 0x00000020) ∧
    (decode w = .ok .embed ↔ w = 0x00000021) ∧
    (decode w = .ok .extract ↔ w = 0x00000022)

/-- Words written out from R61's table decode to their commands (a sanity check). -/
def Obligations.WrittenOutWordsDecode : Prop :=
  decode 0x00000001 = .ok .clear ∧ decode 0x00000012 = .ok .huffEncode ∧ decode 0x00000022 = .ok .extract ∧
    decode 0x00000100 = .error .reservedBits ∧ decode 0x00000014 = .error (.unknownOpcode 0x14)

/-- Decode and encode agree: the bytes of every command's word, whatever follows them, decode to it. -/
def Obligations.DecodeInvertsEncode : Prop :=
  ∀ (i : Instr) (rest : List Byte),
    i.wf = true → decodeBytes (encodeBytes i ++ rest) = .ok (i, rest) ∧ decodeTableWord 32 (encode i).toNat = some i

/-! ### The step -/

/-- A step of the engine runs the decoded command, and turns a word that does not decode away (R70, R71; the schedule
is log 5). -/
def Obligations.StepRunsDecodedCommand : Prop :=
  ∀ (s : State) (w : Word),
    s.faulted = false → s.engine = .pending w → (s.host = [] ∨ s.turns.head? ≠ some .host) →
      (∀ i, decode w = .ok i → step s = exec i { s with turns := s.turns.tail }) ∧
      (∀ e, decode w = .error e → step s = .next { s with
        turns := s.turns.tail, engine := .idle, done := true, err := .badCmd })

/-- When the host moves (R53; the schedule is log 5), that it then performs the first of its operations that are left,
which leaves the list (the issue order of R53; R64), and that an idle block with no host operation stays as it is
(R107). -/
def Obligations.HostMovesWhenScheduledOrEngineIdle : Prop :=
  (∀ (s : State) (x : Transaction) (rest : List HostOp), s.host = .access x :: rest →
    hostStep s = hostAccess x { s with host := rest }) ∧
  (∀ s : State, s.faulted = false → s.engine = .idle → step s = hostStep s) ∧
  (∀ s : State, s.faulted = false → s.engine = .idle → s.host = [] → step s = .next s) ∧
  (∀ (s : State) (w : Word) (ts : List Agent),
    s.faulted = false → s.engine = .pending w → s.host ≠ [] → s.turns = .host :: ts →
      step s = hostStep { s with turns := ts })

/-- R62, whole: every word but the nine is accepted while idle and completes with `E_BADCMD`, changing only `STATUS`
(the response is the model's own, log 7). -/
def Obligations.IllegalWordCompletesWithBadCmd : Prop :=
  ∀ (s : State) (w : Word),
    s.engine = .idle → (w.extractLsb' 8 24 ≠ 0 ∨
      w.extractLsb' 0 8 ∉ ([0x00, 0x01, 0x10, 0x11, 0x12, 0x13, 0x20, 0x21, 0x22] : List Byte)) →
      ∃ t, hostAccess (.write 0x000000 (.four w)) s = .next t ∧ t.busy = true ∧
        runWord w t = .next { s with
          responses := s.responses ++ [.ok],
          engine := .idle, done := true, err := .badCmd, lastOp := w.extractLsb' 0 8 }

/-- R118 and R40: a model fault sets `FAULTED` and nothing else; from then on no agent steps, the flag is never cleared
and no state is final (log 4). And a final state stays as it is: R107 and log 5, not R120, which leaves open what the
block does after the host stops. -/
def Obligations.FaultStopsTheRun : Prop :=
  (∀ (s : State) (f : Fault), step s = .fault f → s.advance = { s with faulted := true }) ∧
  (∀ (s : State) (n : Nat), s.faulted = true →
    step s = .fault .faulted ∧ s.afterSteps n = s ∧ ¬ (s.afterSteps n).final) ∧
  (∀ (s : State) (n : Nat), s.final → s.afterSteps n = s)

/-- R65 and R119: `WAIT` ends. A host at `WAIT` reads `STATUS` with `BUSY = 1` and stays there only while the schedule
names it; then the pending command runs; and if that is no fault, the next step reads `STATUS` with `BUSY = 0` and takes
`WAIT` off the host's list, as it does in every idle state. The bound is the number of leading host entries of the
schedule (log 5); the responses are log 7. -/
def Obligations.WaitEndsAfterTheScheduledPolls : Prop :=
  (∀ (s : State) (rest : List HostOp), s.faulted = false → s.engine = .idle → s.host = .wait :: rest →
    step s = .next { s with host := rest, responses := s.responses ++ [.data (.four s.statusWord)] } ∧
    s.statusWord.getLsbD 0 = false) ∧
  (∀ (s : State) (w : Word) (rest : List HostOp) (k : Nat) (ts : List Agent),
    s.faulted = false → s.engine = .pending w → s.host = .wait :: rest →
    s.turns = List.replicate k .host ++ ts → ts.head? ≠ some .host →
      ∃ t, s.afterSteps k = t ∧
        t = { s with turns := ts,
                     responses := s.responses ++ List.replicate k (.data (.four s.statusWord)) } ∧
        s.statusWord.getLsbD 0 = true ∧ step t = runWord w { t with turns := ts.tail } ∧
        ∀ u, step t = .next u →
          step u = .next { u with host := rest, responses := u.responses ++ [.data (.four u.statusWord)] } ∧
          u.statusWord.getLsbD 0 = false)

/-! ### `STATUS`, command issue, overrun -/

/-- The fields of `STATUS` stand where R20 puts them, and its reserved bits read 0. -/
def Obligations.StatusFieldsStandInPlace : Prop :=
  ∀ s : State,
    s.statusWord.getLsbD 0 = s.busy ∧ s.statusWord.getLsbD 1 = s.done ∧ s.statusWord.getLsbD 2 = s.treeValid ∧
    s.statusWord.getLsbD 3 = s.delimFound ∧ s.statusWord.getLsbD 4 = s.cmdOvr ∧
    s.statusWord.extractLsb' 5 3 = 0 ∧ s.statusWord.extractLsb' 8 4 = s.err.code ∧
    s.statusWord.extractLsb' 12 4 = 0 ∧ s.statusWord.extractLsb' 16 8 = s.lastOp ∧
    s.statusWord.extractLsb' 24 8 = 0

/-- R68, all its updates: what a `CMD` write does while `BUSY = 0`, with its example. The response is the model's own,
log 7. -/
def Obligations.CmdWriteWhileIdleIssues : Prop :=
  ∀ (s : State) (w : Word), s.engine = .idle →
    ∃ t, hostAccess (.write 0x000000 (.four w)) s = .next t ∧ t.busy = true ∧
      t = { s with
        engine := .pending w, done := false, err := .none, lastOp := w.extractLsb' 0 8,
        responses := s.responses ++ [.ok] } ∧
      (w = encode .huffEncode → s.treeValid = false → s.delimFound = false → s.cmdOvr = false →
        t.statusWord = 0x00120001)

/-- R69: a `CMD` write while `BUSY = 1` only sets `CMD_OVR`; and only `CLEAR` and reset clear that flag. -/
def Obligations.CmdWriteWhileBusyOnlySetsOverrun : Prop :=
  (∀ (s : State) (w v : Word), s.engine = .pending w →
    hostAccess (.write 0x000000 (.four v)) s = .next { s with cmdOvr := true, responses := s.responses ++ [.ok] }) ∧
  (∀ s t : State, s.cmdOvr = true → step s = .next t →
    t.cmdOvr = true ∨ s.engine = .pending (encode .clear) ∨ s.host.head? = some .reset)

/-- R104: no error blocks later commands; the next `CMD` write is accepted and sets `ERR` to 0. -/
def Obligations.ErrorDoesNotBlockNextCommand : Prop :=
  ∀ (e : ErrCode) (s t : State) (w : Word), abort e s = .next t →
    t.err = e ∧ t.busy = false ∧
      ∃ u, hostAccess (.write 0x000000 (.four w)) t = .next u ∧ u.err = .none ∧ u.engine = .pending w

/-! ### Host access -/

/-- R17, R43 and R49: the offsets of the registers, the base and mapped size of the windows, which accesses are mapped
and aligned, and what they reach. -/
def Obligations.AddressMapAndAlignment : Prop :=
  (([.CMD, .STATUS, .MSG_LEN, .BIT_LEN, .IMG_H, .IMG_W, .IMG_C, .CAP_AVAIL, .NSYM, .OUT_LEN, .DEC_BITS, .MAX_CODE_LEN,
      .DELIM_REG] : List Reg).map Reg.offset =
    [0x000, 0x004, 0x008, 0x00C, 0x010, 0x014, 0x018, 0x01C, 0x020, 0x024, 0x028, 0x02C, 0x030]) ∧
  (([.MSGBUF, .FMAP_SYM, .FMAP_CNT, .CODE_LEN, .CODE, .OUTBUF, .BITBUF, .PIX] : List Window).map Window.base =
    [0x010000, 0x020000, 0x020400, 0x021000, 0x022000, 0x030000, 0x100000, 0x400000]) ∧
  (∀ p : Config.Params,
    ([.MSGBUF, .FMAP_SYM, .FMAP_CNT, .CODE_LEN, .CODE, .OUTBUF, .BITBUF, .PIX] : List Window).map (Window.size p) =
      [p.msgMax, 256, 1024, 256, 8192, p.outMax, p.bitbufBits / 8, p.pixMax]) ∧
  (∀ (p : Config.Params) (a : Nat) (w : Window), p.ok = true →
    (windowAt p a = some w ↔ w.base ≤ a ∧ a < w.base + w.size p)) ∧
  ∀ (p : Config.Params) (a : Addr) (n : AccessSize), p.ok = true →
    (∀ r : Reg, resolve p a.toNat n.bytes = some (.reg r) ↔ n = .four ∧ a.toNat = r.offset) ∧
    (∀ w : Window, resolve p a.toNat n.bytes = some (.window w) ↔
      a.toNat % n.bytes = 0 ∧ w.base ≤ a.toNat ∧ a.toNat + n.bytes ≤ w.base + w.size p)

/-- R50: a bus error changes no state, on a read and on a write; the response is all. -/
def Obligations.BusErrorChangesNothing : Prop :=
  ∀ (s : State) (a : Addr),
    (∀ n : AccessSize, resolve s.params a.toNat n.bytes = none →
      hostAccess (.read a n) s = .next { s with responses := s.responses ++ [.busError] }) ∧
    (∀ d : BusData, resolve s.params a.toNat d.size.bytes = none →
      hostAccess (.write a d) s = .next { s with responses := s.responses ++ [.busError] })

/-- R19, R24, R30 (reads): `CMD` reads 0, `IMG_C` 3, `DELIM_REG` 0x23 and `STATUS` its word, busy or not. -/
def Obligations.SteadyRegistersReadTheSameWhileBusy : Prop :=
  ∀ s : State,
    hostAccess (.read 0x000000 .four) s = .next { s with responses := s.responses ++ [.data (.four 0)] } ∧
    hostAccess (.read 0x000004 .four) s = .next { s with responses := s.responses ++ [.data (.four s.statusWord)] } ∧
    hostAccess (.read 0x000018 .four) s = .next { s with responses := s.responses ++ [.data (.four 3)] } ∧
    hostAccess (.read 0x000030 .four) s = .next { s with responses := s.responses ++ [.data (.four 0x23)] }

/-- R18: a write to a RW register stores its writable bits and a read returns them, reserved bits 0 (R21, R22, R23,
R26); nothing else changes. And the four result registers read their current values while idle (R25, R27, R28, R29). -/
def Obligations.WritableRegistersReadBack : Prop :=
  ∀ (s : State) (v : Word), s.engine = .idle →
    (∃ t, hostAccess (.write 0x000008 (.four v)) s = .next t ∧
      t = { s with msgLen := v, responses := s.responses ++ [.ok] } ∧
      hostAccess (.read 0x000008 .four) t = .next { t with responses := t.responses ++ [.data (.four v)] }) ∧
    (∃ t, hostAccess (.write 0x00000C (.four v)) s = .next t ∧
      t = { s with bitLen := v, responses := s.responses ++ [.ok] } ∧
      hostAccess (.read 0x00000C .four) t = .next { t with responses := t.responses ++ [.data (.four v)] }) ∧
    (∃ t, hostAccess (.write 0x000010 (.four v)) s = .next t ∧
      t = { s with imgH := v.extractLsb' 0 16, responses := s.responses ++ [.ok] } ∧
      hostAccess (.read 0x000010 .four) t =
        .next { t with responses := t.responses ++ [.data (.four (v &&& 0x0000FFFF))] }) ∧
    (∃ t, hostAccess (.write 0x000014 (.four v)) s = .next t ∧
      t = { s with imgW := v.extractLsb' 0 16, responses := s.responses ++ [.ok] } ∧
      hostAccess (.read 0x000014 .four) t =
        .next { t with responses := t.responses ++ [.data (.four (v &&& 0x0000FFFF))] }) ∧
    (∃ t, hostAccess (.write 0x000020 (.four v)) s = .next t ∧
      t = { s with nsym := v.extractLsb' 0 9, responses := s.responses ++ [.ok] } ∧
      hostAccess (.read 0x000020 .four) t =
        .next { t with responses := t.responses ++ [.data (.four (v &&& 0x000001FF))] }) ∧
    hostAccess (.read 0x00001C .four) s = .next { s with responses := s.responses ++ [.data (.four s.capAvail)] } ∧
    hostAccess (.read 0x000024 .four) s = .next { s with responses := s.responses ++ [.data (.four s.outLen)] } ∧
    hostAccess (.read 0x000028 .four) s = .next { s with responses := s.responses ++ [.data (.four s.decBits)] } ∧
    hostAccess (.read 0x00002C .four) s =
      .next { s with responses := s.responses ++ [.data (.four ((0 : BitVec 24) ++ s.maxCodeLen))] }

/-- R18, R50, R67: a write to a RO register or a RO window completes and is ignored, busy or not. -/
def Obligations.ReadOnlyWritesAreIgnored : Prop :=
  ∀ (s : State) (a : Addr) (d : BusData),
    ((∃ r, resolve s.params a.toNat d.size.bytes = some (.reg r) ∧
        r ∈ ([.STATUS, .IMG_C, .CAP_AVAIL, .OUT_LEN, .DEC_BITS, .MAX_CODE_LEN, .DELIM_REG] : List Reg)) ∨
      (∃ w, resolve s.params a.toNat d.size.bytes = some (.window w) ∧
        w ∈ ([.CODE_LEN, .CODE, .OUTBUF] : List Window))) →
      hostAccess (.write a d) s = .next { s with responses := s.responses ++ [.ok] }

/-- R73: while `BUSY = 1` a write to a RW register or window is the fault `HazardWrite`. -/
def Obligations.BusyWriteFaults : Prop :=
  ∀ (s : State) (w : Word) (a : Addr) (d : BusData), s.engine = .pending w →
    ((∃ r, resolve s.params a.toNat d.size.bytes = some (.reg r) ∧
        r ∈ ([.MSG_LEN, .BIT_LEN, .IMG_H, .IMG_W, .NSYM] : List Reg)) ∨
      (∃ v, resolve s.params a.toNat d.size.bytes = some (.window v) ∧
        v ∈ ([.MSGBUF, .FMAP_SYM, .FMAP_CNT, .BITBUF, .PIX] : List Window))) →
      hostAccess (.write a d) s = .fault .hazardWrite

/-- R72: while `BUSY = 1` a read of anything but `STATUS`, `IMG_C`, `DELIM_REG` and `CMD` returns free bytes, written or
not; only the draw counter of the model (log 8) moves. -/
def Obligations.BusyReadIsFree : Prop :=
  ∀ (s : State) (w : Word) (a : Addr) (n : AccessSize), s.engine = .pending w →
    ((∃ r, resolve s.params a.toNat n.bytes = some (.reg r) ∧ r ∉ ([.CMD, .STATUS, .IMG_C, .DELIM_REG] : List Reg)) ∨
      (∃ v, resolve s.params a.toNat n.bytes = some (.window v))) →
      hostAccess (.read a n) s = .next { s with
        responses := s.responses ++
          [.data (busData n (leValue ((List.range n.bytes).map fun k => Config.freeByte (s.draws + k))))],
        draws := s.draws + n.bytes }

/-- R39, R46, R66 (host reads of a window while idle, of whatever kind): a read that covers a byte with a clear mark
faults `UninitRead`; a read whose bytes are all written returns their little-endian value. -/
def Obligations.UnwrittenReadFaults : Prop :=
  ∀ (s : State) (a : Addr) (n : AccessSize) (w : Window), s.engine = .idle →
    resolve s.params a.toNat n.bytes = some (.window w) →
      (∀ k < n.bytes, s.byteAt (a.toNat + k) = none → hostAccess (.read a n) s = .fault .uninitRead) ∧
      ((∀ k < n.bytes, s.byteAt (a.toNat + k) ≠ none) →
        ∃ d : BusData, d.size = n ∧
          hostAccess (.read a n) s = .next { s with responses := s.responses ++ [.data d] } ∧
          ∀ k < n.bytes, s.byteAt (a.toNat + k) = some (BitVec.ofNat 8 (d.value / 256 ^ k)))

/-- R46, R67: a write to a RW window stores its bytes, least significant first, and reads back; every other byte of the
address space and every register is as before. -/
def Obligations.WindowWriteReadsBackLittleEndian : Prop :=
  ∀ (s : State) (a : Addr) (d : BusData) (w : Window), s.params.ok = true → s.engine = .idle →
    resolve s.params a.toNat d.size.bytes = some (.window w) →
    w ∈ ([.MSGBUF, .FMAP_SYM, .FMAP_CNT, .BITBUF, .PIX] : List Window) →
      ∃ t, hostAccess (.write a d) s = .next t ∧
        t = { s with mem := t.mem, responses := s.responses ++ [.ok] } ∧
        hostAccess (.read a d.size) t = .next { t with responses := t.responses ++ [.data d] } ∧
        (∀ k < d.size.bytes, t.byteAt (a.toNat + k) = some (BitVec.ofNat 8 (d.value / 256 ^ k))) ∧
        (∀ x, x < a.toNat ∨ a.toNat + d.size.bytes ≤ x → t.byteAt x = s.byteAt x)

/-- R51: no host read has a side effect (the response and the draw counter are the model's own, log 7, log 8). -/
def Obligations.ReadsChangeNoBlockState : Prop :=
  ∀ (s t : State) (a : Addr) (n : AccessSize), hostAccess (.read a n) s = .next t →
    t = { s with responses := t.responses, draws := t.draws } ∧ ∃ r, t.responses = s.responses ++ [r]

/-- R44, R47: how the `CODE` and `CODE_LEN` windows show a table: bit `j` of `CODE[x]` is bit `7 - (j mod 8)` of byte
`32 x + j / 8`, and the bits after the code read 0. And how the bit buffer's window shows its bits: `BIT(i)` is bit
`7 - (i mod 8)` of byte `i / 8`, and commands read these bits. -/
def Obligations.CodeWindowsShowTheTable : Prop :=
  (∀ (s : State) (t : CodeTable) (x : Byte), s.params.ok = true → s.codeTable = some t → (codeOf t x).length < 256 →
    s.byteAt (0x021000 + x.toNat) = some (BitVec.ofNat 8 (codeOf t x).length) ∧
    ∀ j < 256, ∃ b, s.byteAt (0x022000 + 32 * x.toNat + j / 8) = some b ∧
      b.getLsbD (7 - j % 8) = (if h : j < (codeOf t x).length then (codeOf t x)[j] else false)) ∧
  (∀ (s : State) (i : Nat), s.params.ok = true → i < s.params.bitbufBits →
    s.bit i = (s.byteAt (0x100000 + i / 8)).map fun b => b.getLsbD (7 - i % 8)) ∧
  (∀ (s : State) (n : Nat), s.bitStream n = (List.range n).map s.bit ∧
    ∀ bits : Bitstring, s.bits n = some bits ↔ s.bitStream n = bits.map some)

/-! ### Reset -/

/-- R108: what reset by the platform sets, at any time; every array byte becomes unwritten. `FAULTED` is kept (R40). -/
def Obligations.ResetSetsRegistersAndClearsMarks : Prop :=
  ∀ (s : State) (rest : List HostOp), s.host = .reset :: rest →
    ∃ t, hostStep s = .next t ∧
      t = { s with
        engine := .idle, done := false, treeValid := false, delimFound := false, cmdOvr := false, err := .none,
        lastOp := 0, msgLen := 0, bitLen := 0, imgH := 0, imgW := 0, capAvail := 0, nsym := 0, outLen := 0,
        decBits := 0, maxCodeLen := 0, codeTable := none, mem := [], host := rest } ∧
      t.statusWord = 0x00000000 ∧ t.readReg .IMG_C = 3 ∧ t.readReg .DELIM_REG = 0x23 ∧ ∀ a, t.byteAt a = none

/-- R109: the value each register reads after reset. -/
def Obligations.ResetRegisterValues : Prop :=
  State.reset.readReg .STATUS = 0 ∧ State.reset.readReg .MSG_LEN = 0 ∧ State.reset.readReg .BIT_LEN = 0 ∧
  State.reset.readReg .IMG_H = 0 ∧ State.reset.readReg .IMG_W = 0 ∧ State.reset.readReg .IMG_C = 3 ∧
  State.reset.readReg .CAP_AVAIL = 0 ∧ State.reset.readReg .NSYM = 0 ∧ State.reset.readReg .OUT_LEN = 0 ∧
  State.reset.readReg .DEC_BITS = 0 ∧ State.reset.readReg .MAX_CODE_LEN = 0 ∧
  State.reset.readReg .DELIM_REG = 0x23 ∧ State.reset.engine = .idle ∧ ∀ a, State.reset.byteAt a = none

/-- The invariant holds after reset. -/
def Obligations.ResetMeetsInvariant : Prop := State.reset.Inv

/-- Every step keeps the invariant: parameters in bounds, memory in canonical form with marks only on mapped bytes, a
written code table prefix-free and complete for the delimiter, `TREE_VALID` only with a written table, and the result
registers within their bounds. -/
def Obligations.EveryStepKeepsInvariant : Prop :=
  ∀ s t : State, s.Inv → step s = .next t → t.Inv

/-! ### Control commands -/

/-- R98, whole. -/
def Obligations.NopOnlyCompletes : Prop :=
  (∀ s : State, exec .nop s = .next { s with engine := .idle, done := true }) ∧
  decode 0x00000000 = .ok .nop ∧ decode 0x00000100 = .error .reservedBits ∧
  ∃ t u, hostAccess (.write 0x000000 (.four (encode .nop))) State.reset = .next t ∧ step t = .next u ∧
    u.statusWord = 0x00000002

/-- R99, whole: `CLEAR` returns the registers to their reset values and invalidates the table; arrays keep their bytes. -/
def Obligations.ClearResetsRegistersKeepsArrays : Prop :=
  decode 0x00000001 = .ok .clear ∧ ∀ s : State, ∃ t, exec .clear s = .next t ∧
    t = { s with
      msgLen := 0, bitLen := 0, imgH := 0, imgW := 0, capAvail := 0, nsym := 0, outLen := 0, decBits := 0,
      maxCodeLen := 0, treeValid := false, delimFound := false, cmdOvr := false, engine := .idle, done := true } ∧
    (∀ a, t.byteAt a = s.byteAt a) ∧ t.readReg .IMG_C = 3 ∧ t.readReg .DELIM_REG = 0x23 ∧
    exec .huffDecode t = .next { t with engine := .idle, done := true, err := .noTree }

/-! ### Huffman algorithms -/

/-- R10: the sort is a permutation, ascending, and keeps the order of nodes of equal frequency. -/
def Obligations.StableSortIsStable : Prop :=
  ∀ l : List Tree, (stableSortByFreq l).Perm l ∧
    (stableSortByFreq l).Pairwise (fun a b => treeFreq a ≤ treeFreq b) ∧
    ∀ f : Nat, (stableSortByFreq l).filter (fun t => decide (treeFreq t = f)) =
      l.filter (fun t => decide (treeFreq t = f))

/-- R74, whole: the map lists each symbol of the message once, in order of first occurrence, with its count, which is
between 1 and the message's length. -/
def Obligations.CountListsFirstOccurrencesWithCounts : Prop :=
  ∀ msg : List Byte,
    ((countSymbols msg).map (·.1)).Nodup ∧
    (∀ x : Byte, x ∈ (countSymbols msg).map (·.1) ↔ x ∈ msg) ∧
    ((countSymbols msg).map (·.1)).Pairwise (fun x y => msg.idxOf x < msg.idxOf y) ∧
    (∀ e ∈ countSymbols msg, e.2 = msg.count e.1 ∧ 1 ≤ e.2 ∧ e.2 ≤ msg.length)

/-- R75: each pass of the loop merges the two lowest nodes of the stable order and appends the merged node; `n - 1`
passes leave one root, whose leaves are the map's entries and whose frequency is their sum; and the table of the map is
that of this root (R79). -/
def Obligations.BuildTreeMergesToOneRoot : Prop :=
  (∀ (l : List Tree) (a b : Tree) (rest : List Tree), stableSortByFreq l = a :: b :: rest →
    mergeLowest l = rest ++ [.node (treeFreq a + treeFreq b) a b]) ∧
  (∀ fm : FreqMap, fm ≠ [] → ∃ root,
    mergeLowest^[fm.length - 1] (fm.map fun e => .leaf e.1 e.2) = [root] ∧ buildTree fm = some root ∧
    codeTableOf fm = codesOf root ∧
    treeFreq root = (fm.map (·.2)).sum ∧ ((walk root []).map (·.1)).Perm (fm.map (·.1)))

/-- R76: in a tree of distinct symbols each leaf's code is its path: followed from the root, left at 0 and right at 1, it
leads to the leaf of its symbol, and no other bitstring does; "0" for the leaf of a single-symbol tree; a symbol that is
no leaf has none; the table has an entry for each of the 256 symbols. Walk goes left with 0 and right with 1 (R75). -/
def Obligations.CodesAreTheTreePaths : Prop :=
  (∀ (x : Byte) (f : Nat) (y : Byte),
    codeOf (codesOf (.leaf x f)) y = if y = x then [false] else []) ∧
  (∀ (f : Nat) (l r : Tree) (x : Byte) (p : Bitstring), ((walk (.node f l r) []).map (·.1)).Nodup →
    (x, p) ∈ walk (.node f l r) [] → codeOf (codesOf (.node f l r)) x = p) ∧
  (∀ (f : Nat) (l r : Tree) (x : Byte), x ∉ (walk (.node f l r) []).map (·.1) →
    codeOf (codesOf (.node f l r)) x = []) ∧
  (∀ root : Tree, (codesOf root).length = 256) ∧
  (∀ (x : Byte) (f : Nat) (p : Bitstring), walk (.leaf x f) p = [(x, p)]) ∧
  (∀ (f : Nat) (l r : Tree) (p : Bitstring),
    walk (.node f l r) p = walk l (p ++ [false]) ++ walk r (p ++ [true])) ∧
  (∀ (f : Nat) (l r : Tree) (x : Byte), ((walk (.node f l r) []).map (·.1)).Nodup →
    x ∈ (walk (.node f l r) []).map (·.1) →
      (∃ g, follow (.node f l r) (codeOf (codesOf (.node f l r)) x) = some (.leaf x g)) ∧
      ∀ (p : Bitstring) (g : Nat), follow (.node f l r) p = some (.leaf x g) →
        codeOf (codesOf (.node f l r)) x = p)

/-- R82: after a successful `HUFF_BUILD` or `HUFF_ENCODE` the table is written and prefix-free. -/
def Obligations.BuiltTableIsPrefixFree : Prop :=
  ∀ (i : Instr) (s t : State), i = .huffBuild ∨ i = .huffEncode → s.err = .none → exec i s = .next t →
    t.err = .none →
      ∃ table, t.codeTable = some table ∧
        ∀ x y : Byte, x ≠ y → 1 ≤ (codeOf table x).length → 1 ≤ (codeOf table y).length →
          ¬ codeOf table x <+: codeOf table y

/-- R84: after a successful build every symbol of the map has a code of between 1 and `max(1, NSYM - 1)` bits, and
`MAX_CODE_LEN` is at most 255. `MAX_CODE_LEN` is the length of the longest code of the table (R29, R76). -/
def Obligations.BuiltCodeLengthsAreBounded : Prop :=
  ∀ (i : Instr) (s t : State) (syms : List Byte), i = .huffBuild ∨ i = .huffEncode → s.err = .none →
    exec i s = .next t → t.err = .none → t.fmapSyms t.nsym.toNat = some syms →
      ∃ table, t.codeTable = some table ∧ t.maxCodeLen.toNat = maxLen table ∧ maxLen table ≤ 255 ∧
        (∀ x ∈ syms, 1 ≤ (codeOf table x).length ∧ (codeOf table x).length ≤ max 1 (t.nsym.toNat - 1)) ∧
        (∀ x : Byte, (codeOf table x).length ≤ t.maxCodeLen.toNat) ∧
        ∃ x ∈ syms, (codeOf table x).length = t.maxCodeLen.toNat

/-- R83, for two or more symbols: the code is complete (the Kraft sum is 1, both sides scaled by `2 ^ 255`), so every
bitstring of at least `MAX_CODE_LEN` bits has exactly one code as a prefix. -/
def Obligations.BuiltCodeIsComplete : Prop :=
  ∀ fm : FreqMap, 2 ≤ fm.length → (fm.map (·.1)).Nodup →
    ((fm.map (·.1)).map fun x => 2 ^ (255 - (codeOf (codeTableOf fm) x).length)).sum = 2 ^ 255 ∧
    ∀ bits : Bitstring, maxLen (codeTableOf fm) ≤ bits.length →
      ∃ x, x ∈ fm.map (·.1) ∧ codeOf (codeTableOf fm) x <+: bits ∧
        ∀ y, codeOf (codeTableOf fm) y ≠ [] → codeOf (codeTableOf fm) y <+: bits → y = x

/-- R77, for a prefix-free table with a code for the delimiter. The codes of a text without the delimiter, and then the
delimiter's code, decode to the text; what follows is not read, and may be unwritten. A text too long for `OUTBUF`
overflows. A stream that ends inside a code gives the text before it, all bits consumed, and no error; so does one that
goes on with bits no prefix of which is a code (the single-symbol table of R81 and R83). Where such bits are followed by
a bit with a clear mark, the decode is stopped by it (R39). -/
def Obligations.DecodeReadsCodesUntilDelimiter : Prop :=
  ∀ (t : CodeTable) (outMax : Nat) (text : List Byte) (rest : List (Option Bool)),
    t.length = 256 → prefixFree t → codeOf t 0x23 ≠ [] → (∀ x ∈ text, codeOf t x ≠ [] ∧ x ≠ 0x23) →
      (text.length ≤ outMax →
        decodeBits t outMax ((encodeMessage t text ++ codeOf t 0x23).map some ++ rest) =
          .text text ((encodeMessage t text).length + (codeOf t 0x23).length) true) ∧
      (outMax < text.length →
        decodeBits t outMax ((encodeMessage t text ++ codeOf t 0x23).map some ++ rest) = .overflow) ∧
      (∀ (x : Byte) (part left : Bitstring), text.length ≤ outMax → codeOf t x = part ++ left → left ≠ [] →
        decodeBits t outMax ((encodeMessage t text ++ part).map some) =
          .text text ((encodeMessage t text).length + part.length) false ∧
        decodeBits t outMax ((encodeMessage t text ++ part).map some ++ none :: rest) = .unwritten) ∧
      (∀ bits : Bitstring, text.length ≤ outMax → (∀ y : Byte, codeOf t y ≠ [] → ¬ codeOf t y <+: bits) →
        decodeBits t outMax ((encodeMessage t text ++ bits).map some) =
          .text text ((encodeMessage t text).length + bits.length) false ∧
        decodeBits t outMax ((encodeMessage t text ++ bits).map some ++ none :: rest) = .unwritten)

/-! ### Huffman commands -/

/-- R78, whole: `HUFF_COUNT`: its word, its error, its fault, its result and its frame. And which bytes the message and
the entries of the frequency map are (R31, R32, R43, R46). -/
def Obligations.HuffCountResult : Prop :=
  decode 0x00000010 = .ok .huffCount ∧ ∀ s : State, s.params.ok = true →
    (∀ msg : List Byte, s.msgLen.toNat ≤ s.params.msgMax →
      (s.message = some msg ↔
        msg.length = s.msgLen.toNat ∧ ∀ k, (h : k < msg.length) → s.byteAt (0x010000 + k) = some msg[k])) ∧
    (∀ (n : Nat) (syms : List Byte), n ≤ 256 →
      (s.fmapSyms n = some syms ↔
        syms.length = n ∧ ∀ k, (h : k < syms.length) → s.byteAt (0x020000 + k) = some syms[k])) ∧
    (∀ (n : Nat) (cnts : List Nat), n ≤ 256 →
      (s.fmapCnts n = some cnts ↔
        cnts.length = n ∧ ∀ i, (h : i < cnts.length) → ∃ b0 b1 b2 b3 : Byte,
          s.byteAt (0x020400 + 4 * i) = some b0 ∧ s.byteAt (0x020400 + 4 * i + 1) = some b1 ∧
          s.byteAt (0x020400 + 4 * i + 2) = some b2 ∧ s.byteAt (0x020400 + 4 * i + 3) = some b3 ∧
          cnts[i] = b0.toNat + b1.toNat * 256 + b2.toNat * 256 ^ 2 + b3.toNat * 256 ^ 3)) ∧
    (s.params.msgMax < s.msgLen.toNat →
      exec .huffCount s = .next { s with engine := .idle, done := true, err := .msgLen }) ∧
    (s.msgLen.toNat ≤ s.params.msgMax → s.message = none → exec .huffCount s = .fault .uninitRead) ∧
    (∀ msg, s.msgLen.toNat ≤ s.params.msgMax → s.message = some msg →
      ∃ t, exec .huffCount s = .next t ∧
        t.nsym.toNat = (countSymbols msg).length ∧
        t.fmapSyms t.nsym.toNat = some ((countSymbols msg).map (·.1)) ∧
        t.fmapCnts t.nsym.toNat = some ((countSymbols msg).map (·.2)) ∧
        t = { s with engine := .idle, done := true, nsym := t.nsym, mem := t.mem } ∧
        ∀ a, ¬ (0x020000 ≤ a ∧ a < 0x020000 + t.nsym.toNat) →
          ¬ (0x020400 ≤ a ∧ a < 0x020400 + 4 * t.nsym.toNat) → t.byteAt a = s.byteAt a)

/-- R79: `HUFF_BUILD` on a good map: the table of the map, which is Codes of BuildTree's root (R75, R76),
`MAX_CODE_LEN`, `TREE_VALID`; nothing else changes, and only the two code windows read differently. -/
def Obligations.HuffBuildResult : Prop :=
  ∀ (s : State) (syms : List Byte) (cnts : List Nat),
    1 ≤ s.nsym.toNat → s.nsym.toNat ≤ 256 → s.fmapSyms s.nsym.toNat = some syms → syms.Nodup → 0x23 ∈ syms →
    s.fmapCnts s.nsym.toNat = some cnts → cnts.sum ≤ 2 ^ 32 - 1 →
      ∃ t, exec .huffBuild s = .next t ∧
        t = { s with
          engine := .idle, done := true, treeValid := true, codeTable := some (codeTableOf (syms.zip cnts)),
          maxCodeLen := t.maxCodeLen } ∧
        (∃ root, buildTree (syms.zip cnts) = some root ∧ codeTableOf (syms.zip cnts) = codesOf root) ∧
        t.maxCodeLen.toNat = maxLen (codeTableOf (syms.zip cnts)) ∧
        (∀ x : Byte, codeOf (codeTableOf (syms.zip cnts)) x ≠ [] ↔ x ∈ syms) ∧
        ∀ a, ¬ (0x021000 ≤ a ∧ a ≤ 0x0210FF) → ¬ (0x022000 ≤ a ∧ a ≤ 0x023FFF) → t.byteAt a = s.byteAt a

/-- R79, R101: the checks of `HUFF_BUILD` in their order, and its faults; an error changes only `STATUS`. -/
def Obligations.HuffBuildFirstFailingCheck : Prop :=
  ∀ s : State,
    (s.nsym.toNat = 0 ∨ 256 < s.nsym.toNat →
      exec .huffBuild s = .next { s with engine := .idle, done := true, err := .fmap }) ∧
    (1 ≤ s.nsym.toNat → s.nsym.toNat ≤ 256 → s.fmapSyms s.nsym.toNat = none →
      exec .huffBuild s = .fault .uninitRead) ∧
    (∀ syms, 1 ≤ s.nsym.toNat → s.nsym.toNat ≤ 256 → s.fmapSyms s.nsym.toNat = some syms →
      (¬ syms.Nodup → exec .huffBuild s = .next { s with engine := .idle, done := true, err := .fmap }) ∧
      (syms.Nodup → 0x23 ∉ syms →
        exec .huffBuild s = .next { s with engine := .idle, done := true, err := .noDelim }) ∧
      (syms.Nodup → 0x23 ∈ syms → s.fmapCnts s.nsym.toNat = none → exec .huffBuild s = .fault .uninitRead) ∧
      (∀ cnts, syms.Nodup → 0x23 ∈ syms → s.fmapCnts s.nsym.toNat = some cnts → 2 ^ 32 - 1 < cnts.sum →
        exec .huffBuild s = .next { s with engine := .idle, done := true, err := .freqOvf }))

/-- R80: `HUFF_ENCODE` on a message with the delimiter whose code fits: the map, the table, the bits with their zero
padding, the registers, and the frame. -/
def Obligations.HuffEncodeResult : Prop :=
  ∀ (s : State) (msg : List Byte) (table : CodeTable), s.params.ok = true →
    s.msgLen.toNat ≤ s.params.msgMax → s.message = some msg → 0x23 ∈ msg →
    table = codeTableOf (countSymbols msg) → (encodeMessage table msg).length ≤ s.params.bitbufBits →
      encodeMessage table msg = (msg.map (codeOf table)).flatten ∧
      ∃ t, exec .huffEncode s = .next t ∧
        t = { s with
          engine := .idle, done := true, treeValid := true, codeTable := some table,
          maxCodeLen := t.maxCodeLen, nsym := t.nsym, bitLen := t.bitLen, mem := t.mem } ∧
        t.nsym.toNat = (countSymbols msg).length ∧
        t.fmapSyms t.nsym.toNat = some ((countSymbols msg).map (·.1)) ∧
        t.fmapCnts t.nsym.toNat = some ((countSymbols msg).map (·.2)) ∧
        t.maxCodeLen.toNat = maxLen table ∧
        t.bitLen.toNat = (encodeMessage table msg).length ∧
        t.bits t.bitLen.toNat = some (encodeMessage table msg) ∧
        (∀ i, t.bitLen.toNat ≤ i → i < 8 * ((t.bitLen.toNat + 7) / 8) → t.bit i = some false) ∧
        ∀ a, ¬ (0x020000 ≤ a ∧ a < 0x020000 + t.nsym.toNat) →
          ¬ (0x020400 ≤ a ∧ a < 0x020400 + 4 * t.nsym.toNat) →
          ¬ (0x021000 ≤ a ∧ a ≤ 0x0210FF) → ¬ (0x022000 ≤ a ∧ a ≤ 0x023FFF) →
          ¬ (0x100000 ≤ a ∧ a < 0x100000 + (t.bitLen.toNat + 7) / 8) → t.byteAt a = s.byteAt a

/-- R80, R101: the checks of `HUFF_ENCODE` in their order, and its fault; an error changes only `STATUS`. -/
def Obligations.HuffEncodeFirstFailingCheck : Prop :=
  ∀ s : State,
    (s.params.msgMax < s.msgLen.toNat →
      exec .huffEncode s = .next { s with engine := .idle, done := true, err := .msgLen }) ∧
    (s.msgLen.toNat ≤ s.params.msgMax → s.message = none → exec .huffEncode s = .fault .uninitRead) ∧
    (∀ msg, s.msgLen.toNat ≤ s.params.msgMax → s.message = some msg →
      (msg = [] → exec .huffEncode s = .next { s with engine := .idle, done := true, err := .fmap }) ∧
      (msg ≠ [] → 0x23 ∉ msg →
        exec .huffEncode s = .next { s with engine := .idle, done := true, err := .noDelim }) ∧
      (0x23 ∈ msg → s.params.bitbufBits < (encodeMessage (codeTableOf (countSymbols msg)) msg).length →
        exec .huffEncode s = .next { s with engine := .idle, done := true, err := .bitLen }))

/-- R85: after a successful `HUFF_ENCODE`, `BIT_LEN` is the sum of count times code length over the map, at most
`MSG_LEN × MAX_CODE_LEN`. -/
def Obligations.EncodedLengthIsWeightedSum : Prop :=
  ∀ (s t : State) (syms : List Byte) (cnts : List Nat) (table : CodeTable), s.params.ok = true → s.err = .none →
    exec .huffEncode s = .next t → t.err = .none → t.fmapSyms t.nsym.toNat = some syms →
    t.fmapCnts t.nsym.toNat = some cnts → t.codeTable = some table →
      t.bitLen.toNat = (List.zipWith (fun x c => c * (codeOf table x).length) syms cnts).sum ∧
      t.bitLen.toNat ≤ t.msgLen.toNat * t.maxCodeLen.toNat

/-- R81: `HUFF_DECODE` with a valid table, when Decode (R77) ends with a text: `OUTBUF`, the registers, the flag, and
the frame. -/
def Obligations.HuffDecodeResult : Prop :=
  ∀ (s : State) (table : CodeTable) (out : List Byte) (used : Nat) (found : Bool),
    s.treeValid = true → s.codeTable = some table → s.bitLen.toNat ≤ s.params.bitbufBits →
    decodeBits table s.params.outMax (s.bitStream s.bitLen.toNat) = .text out used found →
      ∃ t, exec .huffDecode s = .next t ∧
        t = { s with
          engine := .idle, done := true, delimFound := found, outLen := t.outLen, decBits := t.decBits,
          mem := t.mem } ∧
        t.outLen.toNat = out.length ∧ t.decBits.toNat = used ∧ t.outbuf t.outLen.toNat = some out ∧
        (s.params.ok = true → ∀ k, (h : k < out.length) → t.byteAt (0x030000 + k) = some out[k]) ∧
        out.length ≤ s.params.outMax ∧ out.length ≤ used ∧ used ≤ s.bitLen.toNat ∧
        ∀ a, ¬ (0x030000 ≤ a ∧ a < 0x030000 + t.outLen.toNat) → t.byteAt a = s.byteAt a

/-- R81, R101, R103: the errors of `HUFF_DECODE` in their order, and its fault. After `E_OUTOVF` every byte of `OUTBUF`
is marked written and unspecified; every other byte and every register but `STATUS` is as before. -/
def Obligations.HuffDecodeFirstFailingCheck : Prop :=
  ∀ s : State, s.params.ok = true →
    (s.treeValid = false →
      exec .huffDecode s = .next { s with engine := .idle, done := true, err := .noTree }) ∧
    (s.treeValid = true → s.params.bitbufBits < s.bitLen.toNat →
      exec .huffDecode s = .next { s with engine := .idle, done := true, err := .bitLen }) ∧
    (∀ table, s.treeValid = true → s.bitLen.toNat ≤ s.params.bitbufBits → s.codeTable = some table →
      (decodeBits table s.params.outMax (s.bitStream s.bitLen.toNat) = .unwritten →
        exec .huffDecode s = .fault .uninitRead) ∧
      (decodeBits table s.params.outMax (s.bitStream s.bitLen.toNat) = .overflow →
        ∃ t, exec .huffDecode s = .next t ∧
          t = { s with engine := .idle, done := true, err := .outOvf, mem := t.mem, draws := t.draws } ∧
          (∀ k < s.params.outMax, t.byteAt (0x030000 + k) = some (Config.freeByte (s.draws + k))) ∧
          ∀ a, ¬ (0x030000 ≤ a ∧ a < 0x030000 + s.params.outMax) → t.byteAt a = s.byteAt a))

/-- R87: `HUFF_DECODE` is a function of the code table and `BIT(0..BIT_LEN)` (and the parameters): two states that agree
on them give the same result, whatever else they hold. -/
def Obligations.DecodeDependsOnTableAndBitsOnly : Prop :=
  ∀ s s' t : State, s'.params = s.params → s'.treeValid = s.treeValid → s'.codeTable = s.codeTable →
    s'.bitLen = s.bitLen → (∀ i < s.bitLen.toNat, s'.bit i = s.bit i) → s.err = .none → s'.err = .none →
    exec .huffDecode s = .next t →
      ∃ t', exec .huffDecode s' = .next t' ∧ t'.err = t.err ∧
        (t.err = .none →
          t'.outLen = t.outLen ∧ t'.decBits = t.decBits ∧ t'.delimFound = t.delimFound ∧
          t'.outbuf t.outLen.toNat = t.outbuf t.outLen.toNat)

/-- R86: the round trip. After a successful `HUFF_ENCODE`, a `HUFF_DECODE` in any state that still has its table and its
bits (at the front of the bit buffer, with possibly more bits after them) gives the message up to its first delimiter.
The premise that it fits `OUTBUF` is the model's: otherwise R81 raises `E_OUTOVF`. -/
def Obligations.HuffmanRoundTrip : Prop :=
  ∀ (s t u : State) (text post : List Byte), s.params.ok = true → s.err = .none →
    s.message = some (text ++ 0x23 :: post) → 0x23 ∉ text → text.length ≤ s.params.outMax →
    exec .huffEncode s = .next t → t.err = .none →
    u.params = t.params → u.treeValid = t.treeValid → u.codeTable = t.codeTable →
    t.bitLen.toNat ≤ u.bitLen.toNat → u.bitLen.toNat ≤ u.params.bitbufBits →
    (∀ i < t.bitLen.toNat, u.bit i = t.bit i) →
      ∃ v table, exec .huffDecode u = .next v ∧ t.codeTable = some table ∧ v.err = u.err ∧
        v.delimFound = true ∧ v.outLen.toNat = text.length ∧ v.outbuf text.length = some text ∧
        v.decBits.toNat = ((text ++ [0x23]).map fun x => (codeOf table x).length).sum

/-! ### LSB -/

/-- R89, R90 and R94: the three cases of `EmbedSample`, modulo 256; even is 1, odd is 0; the embedded bit is the
extracted one, and a sample that has its parity is left unchanged. -/
def Obligations.EmbedSampleCarriesTheBit : Prop :=
  ∀ (v : Byte) (b : Bool),
    (v.toNat % 2 = 0 → embedSample v false = v - 1 ∧ embedSample v true = v) ∧
    (v.toNat % 2 = 1 → embedSample v true = v + 1 ∧ embedSample v false = v) ∧
    (extractSample v = true ↔ v.toNat % 2 = 0) ∧ extractSample (embedSample v b) = b ∧
    (extractSample v = b → embedSample v b = v)

/-- R91, whole: `CAP_CHECK` in all its cases. -/
def Obligations.CapCheckResult : Prop :=
  decode 0x00000020 = .ok .capCheck ∧ ∀ (s : State) (cap : Nat), cap = s.imgH.toNat * s.imgW.toNat * 3 →
    (s.params.pixMax < cap →
      exec .capCheck s = .next { s with engine := .idle, done := true, err := .dims }) ∧
    (cap ≤ s.params.pixMax → s.params.bitbufBits < s.bitLen.toNat →
      exec .capCheck s =
        .next { s with engine := .idle, done := true, err := .bitLen, capAvail := BitVec.ofNat 32 cap }) ∧
    (cap ≤ s.params.pixMax → s.bitLen.toNat ≤ s.params.bitbufBits → cap < s.bitLen.toNat →
      exec .capCheck s =
        .next { s with engine := .idle, done := true, err := .capacity, capAvail := BitVec.ofNat 32 cap }) ∧
    (cap ≤ s.params.pixMax → s.bitLen.toNat ≤ s.params.bitbufBits → s.bitLen.toNat ≤ cap →
      exec .capCheck s = .next { s with engine := .idle, done := true, capAvail := BitVec.ofNat 32 cap }) ∧
    (s.params.ok = true → cap ≤ s.params.pixMax → (BitVec.ofNat 32 cap).toNat = cap)

/-- R92: `EMBED` when its checks pass: `CAP_AVAIL`, one bit into each of `PIX[0..BIT_LEN)`, and the frame. And which
bytes the samples are (R36, R43). -/
def Obligations.EmbedResult : Prop :=
  ∀ (s : State) (bits : Bitstring) (pix : List Byte), s.params.ok = true →
    s.imgH.toNat * s.imgW.toNat * 3 ≤ s.params.pixMax → s.bitLen.toNat ≤ s.params.bitbufBits →
    s.bitLen.toNat ≤ s.imgH.toNat * s.imgW.toNat * 3 →
    s.bits s.bitLen.toNat = some bits → s.pixels s.bitLen.toNat = some pix →
      (∀ (n : Nat) (px : List Byte), n ≤ s.params.pixMax →
        (s.pixels n = some px ↔ px.length = n ∧ ∀ k, (h : k < px.length) → s.byteAt (0x400000 + k) = some px[k])) ∧
      ∃ t, exec .embed s = .next t ∧
        t = { s with engine := .idle, done := true, capAvail := t.capAvail, mem := t.mem } ∧
        t.capAvail.toNat = s.imgH.toNat * s.imgW.toNat * 3 ∧
        t.pixels s.bitLen.toNat = some (List.zipWith embedSample pix bits) ∧
        ∀ a, ¬ (0x400000 ≤ a ∧ a < 0x400000 + s.bitLen.toNat) → t.byteAt a = s.byteAt a

/-- R92, R93, R101: the errors of `EMBED` and `EXTRACT` in their order, and their faults. No error touches a byte. -/
def Obligations.EmbedExtractFirstFailingCheck : Prop :=
  ∀ (s : State) (cap : Nat), cap = s.imgH.toNat * s.imgW.toNat * 3 →
    (s.params.pixMax < cap →
      exec .embed s = .next { s with engine := .idle, done := true, err := .dims } ∧
      exec .extract s = .next { s with engine := .idle, done := true, err := .dims }) ∧
    (cap ≤ s.params.pixMax → s.params.bitbufBits < s.bitLen.toNat →
      exec .embed s =
        .next { s with engine := .idle, done := true, err := .bitLen, capAvail := BitVec.ofNat 32 cap }) ∧
    (cap ≤ s.params.pixMax → s.bitLen.toNat ≤ s.params.bitbufBits → cap < s.bitLen.toNat →
      exec .embed s =
        .next { s with engine := .idle, done := true, err := .capacity, capAvail := BitVec.ofNat 32 cap }) ∧
    (cap ≤ s.params.pixMax → s.bitLen.toNat ≤ s.params.bitbufBits → s.bitLen.toNat ≤ cap →
      s.bits s.bitLen.toNat = none ∨ s.pixels s.bitLen.toNat = none → exec .embed s = .fault .uninitRead) ∧
    (cap ≤ s.params.pixMax → s.pixels cap = none → exec .extract s = .fault .uninitRead)

/-- R95: with `BIT_LEN = cap` `EMBED` succeeds; with `BIT_LEN = cap + 1` it fails with `E_CAPACITY` and leaves every
byte unchanged. -/
def Obligations.CapacityBoundary : Prop :=
  ∀ (s : State) (cap : Nat), cap = s.imgH.toNat * s.imgW.toNat * 3 → s.params.ok = true → cap ≤ s.params.pixMax →
    s.err = .none →
    (s.bitLen.toNat = cap → s.bits cap ≠ none → s.pixels cap ≠ none →
      ∃ t, exec .embed s = .next t ∧ t.err = .none) ∧
    (s.bitLen.toNat = cap + 1 → cap + 1 ≤ s.params.bitbufBits →
      ∃ t, exec .embed s = .next t ∧ t.err = .capacity ∧ ∀ a, t.byteAt a = s.byteAt a)

/-- R93: `EXTRACT` when the grid fits: `CAP_AVAIL`, the parities as bits with their zero padding, `BIT_LEN`, and the
frame. -/
def Obligations.ExtractResult : Prop :=
  ∀ (s : State) (pix : List Byte), s.params.ok = true →
    s.imgH.toNat * s.imgW.toNat * 3 ≤ s.params.pixMax →
    s.pixels (s.imgH.toNat * s.imgW.toNat * 3) = some pix →
      ∃ t, exec .extract s = .next t ∧
        t = { s with
          engine := .idle, done := true, capAvail := t.capAvail, bitLen := t.bitLen, mem := t.mem } ∧
        t.capAvail.toNat = s.imgH.toNat * s.imgW.toNat * 3 ∧
        t.bitLen.toNat = s.imgH.toNat * s.imgW.toNat * 3 ∧
        t.bits t.bitLen.toNat = some (pix.map extractSample) ∧
        (∀ i, t.bitLen.toNat ≤ i → i < 8 * ((t.bitLen.toNat + 7) / 8) → t.bit i = some false) ∧
        ∀ a, ¬ (0x100000 ≤ a ∧ a < 0x100000 + (t.bitLen.toNat + 7) / 8) → t.byteAt a = s.byteAt a

/-- R48: raster order. The samples of a grid have distinct `PIX` indices below its capacity, and after a successful
`EMBED` the sample of each index below `BIT_LEN` carries the bit of that index. -/
def Obligations.EmbedFollowsRasterOrder : Prop :=
  ∀ (s t : State) (y x c : Nat), s.err = .none → exec .embed s = .next t → t.err = .none →
    y < s.imgH.toNat → x < s.imgW.toNat → c < 3 →
      pixIndex s.imgW.toNat y x c = (y * s.imgW.toNat + x) * 3 + c ∧
      pixIndex s.imgW.toNat y x c < s.imgH.toNat * s.imgW.toNat * 3 ∧
      (∀ y' x' c', x' < s.imgW.toNat → c' < 3 →
        pixIndex s.imgW.toNat y' x' c' = pixIndex s.imgW.toNat y x c → y' = y ∧ x' = x ∧ c' = c) ∧
      (pixIndex s.imgW.toNat y x c < s.bitLen.toNat →
        ∃ v b, t.mem.read (0x400000 + ((y * s.imgW.toNat + x) * 3 + c)) = some v ∧
          s.bit ((y * s.imgW.toNat + x) * 3 + c) = some b ∧ extractSample v = b)

/-- R97: embedding a bit twice is embedding it once, a sample moves by at most one step around the circle, and an
`EMBED` of the same bits again changes no byte. -/
def Obligations.EmbeddingTwiceChangesNothing : Prop :=
  (∀ (v : Byte) (b : Bool), embedSample (embedSample v b) b = embedSample v b ∧
    (embedSample v b = v ∨ embedSample v b = v + 1 ∨ embedSample v b = v - 1)) ∧
  (∀ s t : State, s.params.ok = true → s.err = .none → exec .embed s = .next t → t.err = .none →
    ∃ u, exec .embed t = .next u ∧ u.err = .none ∧ ∀ a, u.byteAt a = t.byteAt a)

/-- R96: after a successful `EMBED`, an `EXTRACT` of the same grid gives the embedded bits at the front, and after them
the parities of the untouched samples. That the whole grid is written is the premise of R93, whose `EXTRACT` faults on an
unwritten sample. -/
def Obligations.EmbedThenExtract : Prop :=
  ∀ (s t u : State) (bits : Bitstring), s.params.ok = true → s.err = .none → exec .embed s = .next t →
    t.err = .none → s.bits s.bitLen.toNat = some bits →
    u.params = s.params → u.imgH = s.imgH → u.imgW = s.imgW →
    (∀ k < s.imgH.toNat * s.imgW.toNat * 3, u.byteAt (0x400000 + k) = t.byteAt (0x400000 + k)) →
    u.pixels (s.imgH.toNat * s.imgW.toNat * 3) ≠ none →
      ∃ v, exec .extract u = .next v ∧ v.err = u.err ∧
        v.bitLen.toNat = s.imgH.toNat * s.imgW.toNat * 3 ∧ s.bitLen.toNat ≤ v.bitLen.toNat ∧
        v.bits s.bitLen.toNat = some bits ∧
        ∀ k, s.bitLen.toNat ≤ k → k < v.bitLen.toNat → v.bit k = (s.byteAt (0x400000 + k)).map extractSample

/-- The whole pipeline (R3, R86, R96): encode, embed, extract, decode gives the message up to its first delimiter, for
every message whose code fits the carrier. That the text fits `OUTBUF` is the model's premise (R81, `E_OUTOVF`). -/
def Obligations.EncodeEmbedExtractDecodeRecoversMessage : Prop :=
  ∀ (s : State) (text post : List Byte), s.params.ok = true → s.err = .none →
    s.msgLen.toNat ≤ s.params.msgMax → s.message = some (text ++ 0x23 :: post) → 0x23 ∉ text →
    text.length ≤ s.params.outMax → s.imgH.toNat * s.imgW.toNat * 3 ≤ s.params.pixMax →
    s.pixels (s.imgH.toNat * s.imgW.toNat * 3) ≠ none →
    (encodeMessage (codeTableOf (countSymbols (text ++ 0x23 :: post))) (text ++ 0x23 :: post)).length ≤
      s.imgH.toNat * s.imgW.toNat * 3 →
      ∃ a b c d, exec .huffEncode s = .next a ∧ exec .embed a = .next b ∧ exec .extract b = .next c ∧
        exec .huffDecode c = .next d ∧ d.err = .none ∧ d.delimFound = true ∧ d.outLen.toNat = text.length ∧
        d.outbuf text.length = some text

/-! ### Rules of the whole machine -/

/-- R103, whole: a command that ends with an error commits nothing but `CAP_AVAIL` (`CAP_CHECK`, `EMBED`, after the
dimension check) and an unspecified, marked `OUTBUF` (`E_OUTOVF`). -/
def Obligations.AbortCommitsNothing : Prop :=
  ∀ (i : Instr) (s t : State), s.params.ok = true → s.err = .none → exec i s = .next t → t.err ≠ .none →
    t = { s with
      engine := .idle, done := true, err := t.err, capAvail := t.capAvail, mem := t.mem, draws := t.draws } ∧
    (t.capAvail =
      if t.err = .capacity ∨ (t.err = .bitLen ∧ (i = .capCheck ∨ i = .embed))
      then BitVec.ofNat 32 (s.imgH.toNat * s.imgW.toNat * 3) else s.capAvail) ∧
    (t.err ≠ .outOvf → t.mem = s.mem ∧ t.draws = s.draws) ∧
    (t.err = .outOvf →
      (∀ k < s.params.outMax, ∃ b, t.byteAt (0x030000 + k) = some b) ∧
      ∀ a, ¬ (0x030000 ≤ a ∧ a < 0x030000 + s.params.outMax) → t.byteAt a = s.byteAt a)

/-- R100: the code of each error, which commands raise it, and its cause; no other code (11 to 15 are reserved) is ever
that of an error. `E_BADCMD` comes from illegal words only, and no command raises it. -/
def Obligations.ErrorsComeFromTheirCauses : Prop :=
  (([.none, .badCmd, .capacity, .noTree, .fmap, .noDelim, .freqOvf, .msgLen, .bitLen, .dims, .outOvf] :
      List ErrCode).map ErrCode.code = [0, 1, 2, 3, 4, 5, 6, 7, 8, 9, 10] ∧ ∀ e : ErrCode, e.code.toNat ≤ 10) ∧
  (∀ (w : Word) (s t : State), s.err = .none → runWord w s = .next t → t.err = .badCmd →
    w.extractLsb' 8 24 ≠ 0 ∨
      w.extractLsb' 0 8 ∉ ([0x00, 0x01, 0x10, 0x11, 0x12, 0x13, 0x20, 0x21, 0x22] : List Byte)) ∧
  ∀ (i : Instr) (s t : State), s.err = .none → exec i s = .next t →
    t.err ≠ .badCmd ∧
    (t.err = .capacity → t.err.code = 2 ∧ (i = .capCheck ∨ i = .embed) ∧
      s.imgH.toNat * s.imgW.toNat * 3 < s.bitLen.toNat) ∧
    (t.err = .noTree → t.err.code = 3 ∧ i = .huffDecode ∧ s.treeValid = false) ∧
    (t.err = .fmap → t.err.code = 4 ∧
      ((i = .huffBuild ∧ (s.nsym.toNat = 0 ∨ 256 < s.nsym.toNat ∨
        ∃ syms, s.fmapSyms s.nsym.toNat = some syms ∧ ¬ syms.Nodup)) ∨
      (i = .huffEncode ∧ s.msgLen.toNat = 0))) ∧
    (t.err = .noDelim → t.err.code = 5 ∧
      ((i = .huffBuild ∧ ∃ syms, s.fmapSyms s.nsym.toNat = some syms ∧ 0x23 ∉ syms) ∨
      (i = .huffEncode ∧ ∃ msg, s.message = some msg ∧ 0x23 ∉ msg))) ∧
    (t.err = .freqOvf → t.err.code = 6 ∧ i = .huffBuild ∧
      ∃ cnts, s.fmapCnts s.nsym.toNat = some cnts ∧ 2 ^ 32 - 1 < cnts.sum) ∧
    (t.err = .msgLen → t.err.code = 7 ∧ (i = .huffCount ∨ i = .huffEncode) ∧ s.params.msgMax < s.msgLen.toNat) ∧
    (t.err = .bitLen → t.err.code = 8 ∧
      (((i = .huffDecode ∨ i = .capCheck ∨ i = .embed) ∧ s.params.bitbufBits < s.bitLen.toNat) ∨
      (i = .huffEncode ∧ ∃ msg, s.message = some msg ∧
        s.params.bitbufBits < (encodeMessage (codeTableOf (countSymbols msg)) msg).length))) ∧
    (t.err = .dims → t.err.code = 9 ∧ (i = .capCheck ∨ i = .embed ∨ i = .extract) ∧
      s.params.pixMax < s.imgH.toNat * s.imgW.toNat * 3) ∧
    (t.err = .outOvf → t.err.code = 10 ∧ i = .huffDecode ∧ ∃ table, s.codeTable = some table ∧
      decodeBits table s.params.outMax (s.bitStream s.bitLen.toNat) = .overflow)

/-- R60 (results) and R31 to R36: which registers and flags each command may change, and that each window is changed
only by the commands the table names. -/
def Obligations.CommandsWriteOnlyTheirResults : Prop :=
  ∀ (i : Instr) (s t : State), s.params.ok = true → exec i s = .next t →
    (t.host = s.host ∧ t.turns = s.turns ∧ t.responses = s.responses ∧ t.params = s.params ∧
      t.faulted = s.faulted ∧ t.lastOp = s.lastOp) ∧
    (i ≠ .clear → t.msgLen = s.msgLen ∧ t.imgH = s.imgH ∧ t.imgW = s.imgW ∧ t.cmdOvr = s.cmdOvr) ∧
    (i ∉ ([.clear, .huffEncode, .extract] : List Instr) → t.bitLen = s.bitLen) ∧
    (i ∉ ([.clear, .capCheck, .embed, .extract] : List Instr) → t.capAvail = s.capAvail) ∧
    (i ∉ ([.clear, .huffCount, .huffEncode] : List Instr) → t.nsym = s.nsym) ∧
    (i ∉ ([.clear, .huffDecode] : List Instr) →
      t.outLen = s.outLen ∧ t.decBits = s.decBits ∧ t.delimFound = s.delimFound) ∧
    (i ∉ ([.clear, .huffBuild, .huffEncode] : List Instr) →
      t.maxCodeLen = s.maxCodeLen ∧ t.treeValid = s.treeValid) ∧
    (i ∉ ([.huffBuild, .huffEncode] : List Instr) → t.codeTable = s.codeTable) ∧
    (∀ a w, windowAt s.params a = some w →
      (w = .MSGBUF → t.byteAt a = s.byteAt a) ∧
      (w = .FMAP_SYM ∨ w = .FMAP_CNT → i ∉ ([.huffCount, .huffEncode] : List Instr) → t.byteAt a = s.byteAt a) ∧
      (w = .CODE_LEN ∨ w = .CODE → i ∉ ([.huffBuild, .huffEncode] : List Instr) → t.byteAt a = s.byteAt a) ∧
      (w = .OUTBUF → i ≠ .huffDecode → t.byteAt a = s.byteAt a) ∧
      (w = .BITBUF → i ∉ ([.huffEncode, .extract] : List Instr) → t.byteAt a = s.byteAt a) ∧
      (w = .PIX → i ≠ .embed → t.byteAt a = s.byteAt a))
end

