-- ==== Sys2Proof/Laws/Memory.lean ====
section
/-! SUPPORT. What the memory operations do: reading after writing, the canonical form, blocks, and packed bits. -/

namespace Sys2Proof.Machine

open Sys2Proof

/-! ### Collecting -/

@[simp] theorem collect_nil {α : Type} : collect ([] : List (Option α)) = some [] := rfl

@[simp] theorem collect_cons_none {α : Type} (l : List (Option α)) : collect (none :: l) = none := rfl

@[simp] theorem collect_cons_some {α : Type} (x : α) (l : List (Option α)) :
    collect (some x :: l) = (collect l).map (x :: ·) := rfl

/-- A list is collected exactly when it is a list of present values. -/
theorem collect_eq_some_iff {α : Type} {l : List (Option α)} {xs : List α} :
    collect l = some xs ↔ l = xs.map some := by
  induction l generalizing xs with
  | nil => cases xs <;> simp
  | cons o l ih =>
    cases o with
    | none => cases xs <;> simp
    | some x =>
      cases xs with
      | nil => simp
      | cons y ys => simp [ih]; tauto

theorem collect_map_some {α : Type} (xs : List α) : collect (xs.map some) = some xs :=
  collect_eq_some_iff.2 rfl

/-- Collecting fails exactly when a value is missing. -/
theorem collect_eq_none_iff {α : Type} {l : List (Option α)} : collect l = none ↔ none ∈ l := by
  induction l with
  | nil => simp
  | cons o l ih => cases o <;> simp [ih]

/-- Collecting a table of values: each entry is present. -/
theorem collect_range_eq_some_iff {α : Type} {f : Nat → Option α} {n : Nat} {xs : List α} :
    collect ((List.range n).map f) = some xs ↔ xs.length = n ∧ ∀ k, (h : k < xs.length) → f k = some xs[k] := by
  rw [collect_eq_some_iff]
  constructor
  · intro h
    have hl : xs.length = n := by simpa using (congrArg List.length h).symm
    refine ⟨hl, fun k hk => ?_⟩
    have := congrArg (·[k]?) h
    simpa [hk, hl ▸ hk] using this
  · rintro ⟨rfl, h⟩
    apply List.ext_getElem (by simp)
    intro k h1 h2
    simpa using h k (by simpa using h2)

theorem collect_range_congr {α : Type} {f g : Nat → Option α} {n : Nat} (h : ∀ k < n, f k = g k) :
    collect ((List.range n).map f) = collect ((List.range n).map g) := by
  congr 1
  exact List.map_congr_left fun k hk => h k (List.mem_range.1 hk)

/-! ### Reading and writing -/

@[simp] theorem Memory.read_nil (a : Nat) : Memory.read [] a = none := rfl

theorem Memory.read_cons (c : Host.Cell) (m : Memory) (a : Nat) :
    Memory.read (c :: m) a = if c.1 = a then some c.2 else Memory.read m a := rfl

theorem Memory.read_append (m n : Memory) (a : Nat) :
    Memory.read (m ++ n) a = (Memory.read m a).or (Memory.read n a) := by
  induction m with
  | nil => simp
  | cons c m ih => by_cases h : c.1 = a <;> simp [Memory.read_cons, h, ih]

/-- Keeping the cells of some addresses keeps what they read as. -/
theorem Memory.read_filter (m : Memory) (p : Nat → Bool) (a : Nat) :
    Memory.read (m.filter fun c => p c.1) a = if p a then Memory.read m a else none := by
  induction m with
  | nil => simp
  | cons c m ih =>
    by_cases hc : c.1 = a
    · subst hc
      by_cases hp : p c.1 <;> simp [hp, Memory.read_cons, ih]
    · by_cases hp : p c.1 <;> simp [hp, Memory.read_cons, ih, hc]

theorem read_cellsFrom (bs : List Byte) (base a : Nat) :
    Memory.read (cellsFrom base bs) a = if base ≤ a then bs[a - base]? else none := by
  induction bs generalizing base with
  | nil => simp [cellsFrom]
  | cons b bs ih =>
    rw [cellsFrom, Memory.read_cons, ih]
    by_cases h : base = a
    · subst h; simp
    · by_cases h2 : base ≤ a
      · have e : a - base = (a - (base + 1)) + 1 := by omega
        simp [h, h2, e, show base + 1 ≤ a by omega]
      · simp [h, h2, show ¬ base + 1 ≤ a by omega]

/-- **Read after write**: inside the block the bytes written, outside it what was there. -/
theorem Memory.read_writeBlock (m : Memory) (base : Nat) (bs : List Byte) (a : Nat) :
    (m.writeBlock base bs).read a =
      if base ≤ a ∧ a < base + bs.length then bs[a - base]? else m.read a := by
  unfold Memory.writeBlock
  rw [Memory.read_append, Memory.read_append, Memory.read_filter m (fun k => decide (k < base)),
    Memory.read_filter m (fun k => decide (base + bs.length ≤ k)), read_cellsFrom]
  by_cases h1 : base ≤ a
  · by_cases h2 : a < base + bs.length
    · have : a - base < bs.length := by omega
      simp [h1, h2, Nat.not_lt.2 h1, this]
    · have : bs.length ≤ a - base := by omega
      simp [h1, h2, Nat.not_lt.2 h1, this, Nat.not_lt.1 h2]
  · simp [h1, Nat.not_le.1 h1, show ¬ base + bs.length ≤ a by omega]

theorem Memory.read_writeBlock_inside (m : Memory) (base : Nat) (bs : List Byte) {k : Nat} (h : k < bs.length) :
    (m.writeBlock base bs).read (base + k) = some bs[k] := by
  simp [Memory.read_writeBlock, h]

theorem Memory.read_writeBlock_outside (m : Memory) (base : Nat) (bs : List Byte) {a : Nat}
    (h : a < base ∨ base + bs.length ≤ a) : (m.writeBlock base bs).read a = m.read a := by
  rw [Memory.read_writeBlock, if_neg (by omega)]

/-- Writing no byte changes no byte. -/
@[simp] theorem Memory.read_writeBlock_empty (m : Memory) (base a : Nat) : (m.writeBlock base []).read a = m.read a :=
  Memory.read_writeBlock_outside m base [] (by simp; omega)

/-- A block that has just been written reads back. -/
theorem Memory.readBlock_writeBlock (m : Memory) (base : Nat) (bs : List Byte) :
    (m.writeBlock base bs).readBlock base bs.length = some bs := by
  rw [Memory.readBlock, collect_range_eq_some_iff]
  exact ⟨rfl, fun k hk => Memory.read_writeBlock_inside m base bs hk⟩

/-- A block reads the same from two memories that agree on it. -/
theorem Memory.readBlock_congr {m m' : Memory} {base n : Nat} (h : ∀ k < n, m'.read (base + k) = m.read (base + k)) :
    m'.readBlock base n = m.readBlock base n := collect_range_congr h

theorem Memory.readBlock_eq_some_iff {m : Memory} {base n : Nat} {bs : List Byte} :
    m.readBlock base n = some bs ↔ bs.length = n ∧ ∀ k, (h : k < bs.length) → m.read (base + k) = some bs[k] :=
  collect_range_eq_some_iff

theorem Memory.readBlock_length {m : Memory} {base n : Nat} {bs : List Byte} (h : m.readBlock base n = some bs) :
    bs.length = n := (Memory.readBlock_eq_some_iff.1 h).1

/-! ### The canonical form -/

theorem mem_cellsFrom {bs : List Byte} {base : Nat} {c : Host.Cell} (h : c ∈ cellsFrom base bs) :
    base ≤ c.1 ∧ c.1 < base + bs.length := by
  induction bs generalizing base with
  | nil => simp [cellsFrom] at h
  | cons b bs ih =>
    rw [cellsFrom, List.mem_cons] at h
    rcases h with rfl | h
    · simp
    · have := ih h
      simp only [List.length_cons]
      omega

theorem cellsFrom_wf (bs : List Byte) (base : Nat) : (cellsFrom base bs).wf := by
  induction bs generalizing base with
  | nil => exact List.Pairwise.nil
  | cons b bs ih =>
    refine List.Pairwise.cons (fun c hc => ?_) (ih (base + 1))
    have := mem_cellsFrom hc
    show base < c.1
    omega

/-- **Every write keeps the canonical form.** -/
theorem Memory.wf_writeBlock {m : Memory} (h : m.wf) (base : Nat) (bs : List Byte) : (m.writeBlock base bs).wf := by
  unfold Memory.writeBlock
  refine List.pairwise_append.2 ⟨List.pairwise_append.2 ⟨h.filter _, cellsFrom_wf bs base, ?_⟩, h.filter _, ?_⟩
  · intro c hc d hd
    have h1 := (List.mem_filter.1 hc).2
    have h2 := mem_cellsFrom hd
    simp only [decide_eq_true_eq] at h1
    omega
  · intro c hc d hd
    have h2 := (List.mem_filter.1 hd).2
    simp only [decide_eq_true_eq] at h2
    rcases List.mem_append.1 hc with hc | hc
    · have h1 := (List.mem_filter.1 hc).2
      simp only [decide_eq_true_eq] at h1
      omega
    · have h1 := mem_cellsFrom hc
      omega

/-- The cells after a write are old ones or lie in the block. -/
theorem Memory.mem_writeBlock {m : Memory} {base : Nat} {bs : List Byte} {c : Host.Cell}
    (h : c ∈ m.writeBlock base bs) : c ∈ m ∨ (base ≤ c.1 ∧ c.1 < base + bs.length) := by
  unfold Memory.writeBlock at h
  rcases List.mem_append.1 h with h | h
  · rcases List.mem_append.1 h with h | h
    · exact .inl (List.mem_filter.1 h).1
    · exact .inr (mem_cellsFrom h)
  · exact .inl (List.mem_filter.1 h).1

/-! ### Numbers and bytes -/

theorem leBytes_length (n v : Nat) : (leBytes n v).length = n := by
  induction n generalizing v with
  | zero => rfl
  | succ n ih => simp [leBytes, ih]

/-- The bytes of a number stand for it, cut to their width. -/
theorem leValue_leBytes (n v : Nat) : leValue (leBytes n v) = v % 256 ^ n := by
  induction n generalizing v with
  | zero => simp [leBytes, leValue, Nat.mod_one]
  | succ n ih =>
    rw [pow_succ, mul_comm (256 ^ n) 256, Nat.mod_mul, leBytes, leValue, ih, BitVec.toNat_ofNat]

theorem leValue_lt (bs : List Byte) : leValue bs < 256 ^ bs.length := by
  induction bs with
  | nil => simp [leValue]
  | cons b bs ih =>
    have := b.isLt
    simp only [leValue, List.length_cons, pow_succ]
    omega

/-- Byte `k` of a little-endian value (20_memory.md R46). -/
theorem leValue_byte (bs : List Byte) {k : Nat} (h : k < bs.length) :
    BitVec.ofNat 8 (leValue bs / 256 ^ k) = bs[k] := by
  induction bs generalizing k with
  | nil => cases h
  | cons b bs ih =>
    have hb := b.isLt
    cases k with
    | zero =>
      apply BitVec.eq_of_toNat_eq
      simp [leValue]
      exact hb
    | succ k =>
      have hd : leValue (b :: bs) / 256 = leValue bs := by simp [leValue]; omega
      rw [List.getElem_cons_succ, ← ih (by simpa using h), pow_succ, mul_comm, ← Nat.div_div_eq_div_mul, hd]

/-! ### Packed bits -/

theorem bitOfByte_packByte (b0 b1 b2 b3 b4 b5 b6 b7 : Bool) (j : Fin 8) :
    bitOfByte (packByte b0 b1 b2 b3 b4 b5 b6 b7) j = [b0, b1, b2, b3, b4, b5, b6, b7].get j := by
  revert b0 b1 b2 b3 b4 b5 b6 b7 j
  decide

/-- Bit `j` of the byte that packs a bitstring is its bit `j`, or 0 after its end. -/
theorem bitOfByte_byteOfBits (bits : Bitstring) (j : Nat) (hj : j < 8) :
    bitOfByte (byteOfBits bits) j = bits.getD j false := by
  rw [byteOfBits, bitOfByte_packByte _ _ _ _ _ _ _ _ ⟨j, hj⟩]
  interval_cases j <;> rfl

theorem packBits_length (bits : Bitstring) : (packBits bits).length = (bits.length + 7) / 8 := by simp [packBits]

theorem packBits_getElem (bits : Bitstring) {k : Nat} (h : k < (packBits bits).length) :
    (packBits bits)[k] = byteOfBits (bits.drop (8 * k)) := by simp [packBits]

/-- Bit `i` of the packed bytes is bit `i` of the bitstring, or 0 in the padding (20_memory.md R47, 10_state.md R34). -/
theorem bit_packBits (bits : Bitstring) {i : Nat} (h : i / 8 < (packBits bits).length) :
    bitOfByte (packBits bits)[i / 8] (i % 8) = bits.getD i false := by
  rw [packBits_getElem, bitOfByte_byteOfBits _ _ (Nat.mod_lt _ (by decide))]
  simp only [List.getD_eq_getElem?_getD, List.getElem?_drop]
  congr 2
  omega

end Sys2Proof.Machine
end

