-- ==== Sys2Proof/Laws/State.lean ====
section
/-! SUPPORT. One lemma per field per named update of the state: what the update makes of the field. -/

namespace Sys2Proof.Machine

open Sys2Proof

/-- Two states with the same fields are the same. -/
@[ext] theorem State.ext_fields {s t : State}
    (engine : s.engine = t.engine) (done : s.done = t.done) (treeValid : s.treeValid = t.treeValid)
    (delimFound : s.delimFound = t.delimFound) (cmdOvr : s.cmdOvr = t.cmdOvr) (err : s.err = t.err)
    (lastOp : s.lastOp = t.lastOp) (msgLen : s.msgLen = t.msgLen) (bitLen : s.bitLen = t.bitLen)
    (imgH : s.imgH = t.imgH) (imgW : s.imgW = t.imgW) (capAvail : s.capAvail = t.capAvail) (nsym : s.nsym = t.nsym)
    (outLen : s.outLen = t.outLen) (decBits : s.decBits = t.decBits) (maxCodeLen : s.maxCodeLen = t.maxCodeLen)
    (codeTable : s.codeTable = t.codeTable) (mem : s.mem = t.mem) (faulted : s.faulted = t.faulted)
    (params : s.params = t.params) (host : s.host = t.host) (turns : s.turns = t.turns)
    (responses : s.responses = t.responses) (draws : s.draws = t.draws) :
    s = t := by
  cases s
  cases t
  simp_all

variable (s : State)

/-! ### `State.issue` -/

@[simp] theorem State.issue_engine (w : Word) : (s.issue w).engine = .pending w := rfl
@[simp] theorem State.issue_done (w : Word) : (s.issue w).done = false := rfl
@[simp] theorem State.issue_treeValid (w : Word) : (s.issue w).treeValid = s.treeValid := rfl
@[simp] theorem State.issue_delimFound (w : Word) : (s.issue w).delimFound = s.delimFound := rfl
@[simp] theorem State.issue_cmdOvr (w : Word) : (s.issue w).cmdOvr = s.cmdOvr := rfl
@[simp] theorem State.issue_err (w : Word) : (s.issue w).err = .none := rfl
@[simp] theorem State.issue_lastOp (w : Word) : (s.issue w).lastOp = opcField w := rfl
@[simp] theorem State.issue_msgLen (w : Word) : (s.issue w).msgLen = s.msgLen := rfl
@[simp] theorem State.issue_bitLen (w : Word) : (s.issue w).bitLen = s.bitLen := rfl
@[simp] theorem State.issue_imgH (w : Word) : (s.issue w).imgH = s.imgH := rfl
@[simp] theorem State.issue_imgW (w : Word) : (s.issue w).imgW = s.imgW := rfl
@[simp] theorem State.issue_capAvail (w : Word) : (s.issue w).capAvail = s.capAvail := rfl
@[simp] theorem State.issue_nsym (w : Word) : (s.issue w).nsym = s.nsym := rfl
@[simp] theorem State.issue_outLen (w : Word) : (s.issue w).outLen = s.outLen := rfl
@[simp] theorem State.issue_decBits (w : Word) : (s.issue w).decBits = s.decBits := rfl
@[simp] theorem State.issue_maxCodeLen (w : Word) : (s.issue w).maxCodeLen = s.maxCodeLen := rfl
@[simp] theorem State.issue_codeTable (w : Word) : (s.issue w).codeTable = s.codeTable := rfl
@[simp] theorem State.issue_mem (w : Word) : (s.issue w).mem = s.mem := rfl
@[simp] theorem State.issue_faulted (w : Word) : (s.issue w).faulted = s.faulted := rfl
@[simp] theorem State.issue_params (w : Word) : (s.issue w).params = s.params := rfl
@[simp] theorem State.issue_host (w : Word) : (s.issue w).host = s.host := rfl
@[simp] theorem State.issue_turns (w : Word) : (s.issue w).turns = s.turns := rfl
@[simp] theorem State.issue_responses (w : Word) : (s.issue w).responses = s.responses := rfl
@[simp] theorem State.issue_draws (w : Word) : (s.issue w).draws = s.draws := rfl

/-! ### `State.overrun` -/

@[simp] theorem State.overrun_engine : s.overrun.engine = s.engine := rfl
@[simp] theorem State.overrun_done : s.overrun.done = s.done := rfl
@[simp] theorem State.overrun_treeValid : s.overrun.treeValid = s.treeValid := rfl
@[simp] theorem State.overrun_delimFound : s.overrun.delimFound = s.delimFound := rfl
@[simp] theorem State.overrun_cmdOvr : s.overrun.cmdOvr = true := rfl
@[simp] theorem State.overrun_err : s.overrun.err = s.err := rfl
@[simp] theorem State.overrun_lastOp : s.overrun.lastOp = s.lastOp := rfl
@[simp] theorem State.overrun_msgLen : s.overrun.msgLen = s.msgLen := rfl
@[simp] theorem State.overrun_bitLen : s.overrun.bitLen = s.bitLen := rfl
@[simp] theorem State.overrun_imgH : s.overrun.imgH = s.imgH := rfl
@[simp] theorem State.overrun_imgW : s.overrun.imgW = s.imgW := rfl
@[simp] theorem State.overrun_capAvail : s.overrun.capAvail = s.capAvail := rfl
@[simp] theorem State.overrun_nsym : s.overrun.nsym = s.nsym := rfl
@[simp] theorem State.overrun_outLen : s.overrun.outLen = s.outLen := rfl
@[simp] theorem State.overrun_decBits : s.overrun.decBits = s.decBits := rfl
@[simp] theorem State.overrun_maxCodeLen : s.overrun.maxCodeLen = s.maxCodeLen := rfl
@[simp] theorem State.overrun_codeTable : s.overrun.codeTable = s.codeTable := rfl
@[simp] theorem State.overrun_mem : s.overrun.mem = s.mem := rfl
@[simp] theorem State.overrun_faulted : s.overrun.faulted = s.faulted := rfl
@[simp] theorem State.overrun_params : s.overrun.params = s.params := rfl
@[simp] theorem State.overrun_host : s.overrun.host = s.host := rfl
@[simp] theorem State.overrun_turns : s.overrun.turns = s.turns := rfl
@[simp] theorem State.overrun_responses : s.overrun.responses = s.responses := rfl
@[simp] theorem State.overrun_draws : s.overrun.draws = s.draws := rfl

/-! ### `State.finish` -/

@[simp] theorem State.finish_engine : s.finish.engine = .idle := rfl
@[simp] theorem State.finish_done : s.finish.done = true := rfl
@[simp] theorem State.finish_treeValid : s.finish.treeValid = s.treeValid := rfl
@[simp] theorem State.finish_delimFound : s.finish.delimFound = s.delimFound := rfl
@[simp] theorem State.finish_cmdOvr : s.finish.cmdOvr = s.cmdOvr := rfl
@[simp] theorem State.finish_err : s.finish.err = s.err := rfl
@[simp] theorem State.finish_lastOp : s.finish.lastOp = s.lastOp := rfl
@[simp] theorem State.finish_msgLen : s.finish.msgLen = s.msgLen := rfl
@[simp] theorem State.finish_bitLen : s.finish.bitLen = s.bitLen := rfl
@[simp] theorem State.finish_imgH : s.finish.imgH = s.imgH := rfl
@[simp] theorem State.finish_imgW : s.finish.imgW = s.imgW := rfl
@[simp] theorem State.finish_capAvail : s.finish.capAvail = s.capAvail := rfl
@[simp] theorem State.finish_nsym : s.finish.nsym = s.nsym := rfl
@[simp] theorem State.finish_outLen : s.finish.outLen = s.outLen := rfl
@[simp] theorem State.finish_decBits : s.finish.decBits = s.decBits := rfl
@[simp] theorem State.finish_maxCodeLen : s.finish.maxCodeLen = s.maxCodeLen := rfl
@[simp] theorem State.finish_codeTable : s.finish.codeTable = s.codeTable := rfl
@[simp] theorem State.finish_mem : s.finish.mem = s.mem := rfl
@[simp] theorem State.finish_faulted : s.finish.faulted = s.faulted := rfl
@[simp] theorem State.finish_params : s.finish.params = s.params := rfl
@[simp] theorem State.finish_host : s.finish.host = s.host := rfl
@[simp] theorem State.finish_turns : s.finish.turns = s.turns := rfl
@[simp] theorem State.finish_responses : s.finish.responses = s.responses := rfl
@[simp] theorem State.finish_draws : s.finish.draws = s.draws := rfl

/-! ### `State.fail` -/

@[simp] theorem State.fail_engine (e : ErrCode) : (s.fail e).engine = .idle := rfl
@[simp] theorem State.fail_done (e : ErrCode) : (s.fail e).done = true := rfl
@[simp] theorem State.fail_treeValid (e : ErrCode) : (s.fail e).treeValid = s.treeValid := rfl
@[simp] theorem State.fail_delimFound (e : ErrCode) : (s.fail e).delimFound = s.delimFound := rfl
@[simp] theorem State.fail_cmdOvr (e : ErrCode) : (s.fail e).cmdOvr = s.cmdOvr := rfl
@[simp] theorem State.fail_err (e : ErrCode) : (s.fail e).err = e := rfl
@[simp] theorem State.fail_lastOp (e : ErrCode) : (s.fail e).lastOp = s.lastOp := rfl
@[simp] theorem State.fail_msgLen (e : ErrCode) : (s.fail e).msgLen = s.msgLen := rfl
@[simp] theorem State.fail_bitLen (e : ErrCode) : (s.fail e).bitLen = s.bitLen := rfl
@[simp] theorem State.fail_imgH (e : ErrCode) : (s.fail e).imgH = s.imgH := rfl
@[simp] theorem State.fail_imgW (e : ErrCode) : (s.fail e).imgW = s.imgW := rfl
@[simp] theorem State.fail_capAvail (e : ErrCode) : (s.fail e).capAvail = s.capAvail := rfl
@[simp] theorem State.fail_nsym (e : ErrCode) : (s.fail e).nsym = s.nsym := rfl
@[simp] theorem State.fail_outLen (e : ErrCode) : (s.fail e).outLen = s.outLen := rfl
@[simp] theorem State.fail_decBits (e : ErrCode) : (s.fail e).decBits = s.decBits := rfl
@[simp] theorem State.fail_maxCodeLen (e : ErrCode) : (s.fail e).maxCodeLen = s.maxCodeLen := rfl
@[simp] theorem State.fail_codeTable (e : ErrCode) : (s.fail e).codeTable = s.codeTable := rfl
@[simp] theorem State.fail_mem (e : ErrCode) : (s.fail e).mem = s.mem := rfl
@[simp] theorem State.fail_faulted (e : ErrCode) : (s.fail e).faulted = s.faulted := rfl
@[simp] theorem State.fail_params (e : ErrCode) : (s.fail e).params = s.params := rfl
@[simp] theorem State.fail_host (e : ErrCode) : (s.fail e).host = s.host := rfl
@[simp] theorem State.fail_turns (e : ErrCode) : (s.fail e).turns = s.turns := rfl
@[simp] theorem State.fail_responses (e : ErrCode) : (s.fail e).responses = s.responses := rfl
@[simp] theorem State.fail_draws (e : ErrCode) : (s.fail e).draws = s.draws := rfl

/-! ### `State.storeBytes` -/

@[simp] theorem State.storeBytes_engine (a : Nat) (bs : List Byte) : (s.storeBytes a bs).engine = s.engine := rfl
@[simp] theorem State.storeBytes_done (a : Nat) (bs : List Byte) : (s.storeBytes a bs).done = s.done := rfl
@[simp] theorem State.storeBytes_treeValid (a : Nat) (bs : List Byte) :
    (s.storeBytes a bs).treeValid = s.treeValid := rfl
@[simp] theorem State.storeBytes_delimFound (a : Nat) (bs : List Byte) :
    (s.storeBytes a bs).delimFound = s.delimFound := rfl
@[simp] theorem State.storeBytes_cmdOvr (a : Nat) (bs : List Byte) : (s.storeBytes a bs).cmdOvr = s.cmdOvr := rfl
@[simp] theorem State.storeBytes_err (a : Nat) (bs : List Byte) : (s.storeBytes a bs).err = s.err := rfl
@[simp] theorem State.storeBytes_lastOp (a : Nat) (bs : List Byte) : (s.storeBytes a bs).lastOp = s.lastOp := rfl
@[simp] theorem State.storeBytes_msgLen (a : Nat) (bs : List Byte) : (s.storeBytes a bs).msgLen = s.msgLen := rfl
@[simp] theorem State.storeBytes_bitLen (a : Nat) (bs : List Byte) : (s.storeBytes a bs).bitLen = s.bitLen := rfl
@[simp] theorem State.storeBytes_imgH (a : Nat) (bs : List Byte) : (s.storeBytes a bs).imgH = s.imgH := rfl
@[simp] theorem State.storeBytes_imgW (a : Nat) (bs : List Byte) : (s.storeBytes a bs).imgW = s.imgW := rfl
@[simp] theorem State.storeBytes_capAvail (a : Nat) (bs : List Byte) :
    (s.storeBytes a bs).capAvail = s.capAvail := rfl
@[simp] theorem State.storeBytes_nsym (a : Nat) (bs : List Byte) : (s.storeBytes a bs).nsym = s.nsym := rfl
@[simp] theorem State.storeBytes_outLen (a : Nat) (bs : List Byte) : (s.storeBytes a bs).outLen = s.outLen := rfl
@[simp] theorem State.storeBytes_decBits (a : Nat) (bs : List Byte) : (s.storeBytes a bs).decBits = s.decBits := rfl
@[simp] theorem State.storeBytes_maxCodeLen (a : Nat) (bs : List Byte) :
    (s.storeBytes a bs).maxCodeLen = s.maxCodeLen := rfl
@[simp] theorem State.storeBytes_codeTable (a : Nat) (bs : List Byte) :
    (s.storeBytes a bs).codeTable = s.codeTable := rfl
@[simp] theorem State.storeBytes_mem (a : Nat) (bs : List Byte) :
    (s.storeBytes a bs).mem = s.mem.writeBlock a bs := rfl
@[simp] theorem State.storeBytes_faulted (a : Nat) (bs : List Byte) : (s.storeBytes a bs).faulted = s.faulted := rfl
@[simp] theorem State.storeBytes_params (a : Nat) (bs : List Byte) : (s.storeBytes a bs).params = s.params := rfl
@[simp] theorem State.storeBytes_host (a : Nat) (bs : List Byte) : (s.storeBytes a bs).host = s.host := rfl
@[simp] theorem State.storeBytes_turns (a : Nat) (bs : List Byte) : (s.storeBytes a bs).turns = s.turns := rfl
@[simp] theorem State.storeBytes_responses (a : Nat) (bs : List Byte) :
    (s.storeBytes a bs).responses = s.responses := rfl
@[simp] theorem State.storeBytes_draws (a : Nat) (bs : List Byte) : (s.storeBytes a bs).draws = s.draws := rfl

/-! ### `State.storeAt` -/

@[simp] theorem State.storeAt_engine (w : Window) (bs : List Byte) : (s.storeAt w bs).engine = s.engine := rfl
@[simp] theorem State.storeAt_done (w : Window) (bs : List Byte) : (s.storeAt w bs).done = s.done := rfl
@[simp] theorem State.storeAt_treeValid (w : Window) (bs : List Byte) :
    (s.storeAt w bs).treeValid = s.treeValid := rfl
@[simp] theorem State.storeAt_delimFound (w : Window) (bs : List Byte) :
    (s.storeAt w bs).delimFound = s.delimFound := rfl
@[simp] theorem State.storeAt_cmdOvr (w : Window) (bs : List Byte) : (s.storeAt w bs).cmdOvr = s.cmdOvr := rfl
@[simp] theorem State.storeAt_err (w : Window) (bs : List Byte) : (s.storeAt w bs).err = s.err := rfl
@[simp] theorem State.storeAt_lastOp (w : Window) (bs : List Byte) : (s.storeAt w bs).lastOp = s.lastOp := rfl
@[simp] theorem State.storeAt_msgLen (w : Window) (bs : List Byte) : (s.storeAt w bs).msgLen = s.msgLen := rfl
@[simp] theorem State.storeAt_bitLen (w : Window) (bs : List Byte) : (s.storeAt w bs).bitLen = s.bitLen := rfl
@[simp] theorem State.storeAt_imgH (w : Window) (bs : List Byte) : (s.storeAt w bs).imgH = s.imgH := rfl
@[simp] theorem State.storeAt_imgW (w : Window) (bs : List Byte) : (s.storeAt w bs).imgW = s.imgW := rfl
@[simp] theorem State.storeAt_capAvail (w : Window) (bs : List Byte) : (s.storeAt w bs).capAvail = s.capAvail := rfl
@[simp] theorem State.storeAt_nsym (w : Window) (bs : List Byte) : (s.storeAt w bs).nsym = s.nsym := rfl
@[simp] theorem State.storeAt_outLen (w : Window) (bs : List Byte) : (s.storeAt w bs).outLen = s.outLen := rfl
@[simp] theorem State.storeAt_decBits (w : Window) (bs : List Byte) : (s.storeAt w bs).decBits = s.decBits := rfl
@[simp] theorem State.storeAt_maxCodeLen (w : Window) (bs : List Byte) :
    (s.storeAt w bs).maxCodeLen = s.maxCodeLen := rfl
@[simp] theorem State.storeAt_codeTable (w : Window) (bs : List Byte) :
    (s.storeAt w bs).codeTable = s.codeTable := rfl
@[simp] theorem State.storeAt_mem (w : Window) (bs : List Byte) :
    (s.storeAt w bs).mem = s.mem.writeBlock w.base bs := rfl
@[simp] theorem State.storeAt_faulted (w : Window) (bs : List Byte) : (s.storeAt w bs).faulted = s.faulted := rfl
@[simp] theorem State.storeAt_params (w : Window) (bs : List Byte) : (s.storeAt w bs).params = s.params := rfl
@[simp] theorem State.storeAt_host (w : Window) (bs : List Byte) : (s.storeAt w bs).host = s.host := rfl
@[simp] theorem State.storeAt_turns (w : Window) (bs : List Byte) : (s.storeAt w bs).turns = s.turns := rfl
@[simp] theorem State.storeAt_responses (w : Window) (bs : List Byte) :
    (s.storeAt w bs).responses = s.responses := rfl
@[simp] theorem State.storeAt_draws (w : Window) (bs : List Byte) : (s.storeAt w bs).draws = s.draws := rfl

/-! ### `State.storeFreqMap` -/

@[simp] theorem State.storeFreqMap_engine (fm : List (Byte × Nat)) : (s.storeFreqMap fm).engine = s.engine := rfl
@[simp] theorem State.storeFreqMap_done (fm : List (Byte × Nat)) : (s.storeFreqMap fm).done = s.done := rfl
@[simp] theorem State.storeFreqMap_treeValid (fm : List (Byte × Nat)) :
    (s.storeFreqMap fm).treeValid = s.treeValid := rfl
@[simp] theorem State.storeFreqMap_delimFound (fm : List (Byte × Nat)) :
    (s.storeFreqMap fm).delimFound = s.delimFound := rfl
@[simp] theorem State.storeFreqMap_cmdOvr (fm : List (Byte × Nat)) : (s.storeFreqMap fm).cmdOvr = s.cmdOvr := rfl
@[simp] theorem State.storeFreqMap_err (fm : List (Byte × Nat)) : (s.storeFreqMap fm).err = s.err := rfl
@[simp] theorem State.storeFreqMap_lastOp (fm : List (Byte × Nat)) : (s.storeFreqMap fm).lastOp = s.lastOp := rfl
@[simp] theorem State.storeFreqMap_msgLen (fm : List (Byte × Nat)) : (s.storeFreqMap fm).msgLen = s.msgLen := rfl
@[simp] theorem State.storeFreqMap_bitLen (fm : List (Byte × Nat)) : (s.storeFreqMap fm).bitLen = s.bitLen := rfl
@[simp] theorem State.storeFreqMap_imgH (fm : List (Byte × Nat)) : (s.storeFreqMap fm).imgH = s.imgH := rfl
@[simp] theorem State.storeFreqMap_imgW (fm : List (Byte × Nat)) : (s.storeFreqMap fm).imgW = s.imgW := rfl
@[simp] theorem State.storeFreqMap_capAvail (fm : List (Byte × Nat)) :
    (s.storeFreqMap fm).capAvail = s.capAvail := rfl
@[simp] theorem State.storeFreqMap_nsym (fm : List (Byte × Nat)) :
    (s.storeFreqMap fm).nsym = BitVec.ofNat 9 fm.length := rfl
@[simp] theorem State.storeFreqMap_outLen (fm : List (Byte × Nat)) : (s.storeFreqMap fm).outLen = s.outLen := rfl
@[simp] theorem State.storeFreqMap_decBits (fm : List (Byte × Nat)) : (s.storeFreqMap fm).decBits = s.decBits := rfl
@[simp] theorem State.storeFreqMap_maxCodeLen (fm : List (Byte × Nat)) :
    (s.storeFreqMap fm).maxCodeLen = s.maxCodeLen := rfl
@[simp] theorem State.storeFreqMap_codeTable (fm : List (Byte × Nat)) :
    (s.storeFreqMap fm).codeTable = s.codeTable := rfl
@[simp] theorem State.storeFreqMap_mem (fm : List (Byte × Nat)) :
    (s.storeFreqMap fm).mem = (s.mem.writeBlock (Window.base .FMAP_SYM) (fm.map (·.1))).writeBlock (Window.base .FMAP_CNT)
      (fm.flatMap fun e => leBytes 4 e.2) := rfl
@[simp] theorem State.storeFreqMap_faulted (fm : List (Byte × Nat)) : (s.storeFreqMap fm).faulted = s.faulted := rfl
@[simp] theorem State.storeFreqMap_params (fm : List (Byte × Nat)) : (s.storeFreqMap fm).params = s.params := rfl
@[simp] theorem State.storeFreqMap_host (fm : List (Byte × Nat)) : (s.storeFreqMap fm).host = s.host := rfl
@[simp] theorem State.storeFreqMap_turns (fm : List (Byte × Nat)) : (s.storeFreqMap fm).turns = s.turns := rfl
@[simp] theorem State.storeFreqMap_responses (fm : List (Byte × Nat)) :
    (s.storeFreqMap fm).responses = s.responses := rfl
@[simp] theorem State.storeFreqMap_draws (fm : List (Byte × Nat)) : (s.storeFreqMap fm).draws = s.draws := rfl

/-! ### `State.loadTable` -/

@[simp] theorem State.loadTable_engine (t : CodeTable) : (s.loadTable t).engine = s.engine := rfl
@[simp] theorem State.loadTable_done (t : CodeTable) : (s.loadTable t).done = s.done := rfl
@[simp] theorem State.loadTable_treeValid (t : CodeTable) : (s.loadTable t).treeValid = true := rfl
@[simp] theorem State.loadTable_delimFound (t : CodeTable) : (s.loadTable t).delimFound = s.delimFound := rfl
@[simp] theorem State.loadTable_cmdOvr (t : CodeTable) : (s.loadTable t).cmdOvr = s.cmdOvr := rfl
@[simp] theorem State.loadTable_err (t : CodeTable) : (s.loadTable t).err = s.err := rfl
@[simp] theorem State.loadTable_lastOp (t : CodeTable) : (s.loadTable t).lastOp = s.lastOp := rfl
@[simp] theorem State.loadTable_msgLen (t : CodeTable) : (s.loadTable t).msgLen = s.msgLen := rfl
@[simp] theorem State.loadTable_bitLen (t : CodeTable) : (s.loadTable t).bitLen = s.bitLen := rfl
@[simp] theorem State.loadTable_imgH (t : CodeTable) : (s.loadTable t).imgH = s.imgH := rfl
@[simp] theorem State.loadTable_imgW (t : CodeTable) : (s.loadTable t).imgW = s.imgW := rfl
@[simp] theorem State.loadTable_capAvail (t : CodeTable) : (s.loadTable t).capAvail = s.capAvail := rfl
@[simp] theorem State.loadTable_nsym (t : CodeTable) : (s.loadTable t).nsym = s.nsym := rfl
@[simp] theorem State.loadTable_outLen (t : CodeTable) : (s.loadTable t).outLen = s.outLen := rfl
@[simp] theorem State.loadTable_decBits (t : CodeTable) : (s.loadTable t).decBits = s.decBits := rfl
@[simp] theorem State.loadTable_maxCodeLen (t : CodeTable) :
    (s.loadTable t).maxCodeLen = BitVec.ofNat 8 (maxLen t) := rfl
@[simp] theorem State.loadTable_codeTable (t : CodeTable) : (s.loadTable t).codeTable = some t := rfl
@[simp] theorem State.loadTable_mem (t : CodeTable) : (s.loadTable t).mem = s.mem := rfl
@[simp] theorem State.loadTable_faulted (t : CodeTable) : (s.loadTable t).faulted = s.faulted := rfl
@[simp] theorem State.loadTable_params (t : CodeTable) : (s.loadTable t).params = s.params := rfl
@[simp] theorem State.loadTable_host (t : CodeTable) : (s.loadTable t).host = s.host := rfl
@[simp] theorem State.loadTable_turns (t : CodeTable) : (s.loadTable t).turns = s.turns := rfl
@[simp] theorem State.loadTable_responses (t : CodeTable) : (s.loadTable t).responses = s.responses := rfl
@[simp] theorem State.loadTable_draws (t : CodeTable) : (s.loadTable t).draws = s.draws := rfl

/-! ### `State.storeBits` -/

@[simp] theorem State.storeBits_engine (bs : Bitstring) : (s.storeBits bs).engine = s.engine := rfl
@[simp] theorem State.storeBits_done (bs : Bitstring) : (s.storeBits bs).done = s.done := rfl
@[simp] theorem State.storeBits_treeValid (bs : Bitstring) : (s.storeBits bs).treeValid = s.treeValid := rfl
@[simp] theorem State.storeBits_delimFound (bs : Bitstring) : (s.storeBits bs).delimFound = s.delimFound := rfl
@[simp] theorem State.storeBits_cmdOvr (bs : Bitstring) : (s.storeBits bs).cmdOvr = s.cmdOvr := rfl
@[simp] theorem State.storeBits_err (bs : Bitstring) : (s.storeBits bs).err = s.err := rfl
@[simp] theorem State.storeBits_lastOp (bs : Bitstring) : (s.storeBits bs).lastOp = s.lastOp := rfl
@[simp] theorem State.storeBits_msgLen (bs : Bitstring) : (s.storeBits bs).msgLen = s.msgLen := rfl
@[simp] theorem State.storeBits_bitLen (bs : Bitstring) : (s.storeBits bs).bitLen = BitVec.ofNat 32 bs.length := rfl
@[simp] theorem State.storeBits_imgH (bs : Bitstring) : (s.storeBits bs).imgH = s.imgH := rfl
@[simp] theorem State.storeBits_imgW (bs : Bitstring) : (s.storeBits bs).imgW = s.imgW := rfl
@[simp] theorem State.storeBits_capAvail (bs : Bitstring) : (s.storeBits bs).capAvail = s.capAvail := rfl
@[simp] theorem State.storeBits_nsym (bs : Bitstring) : (s.storeBits bs).nsym = s.nsym := rfl
@[simp] theorem State.storeBits_outLen (bs : Bitstring) : (s.storeBits bs).outLen = s.outLen := rfl
@[simp] theorem State.storeBits_decBits (bs : Bitstring) : (s.storeBits bs).decBits = s.decBits := rfl
@[simp] theorem State.storeBits_maxCodeLen (bs : Bitstring) : (s.storeBits bs).maxCodeLen = s.maxCodeLen := rfl
@[simp] theorem State.storeBits_codeTable (bs : Bitstring) : (s.storeBits bs).codeTable = s.codeTable := rfl
@[simp] theorem State.storeBits_mem (bs : Bitstring) :
    (s.storeBits bs).mem = s.mem.writeBlock (Window.base .BITBUF) (packBits bs) := rfl
@[simp] theorem State.storeBits_faulted (bs : Bitstring) : (s.storeBits bs).faulted = s.faulted := rfl
@[simp] theorem State.storeBits_params (bs : Bitstring) : (s.storeBits bs).params = s.params := rfl
@[simp] theorem State.storeBits_host (bs : Bitstring) : (s.storeBits bs).host = s.host := rfl
@[simp] theorem State.storeBits_turns (bs : Bitstring) : (s.storeBits bs).turns = s.turns := rfl
@[simp] theorem State.storeBits_responses (bs : Bitstring) : (s.storeBits bs).responses = s.responses := rfl
@[simp] theorem State.storeBits_draws (bs : Bitstring) : (s.storeBits bs).draws = s.draws := rfl

/-! ### `State.storeDecoded` -/

@[simp] theorem State.storeDecoded_engine (out : List Byte) (n : Nat) (b : Bool) :
    (s.storeDecoded out n b).engine = s.engine := rfl
@[simp] theorem State.storeDecoded_done (out : List Byte) (n : Nat) (b : Bool) :
    (s.storeDecoded out n b).done = s.done := rfl
@[simp] theorem State.storeDecoded_treeValid (out : List Byte) (n : Nat) (b : Bool) :
    (s.storeDecoded out n b).treeValid = s.treeValid := rfl
@[simp] theorem State.storeDecoded_delimFound (out : List Byte) (n : Nat) (b : Bool) :
    (s.storeDecoded out n b).delimFound = b := rfl
@[simp] theorem State.storeDecoded_cmdOvr (out : List Byte) (n : Nat) (b : Bool) :
    (s.storeDecoded out n b).cmdOvr = s.cmdOvr := rfl
@[simp] theorem State.storeDecoded_err (out : List Byte) (n : Nat) (b : Bool) :
    (s.storeDecoded out n b).err = s.err := rfl
@[simp] theorem State.storeDecoded_lastOp (out : List Byte) (n : Nat) (b : Bool) :
    (s.storeDecoded out n b).lastOp = s.lastOp := rfl
@[simp] theorem State.storeDecoded_msgLen (out : List Byte) (n : Nat) (b : Bool) :
    (s.storeDecoded out n b).msgLen = s.msgLen := rfl
@[simp] theorem State.storeDecoded_bitLen (out : List Byte) (n : Nat) (b : Bool) :
    (s.storeDecoded out n b).bitLen = s.bitLen := rfl
@[simp] theorem State.storeDecoded_imgH (out : List Byte) (n : Nat) (b : Bool) :
    (s.storeDecoded out n b).imgH = s.imgH := rfl
@[simp] theorem State.storeDecoded_imgW (out : List Byte) (n : Nat) (b : Bool) :
    (s.storeDecoded out n b).imgW = s.imgW := rfl
@[simp] theorem State.storeDecoded_capAvail (out : List Byte) (n : Nat) (b : Bool) :
    (s.storeDecoded out n b).capAvail = s.capAvail := rfl
@[simp] theorem State.storeDecoded_nsym (out : List Byte) (n : Nat) (b : Bool) :
    (s.storeDecoded out n b).nsym = s.nsym := rfl
@[simp] theorem State.storeDecoded_outLen (out : List Byte) (n : Nat) (b : Bool) :
    (s.storeDecoded out n b).outLen = BitVec.ofNat 32 out.length := rfl
@[simp] theorem State.storeDecoded_decBits (out : List Byte) (n : Nat) (b : Bool) :
    (s.storeDecoded out n b).decBits = BitVec.ofNat 32 n := rfl
@[simp] theorem State.storeDecoded_maxCodeLen (out : List Byte) (n : Nat) (b : Bool) :
    (s.storeDecoded out n b).maxCodeLen = s.maxCodeLen := rfl
@[simp] theorem State.storeDecoded_codeTable (out : List Byte) (n : Nat) (b : Bool) :
    (s.storeDecoded out n b).codeTable = s.codeTable := rfl
@[simp] theorem State.storeDecoded_mem (out : List Byte) (n : Nat) (b : Bool) :
    (s.storeDecoded out n b).mem = s.mem.writeBlock (Window.base .OUTBUF) out := rfl
@[simp] theorem State.storeDecoded_faulted (out : List Byte) (n : Nat) (b : Bool) :
    (s.storeDecoded out n b).faulted = s.faulted := rfl
@[simp] theorem State.storeDecoded_params (out : List Byte) (n : Nat) (b : Bool) :
    (s.storeDecoded out n b).params = s.params := rfl
@[simp] theorem State.storeDecoded_host (out : List Byte) (n : Nat) (b : Bool) :
    (s.storeDecoded out n b).host = s.host := rfl
@[simp] theorem State.storeDecoded_turns (out : List Byte) (n : Nat) (b : Bool) :
    (s.storeDecoded out n b).turns = s.turns := rfl
@[simp] theorem State.storeDecoded_responses (out : List Byte) (n : Nat) (b : Bool) :
    (s.storeDecoded out n b).responses = s.responses := rfl
@[simp] theorem State.storeDecoded_draws (out : List Byte) (n : Nat) (b : Bool) :
    (s.storeDecoded out n b).draws = s.draws := rfl

/-! ### `State.drawn` -/

@[simp] theorem State.drawn_engine (n : Nat) : (s.drawn n).engine = s.engine := rfl
@[simp] theorem State.drawn_done (n : Nat) : (s.drawn n).done = s.done := rfl
@[simp] theorem State.drawn_treeValid (n : Nat) : (s.drawn n).treeValid = s.treeValid := rfl
@[simp] theorem State.drawn_delimFound (n : Nat) : (s.drawn n).delimFound = s.delimFound := rfl
@[simp] theorem State.drawn_cmdOvr (n : Nat) : (s.drawn n).cmdOvr = s.cmdOvr := rfl
@[simp] theorem State.drawn_err (n : Nat) : (s.drawn n).err = s.err := rfl
@[simp] theorem State.drawn_lastOp (n : Nat) : (s.drawn n).lastOp = s.lastOp := rfl
@[simp] theorem State.drawn_msgLen (n : Nat) : (s.drawn n).msgLen = s.msgLen := rfl
@[simp] theorem State.drawn_bitLen (n : Nat) : (s.drawn n).bitLen = s.bitLen := rfl
@[simp] theorem State.drawn_imgH (n : Nat) : (s.drawn n).imgH = s.imgH := rfl
@[simp] theorem State.drawn_imgW (n : Nat) : (s.drawn n).imgW = s.imgW := rfl
@[simp] theorem State.drawn_capAvail (n : Nat) : (s.drawn n).capAvail = s.capAvail := rfl
@[simp] theorem State.drawn_nsym (n : Nat) : (s.drawn n).nsym = s.nsym := rfl
@[simp] theorem State.drawn_outLen (n : Nat) : (s.drawn n).outLen = s.outLen := rfl
@[simp] theorem State.drawn_decBits (n : Nat) : (s.drawn n).decBits = s.decBits := rfl
@[simp] theorem State.drawn_maxCodeLen (n : Nat) : (s.drawn n).maxCodeLen = s.maxCodeLen := rfl
@[simp] theorem State.drawn_codeTable (n : Nat) : (s.drawn n).codeTable = s.codeTable := rfl
@[simp] theorem State.drawn_mem (n : Nat) : (s.drawn n).mem = s.mem := rfl
@[simp] theorem State.drawn_faulted (n : Nat) : (s.drawn n).faulted = s.faulted := rfl
@[simp] theorem State.drawn_params (n : Nat) : (s.drawn n).params = s.params := rfl
@[simp] theorem State.drawn_host (n : Nat) : (s.drawn n).host = s.host := rfl
@[simp] theorem State.drawn_turns (n : Nat) : (s.drawn n).turns = s.turns := rfl
@[simp] theorem State.drawn_responses (n : Nat) : (s.drawn n).responses = s.responses := rfl
@[simp] theorem State.drawn_draws (n : Nat) : (s.drawn n).draws = s.draws + n := rfl

/-! ### `State.spoilOutbuf` -/

@[simp] theorem State.spoilOutbuf_engine : s.spoilOutbuf.engine = s.engine := rfl
@[simp] theorem State.spoilOutbuf_done : s.spoilOutbuf.done = s.done := rfl
@[simp] theorem State.spoilOutbuf_treeValid : s.spoilOutbuf.treeValid = s.treeValid := rfl
@[simp] theorem State.spoilOutbuf_delimFound : s.spoilOutbuf.delimFound = s.delimFound := rfl
@[simp] theorem State.spoilOutbuf_cmdOvr : s.spoilOutbuf.cmdOvr = s.cmdOvr := rfl
@[simp] theorem State.spoilOutbuf_err : s.spoilOutbuf.err = s.err := rfl
@[simp] theorem State.spoilOutbuf_lastOp : s.spoilOutbuf.lastOp = s.lastOp := rfl
@[simp] theorem State.spoilOutbuf_msgLen : s.spoilOutbuf.msgLen = s.msgLen := rfl
@[simp] theorem State.spoilOutbuf_bitLen : s.spoilOutbuf.bitLen = s.bitLen := rfl
@[simp] theorem State.spoilOutbuf_imgH : s.spoilOutbuf.imgH = s.imgH := rfl
@[simp] theorem State.spoilOutbuf_imgW : s.spoilOutbuf.imgW = s.imgW := rfl
@[simp] theorem State.spoilOutbuf_capAvail : s.spoilOutbuf.capAvail = s.capAvail := rfl
@[simp] theorem State.spoilOutbuf_nsym : s.spoilOutbuf.nsym = s.nsym := rfl
@[simp] theorem State.spoilOutbuf_outLen : s.spoilOutbuf.outLen = s.outLen := rfl
@[simp] theorem State.spoilOutbuf_decBits : s.spoilOutbuf.decBits = s.decBits := rfl
@[simp] theorem State.spoilOutbuf_maxCodeLen : s.spoilOutbuf.maxCodeLen = s.maxCodeLen := rfl
@[simp] theorem State.spoilOutbuf_codeTable : s.spoilOutbuf.codeTable = s.codeTable := rfl
@[simp] theorem State.spoilOutbuf_mem :
    s.spoilOutbuf.mem = s.mem.writeBlock (Window.base .OUTBUF) (s.freeBytes s.params.outMax) := rfl
@[simp] theorem State.spoilOutbuf_faulted : s.spoilOutbuf.faulted = s.faulted := rfl
@[simp] theorem State.spoilOutbuf_params : s.spoilOutbuf.params = s.params := rfl
@[simp] theorem State.spoilOutbuf_host : s.spoilOutbuf.host = s.host := rfl
@[simp] theorem State.spoilOutbuf_turns : s.spoilOutbuf.turns = s.turns := rfl
@[simp] theorem State.spoilOutbuf_responses : s.spoilOutbuf.responses = s.responses := rfl
@[simp] theorem State.spoilOutbuf_draws : s.spoilOutbuf.draws = s.draws + s.params.outMax := rfl

/-! ### `State.setCapAvail` -/

@[simp] theorem State.setCapAvail_engine : s.setCapAvail.engine = s.engine := rfl
@[simp] theorem State.setCapAvail_done : s.setCapAvail.done = s.done := rfl
@[simp] theorem State.setCapAvail_treeValid : s.setCapAvail.treeValid = s.treeValid := rfl
@[simp] theorem State.setCapAvail_delimFound : s.setCapAvail.delimFound = s.delimFound := rfl
@[simp] theorem State.setCapAvail_cmdOvr : s.setCapAvail.cmdOvr = s.cmdOvr := rfl
@[simp] theorem State.setCapAvail_err : s.setCapAvail.err = s.err := rfl
@[simp] theorem State.setCapAvail_lastOp : s.setCapAvail.lastOp = s.lastOp := rfl
@[simp] theorem State.setCapAvail_msgLen : s.setCapAvail.msgLen = s.msgLen := rfl
@[simp] theorem State.setCapAvail_bitLen : s.setCapAvail.bitLen = s.bitLen := rfl
@[simp] theorem State.setCapAvail_imgH : s.setCapAvail.imgH = s.imgH := rfl
@[simp] theorem State.setCapAvail_imgW : s.setCapAvail.imgW = s.imgW := rfl
@[simp] theorem State.setCapAvail_capAvail : s.setCapAvail.capAvail = BitVec.ofNat 32 s.capacity := rfl
@[simp] theorem State.setCapAvail_nsym : s.setCapAvail.nsym = s.nsym := rfl
@[simp] theorem State.setCapAvail_outLen : s.setCapAvail.outLen = s.outLen := rfl
@[simp] theorem State.setCapAvail_decBits : s.setCapAvail.decBits = s.decBits := rfl
@[simp] theorem State.setCapAvail_maxCodeLen : s.setCapAvail.maxCodeLen = s.maxCodeLen := rfl
@[simp] theorem State.setCapAvail_codeTable : s.setCapAvail.codeTable = s.codeTable := rfl
@[simp] theorem State.setCapAvail_mem : s.setCapAvail.mem = s.mem := rfl
@[simp] theorem State.setCapAvail_faulted : s.setCapAvail.faulted = s.faulted := rfl
@[simp] theorem State.setCapAvail_params : s.setCapAvail.params = s.params := rfl
@[simp] theorem State.setCapAvail_host : s.setCapAvail.host = s.host := rfl
@[simp] theorem State.setCapAvail_turns : s.setCapAvail.turns = s.turns := rfl
@[simp] theorem State.setCapAvail_responses : s.setCapAvail.responses = s.responses := rfl
@[simp] theorem State.setCapAvail_draws : s.setCapAvail.draws = s.draws := rfl

/-! ### `State.clearRegs` -/

@[simp] theorem State.clearRegs_engine : s.clearRegs.engine = s.engine := rfl
@[simp] theorem State.clearRegs_done : s.clearRegs.done = s.done := rfl
@[simp] theorem State.clearRegs_treeValid : s.clearRegs.treeValid = false := rfl
@[simp] theorem State.clearRegs_delimFound : s.clearRegs.delimFound = false := rfl
@[simp] theorem State.clearRegs_cmdOvr : s.clearRegs.cmdOvr = false := rfl
@[simp] theorem State.clearRegs_err : s.clearRegs.err = s.err := rfl
@[simp] theorem State.clearRegs_lastOp : s.clearRegs.lastOp = s.lastOp := rfl
@[simp] theorem State.clearRegs_msgLen : s.clearRegs.msgLen = 0 := rfl
@[simp] theorem State.clearRegs_bitLen : s.clearRegs.bitLen = 0 := rfl
@[simp] theorem State.clearRegs_imgH : s.clearRegs.imgH = 0 := rfl
@[simp] theorem State.clearRegs_imgW : s.clearRegs.imgW = 0 := rfl
@[simp] theorem State.clearRegs_capAvail : s.clearRegs.capAvail = 0 := rfl
@[simp] theorem State.clearRegs_nsym : s.clearRegs.nsym = 0 := rfl
@[simp] theorem State.clearRegs_outLen : s.clearRegs.outLen = 0 := rfl
@[simp] theorem State.clearRegs_decBits : s.clearRegs.decBits = 0 := rfl
@[simp] theorem State.clearRegs_maxCodeLen : s.clearRegs.maxCodeLen = 0 := rfl
@[simp] theorem State.clearRegs_codeTable : s.clearRegs.codeTable = s.codeTable := rfl
@[simp] theorem State.clearRegs_mem : s.clearRegs.mem = s.mem := rfl
@[simp] theorem State.clearRegs_faulted : s.clearRegs.faulted = s.faulted := rfl
@[simp] theorem State.clearRegs_params : s.clearRegs.params = s.params := rfl
@[simp] theorem State.clearRegs_host : s.clearRegs.host = s.host := rfl
@[simp] theorem State.clearRegs_turns : s.clearRegs.turns = s.turns := rfl
@[simp] theorem State.clearRegs_responses : s.clearRegs.responses = s.responses := rfl
@[simp] theorem State.clearRegs_draws : s.clearRegs.draws = s.draws := rfl

/-! ### `State.platformReset` -/

@[simp] theorem State.platformReset_engine : s.platformReset.engine = .idle := rfl
@[simp] theorem State.platformReset_done : s.platformReset.done = false := rfl
@[simp] theorem State.platformReset_treeValid : s.platformReset.treeValid = false := rfl
@[simp] theorem State.platformReset_delimFound : s.platformReset.delimFound = false := rfl
@[simp] theorem State.platformReset_cmdOvr : s.platformReset.cmdOvr = false := rfl
@[simp] theorem State.platformReset_err : s.platformReset.err = .none := rfl
@[simp] theorem State.platformReset_lastOp : s.platformReset.lastOp = 0 := rfl
@[simp] theorem State.platformReset_msgLen : s.platformReset.msgLen = 0 := rfl
@[simp] theorem State.platformReset_bitLen : s.platformReset.bitLen = 0 := rfl
@[simp] theorem State.platformReset_imgH : s.platformReset.imgH = 0 := rfl
@[simp] theorem State.platformReset_imgW : s.platformReset.imgW = 0 := rfl
@[simp] theorem State.platformReset_capAvail : s.platformReset.capAvail = 0 := rfl
@[simp] theorem State.platformReset_nsym : s.platformReset.nsym = 0 := rfl
@[simp] theorem State.platformReset_outLen : s.platformReset.outLen = 0 := rfl
@[simp] theorem State.platformReset_decBits : s.platformReset.decBits = 0 := rfl
@[simp] theorem State.platformReset_maxCodeLen : s.platformReset.maxCodeLen = 0 := rfl
@[simp] theorem State.platformReset_codeTable : s.platformReset.codeTable = none := rfl
@[simp] theorem State.platformReset_mem : s.platformReset.mem = [] := rfl
@[simp] theorem State.platformReset_faulted : s.platformReset.faulted = s.faulted := rfl
@[simp] theorem State.platformReset_params : s.platformReset.params = s.params := rfl
@[simp] theorem State.platformReset_host : s.platformReset.host = s.host := rfl
@[simp] theorem State.platformReset_turns : s.platformReset.turns = s.turns := rfl
@[simp] theorem State.platformReset_responses : s.platformReset.responses = s.responses := rfl
@[simp] theorem State.platformReset_draws : s.platformReset.draws = s.draws := rfl

/-! ### `State.respond` -/

@[simp] theorem State.respond_engine (r : Response) : (s.respond r).engine = s.engine := rfl
@[simp] theorem State.respond_done (r : Response) : (s.respond r).done = s.done := rfl
@[simp] theorem State.respond_treeValid (r : Response) : (s.respond r).treeValid = s.treeValid := rfl
@[simp] theorem State.respond_delimFound (r : Response) : (s.respond r).delimFound = s.delimFound := rfl
@[simp] theorem State.respond_cmdOvr (r : Response) : (s.respond r).cmdOvr = s.cmdOvr := rfl
@[simp] theorem State.respond_err (r : Response) : (s.respond r).err = s.err := rfl
@[simp] theorem State.respond_lastOp (r : Response) : (s.respond r).lastOp = s.lastOp := rfl
@[simp] theorem State.respond_msgLen (r : Response) : (s.respond r).msgLen = s.msgLen := rfl
@[simp] theorem State.respond_bitLen (r : Response) : (s.respond r).bitLen = s.bitLen := rfl
@[simp] theorem State.respond_imgH (r : Response) : (s.respond r).imgH = s.imgH := rfl
@[simp] theorem State.respond_imgW (r : Response) : (s.respond r).imgW = s.imgW := rfl
@[simp] theorem State.respond_capAvail (r : Response) : (s.respond r).capAvail = s.capAvail := rfl
@[simp] theorem State.respond_nsym (r : Response) : (s.respond r).nsym = s.nsym := rfl
@[simp] theorem State.respond_outLen (r : Response) : (s.respond r).outLen = s.outLen := rfl
@[simp] theorem State.respond_decBits (r : Response) : (s.respond r).decBits = s.decBits := rfl
@[simp] theorem State.respond_maxCodeLen (r : Response) : (s.respond r).maxCodeLen = s.maxCodeLen := rfl
@[simp] theorem State.respond_codeTable (r : Response) : (s.respond r).codeTable = s.codeTable := rfl
@[simp] theorem State.respond_mem (r : Response) : (s.respond r).mem = s.mem := rfl
@[simp] theorem State.respond_faulted (r : Response) : (s.respond r).faulted = s.faulted := rfl
@[simp] theorem State.respond_params (r : Response) : (s.respond r).params = s.params := rfl
@[simp] theorem State.respond_host (r : Response) : (s.respond r).host = s.host := rfl
@[simp] theorem State.respond_turns (r : Response) : (s.respond r).turns = s.turns := rfl
@[simp] theorem State.respond_responses (r : Response) : (s.respond r).responses = s.responses ++ [r] := rfl
@[simp] theorem State.respond_draws (r : Response) : (s.respond r).draws = s.draws := rfl

/-! ### `State.withHost` -/

@[simp] theorem State.withHost_engine (l : List HostOp) : (s.withHost l).engine = s.engine := rfl
@[simp] theorem State.withHost_done (l : List HostOp) : (s.withHost l).done = s.done := rfl
@[simp] theorem State.withHost_treeValid (l : List HostOp) : (s.withHost l).treeValid = s.treeValid := rfl
@[simp] theorem State.withHost_delimFound (l : List HostOp) : (s.withHost l).delimFound = s.delimFound := rfl
@[simp] theorem State.withHost_cmdOvr (l : List HostOp) : (s.withHost l).cmdOvr = s.cmdOvr := rfl
@[simp] theorem State.withHost_err (l : List HostOp) : (s.withHost l).err = s.err := rfl
@[simp] theorem State.withHost_lastOp (l : List HostOp) : (s.withHost l).lastOp = s.lastOp := rfl
@[simp] theorem State.withHost_msgLen (l : List HostOp) : (s.withHost l).msgLen = s.msgLen := rfl
@[simp] theorem State.withHost_bitLen (l : List HostOp) : (s.withHost l).bitLen = s.bitLen := rfl
@[simp] theorem State.withHost_imgH (l : List HostOp) : (s.withHost l).imgH = s.imgH := rfl
@[simp] theorem State.withHost_imgW (l : List HostOp) : (s.withHost l).imgW = s.imgW := rfl
@[simp] theorem State.withHost_capAvail (l : List HostOp) : (s.withHost l).capAvail = s.capAvail := rfl
@[simp] theorem State.withHost_nsym (l : List HostOp) : (s.withHost l).nsym = s.nsym := rfl
@[simp] theorem State.withHost_outLen (l : List HostOp) : (s.withHost l).outLen = s.outLen := rfl
@[simp] theorem State.withHost_decBits (l : List HostOp) : (s.withHost l).decBits = s.decBits := rfl
@[simp] theorem State.withHost_maxCodeLen (l : List HostOp) : (s.withHost l).maxCodeLen = s.maxCodeLen := rfl
@[simp] theorem State.withHost_codeTable (l : List HostOp) : (s.withHost l).codeTable = s.codeTable := rfl
@[simp] theorem State.withHost_mem (l : List HostOp) : (s.withHost l).mem = s.mem := rfl
@[simp] theorem State.withHost_faulted (l : List HostOp) : (s.withHost l).faulted = s.faulted := rfl
@[simp] theorem State.withHost_params (l : List HostOp) : (s.withHost l).params = s.params := rfl
@[simp] theorem State.withHost_host (l : List HostOp) : (s.withHost l).host = l := rfl
@[simp] theorem State.withHost_turns (l : List HostOp) : (s.withHost l).turns = s.turns := rfl
@[simp] theorem State.withHost_responses (l : List HostOp) : (s.withHost l).responses = s.responses := rfl
@[simp] theorem State.withHost_draws (l : List HostOp) : (s.withHost l).draws = s.draws := rfl

/-! ### `State.passTurn` -/

@[simp] theorem State.passTurn_engine : s.passTurn.engine = s.engine := rfl
@[simp] theorem State.passTurn_done : s.passTurn.done = s.done := rfl
@[simp] theorem State.passTurn_treeValid : s.passTurn.treeValid = s.treeValid := rfl
@[simp] theorem State.passTurn_delimFound : s.passTurn.delimFound = s.delimFound := rfl
@[simp] theorem State.passTurn_cmdOvr : s.passTurn.cmdOvr = s.cmdOvr := rfl
@[simp] theorem State.passTurn_err : s.passTurn.err = s.err := rfl
@[simp] theorem State.passTurn_lastOp : s.passTurn.lastOp = s.lastOp := rfl
@[simp] theorem State.passTurn_msgLen : s.passTurn.msgLen = s.msgLen := rfl
@[simp] theorem State.passTurn_bitLen : s.passTurn.bitLen = s.bitLen := rfl
@[simp] theorem State.passTurn_imgH : s.passTurn.imgH = s.imgH := rfl
@[simp] theorem State.passTurn_imgW : s.passTurn.imgW = s.imgW := rfl
@[simp] theorem State.passTurn_capAvail : s.passTurn.capAvail = s.capAvail := rfl
@[simp] theorem State.passTurn_nsym : s.passTurn.nsym = s.nsym := rfl
@[simp] theorem State.passTurn_outLen : s.passTurn.outLen = s.outLen := rfl
@[simp] theorem State.passTurn_decBits : s.passTurn.decBits = s.decBits := rfl
@[simp] theorem State.passTurn_maxCodeLen : s.passTurn.maxCodeLen = s.maxCodeLen := rfl
@[simp] theorem State.passTurn_codeTable : s.passTurn.codeTable = s.codeTable := rfl
@[simp] theorem State.passTurn_mem : s.passTurn.mem = s.mem := rfl
@[simp] theorem State.passTurn_faulted : s.passTurn.faulted = s.faulted := rfl
@[simp] theorem State.passTurn_params : s.passTurn.params = s.params := rfl
@[simp] theorem State.passTurn_host : s.passTurn.host = s.host := rfl
@[simp] theorem State.passTurn_turns : s.passTurn.turns = s.turns.tail := rfl
@[simp] theorem State.passTurn_responses : s.passTurn.responses = s.responses := rfl
@[simp] theorem State.passTurn_draws : s.passTurn.draws = s.draws := rfl

end Sys2Proof.Machine
end

