-- ==== Sys2Proof/Laws/Access.lean ====
section
/-! SUPPORT. The address map: which window an address is in, and what a byte of a window reads as after a store. -/

namespace Sys2Proof.Machine

open Sys2Proof

/-- The bounds of 00_scope.md R4 and R5, as propositions. -/
theorem params_bounds {p : Config.Params} (h : p.ok = true) :
    1 ≤ p.msgMax ∧ p.msgMax ≤ 65536 ∧ 1 ≤ p.outMax ∧ p.outMax ≤ 851968 ∧ 1 ≤ p.pixMax ∧ p.pixMax ≤ 12582912 ∧
      p.pixMax ≤ p.bitbufBits ∧ p.bitbufBits % 8 = 0 ∧ p.bitbufBits ≤ 25165824 := by
  simpa [Config.Params.ok, and_assoc] using h

/-- A window holds an address when the address lies in its mapped range. -/
abbrev Window.holds (p : Config.Params) (w : Window) (a : Nat) : Prop := w.base ≤ a ∧ a < w.base + w.size p

theorem mem_allWindows (w : Window) : w ∈ allWindows := by cases w <;> decide

/-- The bounds of R4 keep each window inside its own range (20_memory.md R43). -/
theorem windows_disjoint {p : Config.Params} (hp : p.ok = true) {v w : Window} {a : Nat} (hv : v.holds p a)
    (hw : w.holds p a) : v = w := by
  have := params_bounds hp
  cases v <;> cases w <;> simp only [Window.holds, Window.base, Window.size] at hv hw <;> first | rfl | omega

theorem windowAt_holds {p : Config.Params} {a : Nat} {w : Window} (h : windowAt p a = some w) : w.holds p a := by
  have := List.find?_some h
  simpa using this

/-- The window of an address is the one whose range it lies in. -/
theorem windowAt_eq_some_iff {p : Config.Params} (hp : p.ok = true) {a : Nat} {w : Window} :
    windowAt p a = some w ↔ w.holds p a := by
  refine ⟨windowAt_holds, fun h => ?_⟩
  cases hv : windowAt p a with
  | none =>
    have := List.find?_eq_none.1 hv w (mem_allWindows w)
    exact absurd h (by simpa using this)
  | some v => rw [windows_disjoint hp (windowAt_holds hv) h]

theorem windowAt_base_add {p : Config.Params} (hp : p.ok = true) (w : Window) {k : Nat} (hk : k < w.size p) :
    windowAt p (w.base + k) = some w := (windowAt_eq_some_iff hp).2 ⟨by omega, by omega⟩

/-- A window byte reads the same in two states with the same parameters, table and memory byte. -/
theorem byteAt_congr {s t : State} {a : Nat} (hp : t.params = s.params) (hc : t.codeTable = s.codeTable)
    (hm : t.mem.read a = s.mem.read a) : t.byteAt a = s.byteAt a := by
  unfold State.byteAt
  rw [hp, hc, hm]

/-- A byte of a window that the memory stands behind. -/
theorem byteAt_of_memory {s : State} {a : Nat} {w : Window} (h : windowAt s.params a = some w)
    (h1 : w ≠ .CODE_LEN) (h2 : w ≠ .CODE) : s.byteAt a = s.mem.read a := by
  unfold State.byteAt
  rw [h]
  cases w <;> simp_all

/-- The front of a window that the memory stands behind, by its bytes at their host addresses (20_memory.md R43). -/
theorem readBlock_window_eq_some_iff {s : State} (hp : s.params.ok = true) {w : Window} (h1 : w ≠ .CODE_LEN)
    (h2 : w ≠ .CODE) {n : Nat} (hn : n ≤ w.size s.params) {bs : List Byte} :
    s.mem.readBlock w.base n = some bs ↔
      bs.length = n ∧ ∀ k, (h : k < bs.length) → s.byteAt (w.base + k) = some bs[k] := by
  rw [Memory.readBlock_eq_some_iff]
  refine and_congr_right fun hl => forall_congr' fun k => forall_congr' fun hk => ?_
  rw [byteAt_of_memory (windowAt_base_add hp w (by omega)) h1 h2]

/-- Outside the two code windows the code table does not matter. -/
theorem byteAt_congr_off_code {s t : State} {a : Nat} (hp : t.params = s.params)
    (h1 : ¬ (0x021000 ≤ a ∧ a ≤ 0x0210FF)) (h2 : ¬ (0x022000 ≤ a ∧ a ≤ 0x023FFF))
    (hm : t.mem.read a = s.mem.read a) : t.byteAt a = s.byteAt a := by
  cases h : windowAt s.params a with
  | none => simp [State.byteAt, hp, h]
  | some w =>
    have hw := windowAt_holds h
    have c1 : w ≠ .CODE_LEN := by rintro rfl; simp only [Window.holds, Window.base, Window.size] at hw; omega
    have c2 : w ≠ .CODE := by rintro rfl; simp only [Window.holds, Window.base, Window.size] at hw; omega
    rw [byteAt_of_memory h c1 c2, byteAt_of_memory (by rw [hp]; exact h) c1 c2, hm]

/-! ### Bits -/

/-- Bits read the same in two states that agree on the bit buffer's bytes. -/
theorem bit_congr {s t : State} {i : Nat} (h : t.mem.read (0x100000 + i / 8) = s.mem.read (0x100000 + i / 8)) :
    t.bit i = s.bit i := by
  unfold State.bit
  rw [show Window.base .BITBUF = 0x100000 from rfl, h]

/-- After a store of bits, the bits and the zeros up to the next byte boundary (41_huffman.md R80, 42_lsb.md R93). -/
theorem bit_storeBits (s : State) (bs : Bitstring) {i : Nat} (h : i < 8 * ((bs.length + 7) / 8)) :
    (s.storeBits bs).bit i = some (bs.getD i false) := by
  have hl : i / 8 < (packBits bs).length := by rw [packBits_length]; omega
  rw [State.bit, State.storeBits_mem, Memory.read_writeBlock_inside _ _ _ hl, Option.map_some, bit_packBits _ hl]

theorem bits_storeBits (s : State) (bs : Bitstring) : (s.storeBits bs).bits bs.length = some bs := by
  rw [State.bits, State.bitStream, collect_range_eq_some_iff]
  refine ⟨rfl, fun k hk => ?_⟩
  rw [bit_storeBits s bs (by omega)]
  simp [hk]

theorem bits_eq_some_iff {s : State} {n : Nat} {bs : Bitstring} :
    s.bits n = some bs ↔ bs.length = n ∧ ∀ k, (h : k < bs.length) → s.bit k = some bs[k] := collect_range_eq_some_iff

theorem bits_congr {s t : State} {n : Nat} (h : ∀ i < n, t.bit i = s.bit i) : t.bits n = s.bits n :=
  collect_range_congr h

theorem bitStream_congr {s t : State} {n : Nat} (h : ∀ i < n, t.bit i = s.bit i) : t.bitStream n = s.bitStream n :=
  List.map_congr_left fun k hk => h k (List.mem_range.1 hk)

/-- A fully written front of the bit buffer as a stream. -/
theorem bitStream_of_bits {s : State} {n : Nat} {bs : Bitstring} (h : s.bits n = some bs) :
    s.bitStream n = bs.map some := collect_eq_some_iff.1 h

/-! ### The frequency map -/

theorem flatMap_leBytes_length (cs : List Nat) : (cs.flatMap (leBytes 4)).length = 4 * cs.length := by
  induction cs with
  | nil => rfl
  | cons c cs ih => simp [ih, leBytes_length]; omega

/-- Byte `k` of count `i` in a row of counts. -/
theorem getElem?_flatMap_leBytes (cs : List Nat) {i k : Nat} (hk : k < 4) :
    (cs.flatMap (leBytes 4))[4 * i + k]? = cs[i]?.bind fun c => (leBytes 4 c)[k]? := by
  induction cs generalizing i with
  | nil => simp
  | cons c cs ih =>
    rw [List.flatMap_cons, List.getElem?_append, leBytes_length]
    cases i with
    | zero => simp [hk]
    | succ i =>
      rw [if_neg (by omega), show 4 * (i + 1) + k - 4 = 4 * i + k by omega, ih]
      simp

/-- The stored counts read back, each cut to 32 bits. -/
theorem fmapCnts_storeFreqMap (s : State) (fm : List (Byte × Nat)) (h : ∀ e ∈ fm, e.2 < 2 ^ 32) :
    (s.storeFreqMap fm).fmapCnts fm.length = some (fm.map (·.2)) := by
  rw [State.fmapCnts, collect_range_eq_some_iff]
  refine ⟨by simp, fun i hi => ?_⟩
  have hi' : i < fm.length := by simpa using hi
  have hb : fm.flatMap (fun e => leBytes 4 e.2) = (fm.map (·.2)).flatMap (leBytes 4) := by
    rw [List.flatMap_map]
  have hrow : (s.storeFreqMap fm).mem.readBlock (Window.base .FMAP_CNT + 4 * i) 4 = some (leBytes 4 fm[i].2) := by
    rw [Memory.readBlock_eq_some_iff]
    refine ⟨leBytes_length _ _, fun k hk => ?_⟩
    have hk4 : k < 4 := by simpa [leBytes_length] using hk
    rw [State.storeFreqMap_mem, hb, Nat.add_assoc, Memory.read_writeBlock,
      if_pos ⟨by omega, by rw [flatMap_leBytes_length]; simp; omega⟩, Nat.add_sub_cancel_left,
      getElem?_flatMap_leBytes _ hk4]
    simp [hi']
  rw [State.fmapCnt, hrow, Option.map_some, leValue_leBytes]
  have : fm[i].2 < 256 ^ 4 := h fm[i] (List.getElem_mem hi')
  rw [Nat.mod_eq_of_lt this, List.getElem_map]

/-- The stored symbols read back. -/
theorem fmapSyms_storeFreqMap (s : State) (fm : List (Byte × Nat)) (h : fm.length ≤ 256) :
    (s.storeFreqMap fm).fmapSyms fm.length = some (fm.map (·.1)) := by
  rw [State.fmapSyms, Memory.readBlock_eq_some_iff]
  refine ⟨by simp, fun k hk => ?_⟩
  have hk' : k < fm.length := by simpa using hk
  rw [State.storeFreqMap_mem, Memory.read_writeBlock_outside _ _ _ (.inl (by simp only [Window.base]; omega)),
    Memory.read_writeBlock_inside _ _ _ hk]

/-- A store of a frequency map changes no byte outside its entries. -/
theorem storeFreqMap_read_outside (s : State) (fm : List (Byte × Nat)) {a : Nat}
    (h1 : ¬ (0x020000 ≤ a ∧ a < 0x020000 + fm.length)) (h2 : ¬ (0x020400 ≤ a ∧ a < 0x020400 + 4 * fm.length)) :
    (s.storeFreqMap fm).mem.read a = s.mem.read a := by
  have hb : fm.flatMap (fun e => leBytes 4 e.2) = (fm.map (·.2)).flatMap (leBytes 4) := by
    rw [List.flatMap_map]
  rw [State.storeFreqMap_mem, hb, Memory.read_writeBlock_outside, Memory.read_writeBlock_outside]
  · simp only [List.length_map, Window.base]; omega
  · rw [flatMap_leBytes_length]; simp only [List.length_map, Window.base]; omega

/-! ### The shared stores -/

/-- The memory after reset has the canonical form. -/
theorem reset_mem_wf : State.reset.mem.wf := List.Pairwise.nil

/-- Every store of a command or of the host keeps the canonical form of the memory. -/
theorem stores_keep_wf {s : State} (h : s.mem.wf) :
    (∀ a bs, (s.storeBytes a bs).mem.wf) ∧ (∀ w bs, (s.storeAt w bs).mem.wf) ∧ (∀ fm, (s.storeFreqMap fm).mem.wf) ∧
      (∀ bs, (s.storeBits bs).mem.wf) ∧ (∀ out n b, (s.storeDecoded out n b).mem.wf) ∧ s.spoilOutbuf.mem.wf ∧
      s.platformReset.mem.wf :=
  ⟨fun _ _ => Memory.wf_writeBlock h _ _, fun _ _ => Memory.wf_writeBlock h _ _,
    fun _ => Memory.wf_writeBlock (Memory.wf_writeBlock h _ _) _ _, fun _ => Memory.wf_writeBlock h _ _,
    fun _ _ _ => Memory.wf_writeBlock h _ _, Memory.wf_writeBlock h _ _, List.Pairwise.nil⟩

/-- The decoded text reads back from `OUTBUF`. -/
theorem outbuf_storeDecoded (s : State) (out : List Byte) (n : Nat) (b : Bool) :
    (s.storeDecoded out n b).outbuf out.length = some out := by
  rw [State.outbuf, State.storeDecoded_mem]
  exact Memory.readBlock_writeBlock _ _ _

/-- A block stored in one window changes no byte of another. -/
theorem read_writeBlock_other_window {p : Config.Params} (hp : p.ok = true) (m : Memory) {v w : Window} {a : Nat}
    {bs : List Byte} (ha : windowAt p a = some w) (hl : bs.length ≤ v.size p) (hne : w ≠ v) :
    (m.writeBlock v.base bs).read a = m.read a := by
  apply Memory.read_writeBlock_outside
  by_contra hc
  exact hne (windows_disjoint hp (windowAt_holds ha) (show v.holds p a from ⟨by omega, by omega⟩))

end Sys2Proof.Machine
end

