-- ==== Sys2Proof/Laws/Huffman.lean ====
section
/-! SUPPORT. Small lemmas about the Huffman algorithms: counting, sorting and merging, trees and their paths, tables, and
decoding one code. -/

namespace Sys2Proof.Machine

open Sys2Proof

/-! ### Counting (41_huffman.md R74) -/

theorem countSymbols_append_singleton (msg : List Byte) (x : Byte) :
    countSymbols (msg ++ [x]) = countSymbol (countSymbols msg) x := by simp [countSymbols]

/-- Counting a symbol adds it at the end if it is new and leaves the order of the others. -/
theorem keys_countSymbol (fm : FreqMap) (y : Byte) :
    (countSymbol fm y).map (·.1) = if y ∈ fm.map (·.1) then fm.map (·.1) else fm.map (·.1) ++ [y] := by
  induction fm with
  | nil => simp [countSymbol]
  | cons e fm ih =>
    rw [countSymbol]
    split
    · rename_i h
      simp [h]
    · rename_i h
      rw [List.map_cons, ih]
      by_cases h2 : y ∈ fm.map (·.1)
      · simp [h2]
      · rw [if_neg h2, if_neg]
        · simp
        · simp only [List.map_cons, List.mem_cons, not_or]
          exact ⟨fun h' => h h'.symm, h2⟩

/-- Counting a symbol adds one to the sum of any weight times count. -/
theorem weighted_sum_countSymbol (weight : Byte → Nat) (fm : FreqMap) (y : Byte) :
    ((countSymbol fm y).map fun e => e.2 * weight e.1).sum = (fm.map fun e => e.2 * weight e.1).sum + weight y := by
  induction fm with
  | nil => simp [countSymbol]
  | cons e fm ih =>
    rw [countSymbol]
    split
    · rename_i h
      subst h
      simp [Nat.add_mul]
      omega
    · simp [ih]
      omega

/-- There are at most 256 distinct bytes. -/
theorem nodup_bytes_length {l : List Byte} (h : l.Nodup) : l.length ≤ 256 := by
  have h2 : (l.map BitVec.toNat).Nodup := h.map fun a b => BitVec.eq_of_toNat_eq
  have h3 : l.map BitVec.toNat ⊆ List.range 256 := by
    intro k hk
    obtain ⟨b, -, rfl⟩ := List.mem_map.1 hk
    exact List.mem_range.2 b.isLt
  have := (List.subperm_of_subset h2 h3).length_le
  rwa [List.length_map, List.length_range] at this

/-! ### Sorting and merging (00_scope.md R10, 41_huffman.md R75) -/

theorem stableSortByFreq_perm (l : List Tree) : (stableSortByFreq l).Perm l := List.perm_insertionSort _ l

/-- Inserting a node puts it before the nodes of its own frequency. -/
theorem filter_orderedInsert (a : Tree) (l : List Tree) (f : Nat) :
    (l.orderedInsert (fun a b => treeFreq a ≤ treeFreq b) a).filter (fun t => decide (treeFreq t = f)) =
      (a :: l).filter fun t => decide (treeFreq t = f) := by
  induction l with
  | nil => rfl
  | cons b l ih =>
    rw [List.orderedInsert]
    split
    · rfl
    · rename_i h
      rw [List.filter_cons, ih, List.filter_cons, List.filter_cons, List.filter_cons]
      by_cases h1 : treeFreq a = f <;> by_cases h2 : treeFreq b = f <;> simp [h1, h2]
      omega

/-- A pass over two or more nodes merges two of them. -/
theorem mergeLowest_length {l : List Tree} (h : 2 ≤ l.length) : (mergeLowest l).length = l.length - 1 := by
  have hp := (stableSortByFreq_perm l).length_eq
  unfold mergeLowest
  split
  · rename_i a b rest hs
    rw [hs] at hp
    simp at hp ⊢
    omega
  · rename_i h2
    rcases hs : stableSortByFreq l with _ | ⟨a, _ | ⟨b, r⟩⟩
    · rw [hs] at hp; simp at hp; omega
    · rw [hs] at hp; simp at hp; omega
    · exact absurd hs (h2 a b r)

/-! ### Paths (41_huffman.md R76) -/

/-- A walk that starts with a path only puts that path before each leaf's own. -/
theorem walk_path (t : Tree) (p : Bitstring) : walk t p = (walk t []).map fun e => (e.1, p ++ e.2) := by
  induction t generalizing p with
  | leaf x f => simp [walk]
  | node f l r ihl ihr =>
    rw [walk, ihl, ihr, walk, ihl ([] ++ [false]), ihr ([] ++ [true])]
    simp [List.map_map, Function.comp_def]

/-- The symbols of a node are those of its left child, then those of its right child, whatever the path before. -/
theorem walk_symbols_node (f : Nat) (l r : Tree) (p : Bitstring) :
    (walk (.node f l r) p).map (·.1) = (walk l []).map (·.1) ++ (walk r []).map (·.1) := by
  rw [walk, walk_path l, walk_path r]
  simp [Function.comp_def]

theorem walk_ne_nil (t : Tree) (p : Bitstring) : walk t p ≠ [] := by
  induction t generalizing p with
  | leaf => simp [walk]
  | node f l r ihl ihr => simp [walk, ihl]

theorem walk_isPrefix {t : Tree} {p : Bitstring} {e : Byte × Bitstring} (h : e ∈ walk t p) : p <+: e.2 := by
  rw [walk_path] at h
  obtain ⟨d, -, rfl⟩ := List.mem_map.1 h
  exact ⟨d.2, rfl⟩

/-- Nothing lies under both children of a node. -/
theorem not_under_both {p q : Bitstring} (h1 : p ++ [false] <+: q) (h2 : p ++ [true] <+: q) : False := by
  have := (List.prefix_of_prefix_length_le h1 h2 (by simp)).eq_of_length (by simp)
  simp at this

/-- No leaf's path is a prefix of another's. -/
theorem walk_pairwise (t : Tree) (p : Bitstring) :
    (walk t p).Pairwise fun a b => ¬ a.2 <+: b.2 ∧ ¬ b.2 <+: a.2 := by
  induction t generalizing p with
  | leaf x f => simp [walk]
  | node f l r ihl ihr =>
    rw [walk]
    refine List.pairwise_append.2 ⟨ihl _, ihr _, fun a ha b hb => ?_⟩
    have h1 := walk_isPrefix ha
    have h2 := walk_isPrefix hb
    exact ⟨fun h => not_under_both (h1.trans h) h2, fun h => not_under_both h1 (h2.trans h)⟩

/-- A leaf lies at most one edge deep for each other leaf. -/
theorem walk_length_le (t : Tree) (p : Bitstring) :
    ∀ e ∈ walk t p, e.2.length ≤ p.length + ((walk t p).length - 1) := by
  induction t generalizing p with
  | leaf x f => simp [walk]
  | node f l r ihl ihr =>
    intro e he
    have hl := List.length_pos_iff.2 (walk_ne_nil l (p ++ [false]))
    have hr := List.length_pos_iff.2 (walk_ne_nil r (p ++ [true]))
    rw [walk, List.length_append]
    rw [walk, List.mem_append] at he
    rcases he with he | he
    · have := ihl _ e he
      simp at this
      omega
    · have := ihr _ e he
      simp at this
      omega

@[simp] theorem follow_nil (t : Tree) : follow t [] = some t := by cases t <;> rfl

@[simp] theorem follow_leaf (x : Byte) (f : Nat) (b : Bool) (p : Bitstring) : follow (.leaf x f) (b :: p) = none := rfl

@[simp] theorem follow_left (f : Nat) (l r : Tree) (p : Bitstring) :
    follow (.node f l r) (false :: p) = follow l p := rfl

@[simp] theorem follow_right (f : Nat) (l r : Tree) (p : Bitstring) :
    follow (.node f l r) (true :: p) = follow r p := rfl

theorem mergePasses_eq_iterate (n : Nat) (l : List Tree) : mergePasses n l = mergeLowest^[n] l := by
  induction n generalizing l with
  | zero => rfl
  | succ n ih => rw [mergePasses, ih, Function.iterate_succ_apply]

theorem codeTableOf_eq {fm : FreqMap} {root : Tree} (h : buildTree fm = some root) : codeTableOf fm = codesOf root := by
  rw [codeTableOf, h]

/-! ### Tables -/

theorem codeOf_codesOf (root : Tree) (x : Byte) : codeOf (codesOf root) x = codeIn (leafCodes root) x := by
  have := x.isLt
  simp [codeOf, codesOf, Config.nsymMax, List.getD_eq_getElem?_getD,
    List.getElem?_range (show x.toNat < 256 by omega)]

/-- In a list of distinct symbols each has the code listed for it. -/
theorem codeIn_mem {l : List (Byte × Bitstring)} (h : (l.map (·.1)).Nodup) {x : Byte} {p : Bitstring}
    (hx : (x, p) ∈ l) : codeIn l x = p := by
  unfold codeIn
  induction l with
  | nil => cases hx
  | cons e l ih =>
    rw [List.map_cons, List.nodup_cons] at h
    rw [List.find?_cons]
    by_cases he : e.1 = x
    · simp [he]
      rcases List.mem_cons.1 hx with rfl | hx
      · rfl
      · exact absurd (List.mem_map_of_mem (f := (·.1)) hx) (he ▸ h.1)
    · simp [he]
      rcases List.mem_cons.1 hx with rfl | hx
      · exact absurd rfl he
      · exact ih h.2 hx

theorem codeIn_notMem {l : List (Byte × Bitstring)} {x : Byte} (hx : x ∉ l.map (·.1)) : codeIn l x = [] := by
  unfold codeIn
  have : l.find? (fun e => decide (e.1 = x)) = none := by
    rw [List.find?_eq_none]
    intro e he h
    simp at h
    subst h
    exact hx (List.mem_map_of_mem he)
  simp [this]

/-- The entry of a table of 256 entries at a symbol's number. -/
theorem codeOf_ofNat {t : CodeTable} (hl : t.length = 256) {k : Nat} (hk : k < t.length) :
    codeOf t (BitVec.ofNat 8 k) = t[k] := by
  simp [codeOf, List.getD_eq_getElem?_getD, Nat.mod_eq_of_lt (show k < 256 by omega), hk]

theorem le_maxLen_of_mem {t : CodeTable} {c : Bitstring} (h : c ∈ t) : c.length ≤ maxLen t := by
  unfold maxLen
  induction t with
  | nil => cases h
  | cons d t ih =>
    simp
    rcases List.mem_cons.1 h with rfl | h
    · simp
    · exact .inr (ih h)

/-- A bound on every entry is a bound on the longest. -/
theorem maxLen_le {t : CodeTable} {n : Nat} (h : ∀ c ∈ t, c.length ≤ n) : maxLen t ≤ n := by
  unfold maxLen
  induction t with
  | nil => simp
  | cons c t ih =>
    simp at h ⊢
    exact ⟨h.1, ih h.2⟩

/-- The longest code is that of some entry. -/
theorem maxLen_attained {t : CodeTable} (h : t ≠ []) : ∃ c ∈ t, c.length = maxLen t := by
  unfold maxLen
  induction t with
  | nil => exact absurd rfl h
  | cons c t ih =>
    simp only [List.map_cons, List.foldr_cons]
    rcases eq_or_ne t [] with rfl | ht
    · exact ⟨c, by simp, by simp⟩
    · obtain ⟨d, hd, he⟩ := ih ht
      rcases le_total d.length c.length with hc | hc
      · exact ⟨c, by simp, by omega⟩
      · exact ⟨d, by simp [hd], by omega⟩

/-! ### Decoding (41_huffman.md R77) -/

/-- A symbol that is found has the accumulated bits as its code. -/
theorem symbolOf_some {t : CodeTable} {acc : Bitstring} {x : Byte} (hl : t.length = 256)
    (h : symbolOf t acc = some x) : codeOf t x = acc := by
  unfold symbolOf at h
  cases hf : t.findIdx? fun c => decide (c = acc) with
  | none => simp [hf] at h
  | some k =>
    rw [hf] at h
    simp at h
    subst h
    obtain ⟨hk, h1, -⟩ := List.findIdx?_eq_some_iff_getElem.1 hf
    rw [codeOf_ofNat hl hk]
    simpa using h1

/-- In a prefix-free table a symbol with a code is found by it. -/
theorem symbolOf_code {t : CodeTable} (hl : t.length = 256) (hpf : prefixFree t) {x : Byte} (hx : codeOf t x ≠ []) :
    symbolOf t (codeOf t x) = some x := by
  have hlt := x.isLt
  have : t.findIdx? (fun c => decide (c = codeOf t x)) = some x.toNat := by
    rw [List.findIdx?_eq_some_iff_getElem]
    refine ⟨by omega, ?_, ?_⟩
    · have := codeOf_ofNat hl (show x.toNat < t.length by omega)
      simp at this
      simp [← this]
    · intro j hj hc
      simp at hc
      have h1 := codeOf_ofNat hl (show j < t.length by omega)
      rw [hc] at h1
      refine hpf (BitVec.ofNat 8 j) x ?_ (by rw [h1]; exact hx) hx (by rw [h1])
      intro h
      have := congrArg BitVec.toNat h
      simp [Nat.mod_eq_of_lt (show j < 256 by omega)] at this
      omega
  rw [symbolOf, this]
  simp

/-- Written bits that complete no code are accumulated, whatever follows them. -/
theorem decodeFrom_accumulates {t : CodeTable} (hl : t.length = 256) (outMax : Nat) {acc bits : Bitstring}
    (h : ∀ p, p ≠ [] → p <+: bits → ∀ y : Byte, codeOf t y ≠ acc ++ p) (rest : List (Option Bool)) (out : List Byte)
    (i : Nat) :
    decodeFrom t outMax (bits.map some ++ rest) acc out i =
      decodeFrom t outMax rest (acc ++ bits) out (i + bits.length) := by
  induction bits generalizing acc i with
  | nil => simp
  | cons b bits ih =>
    have hb : ∀ y : Byte, codeOf t y ≠ acc ++ [b] := h [b] (by simp) ⟨bits, rfl⟩
    have hs : symbolOf t (acc ++ [b]) = none := by
      cases hs : symbolOf t (acc ++ [b]) with
      | none => rfl
      | some y => exact absurd (symbolOf_some hl hs) (hb y)
    rw [List.map_cons, List.cons_append, decodeFrom, if_neg fun hd => hb _ hd.symm, hs]
    simp only
    rw [ih fun p _ hpre y => by simpa using h (b :: p) (by simp) (List.cons_prefix_cons.2 ⟨rfl, hpre⟩) y]
    simp only [List.append_assoc, List.singleton_append, List.length_cons]
    congr 1
    omega

/-- A decode that ends with a text: at most `OUT_MAX` symbols, at most one for each bit, and no more bits than given. -/
theorem decodeFrom_bounds {t : CodeTable} {outMax : Nat} {bits : List (Option Bool)} {acc : Bitstring}
    {out o : List Byte} {i u : Nat} {found : Bool} (h : decodeFrom t outMax bits acc out i = .text o u found)
    (h1 : out.length ≤ i) (h2 : out.length ≤ outMax) :
    o.length ≤ outMax ∧ o.length ≤ u ∧ u ≤ i + bits.length := by
  induction bits generalizing acc out i with
  | nil =>
    rw [decodeFrom] at h
    cases h
    exact ⟨h2, h1, by simp⟩
  | cons b bits ih =>
    cases b with
    | none => rw [decodeFrom] at h; cases h
    | some b =>
      rw [decodeFrom] at h
      split at h
      · cases h
        exact ⟨h2, by omega, by simp only [List.length_cons]; omega⟩
      · split at h
        · have := ih h (by omega) h2
          simp only [List.length_cons]
          omega
        · split at h
          · cases h
          · have := ih h (by simp; omega) (by rw [List.length_append, List.length_singleton]; omega)
            simp only [List.length_cons]
            omega

end Sys2Proof.Machine
end

