-- ==== Sys2Proof/Laws/Operations.lean ====
section
/-! SUPPORT. What each shared operation and each command can answer: one inversion lemma each. -/

namespace Sys2Proof.Machine

open Sys2Proof

theorem complete_eq_next {s t : State} : complete s = .next t ↔ t = s.finish := by
  simp only [complete, Host.Outcome.next.injEq, eq_comm]

theorem abort_eq_next {e : ErrCode} {s t : State} : abort e s = .next t ↔ t = s.fail e := by
  simp only [abort, Host.Outcome.next.injEq, eq_comm]

@[simp] theorem withOperand_some {α : Type} (a : α) (k : α → Result) : withOperand (some a) k = k a := rfl

@[simp] theorem withOperand_none {α : Type} (k : α → Result) : withOperand none k = .fault .uninitRead := rfl

/-- An operand that is read is written. -/
theorem withOperand_eq_next {α : Type} {x : Option α} {k : α → Result} {t : State} :
    withOperand x k = .next t ↔ ∃ a, x = some a ∧ k a = .next t := by
  cases x <;> simp

/-- The dimension check: either `E_DIMS`, or the rest runs with `CAP_AVAIL` written. -/
theorem withDims_eq_next {s t : State} {k : State → Result} :
    withDims s k = .next t ↔
      (s.params.pixMax < s.capacity ∧ t = s.fail .dims) ∨
        (s.capacity ≤ s.params.pixMax ∧ k s.setCapAvail = .next t) := by
  unfold withDims
  split
  · rename_i h
    simp [abort_eq_next, h, Nat.not_le.2 h]
  · rename_i h
    simp [h, Nat.not_lt.1 h]

@[simp] theorem capacity_setCapAvail (s : State) : s.setCapAvail.capacity = s.capacity := rfl

/-- The capacity check: one of its three errors, or the rest runs with `CAP_AVAIL` written. -/
theorem withCapacity_eq_next {s t : State} {k : State → Result} :
    withCapacity s k = .next t ↔
      (s.params.pixMax < s.capacity ∧ t = s.fail .dims) ∨
      (s.capacity ≤ s.params.pixMax ∧ s.params.bitbufBits < s.bitLen.toNat ∧ t = s.setCapAvail.fail .bitLen) ∨
      (s.capacity ≤ s.params.pixMax ∧ s.bitLen.toNat ≤ s.params.bitbufBits ∧ s.capacity < s.bitLen.toNat ∧
        t = s.setCapAvail.fail .capacity) ∨
      (s.capacity ≤ s.params.pixMax ∧ s.bitLen.toNat ≤ s.params.bitbufBits ∧ s.bitLen.toNat ≤ s.capacity ∧
        k s.setCapAvail = .next t) := by
  unfold withCapacity
  rw [withDims_eq_next]
  simp only [State.setCapAvail_params, State.setCapAvail_bitLen, capacity_setCapAvail]
  by_cases h1 : s.params.bitbufBits < s.bitLen.toNat
  · simp [abort_eq_next, h1, Nat.not_le.2 h1]
  · by_cases h2 : s.capacity < s.bitLen.toNat
    · simp [abort_eq_next, h1, h2, Nat.not_lt.1 h1, Nat.not_le.2 h2]
    · simp [h1, h2, Nat.not_lt.1 h1, Nat.not_lt.1 h2]

/-- When every check passes, the capacity check writes `CAP_AVAIL` and goes on. -/
theorem withCapacity_pass {s : State} (k : State → Result) (h1 : s.capacity ≤ s.params.pixMax)
    (h2 : s.bitLen.toNat ≤ s.params.bitbufBits) (h3 : s.bitLen.toNat ≤ s.capacity) :
    withCapacity s k = k s.setCapAvail := by
  simp [withCapacity, withDims, Nat.not_lt.2 h1, Nat.not_lt.2 h2, Nat.not_lt.2 h3]

theorem withDims_pass {s : State} (k : State → Result) (h : s.capacity ≤ s.params.pixMax) :
    withDims s k = k s.setCapAvail := by
  simp [withDims, Nat.not_lt.2 h]

/-! ### Commands -/

theorem nop_next {s t : State} (h : exec .nop s = .next t) : t = s.finish := complete_eq_next.1 h

theorem clear_next {s t : State} (h : exec .clear s = .next t) : t = s.clearRegs.finish := complete_eq_next.1 h

theorem huffCount_next {s t : State} (h : exec .huffCount s = .next t) :
    (s.params.msgMax < s.msgLen.toNat ∧ t = s.fail .msgLen) ∨
      (s.msgLen.toNat ≤ s.params.msgMax ∧ ∃ msg, s.message = some msg ∧
        t = (s.storeFreqMap (countSymbols msg)).finish) := by
  rw [exec, execHuffCount] at h
  split at h
  · rename_i h1
    exact .inl ⟨h1, abort_eq_next.1 h⟩
  · rename_i h1
    obtain ⟨msg, hm, h⟩ := withOperand_eq_next.1 h
    exact .inr ⟨Nat.not_lt.1 h1, msg, hm, complete_eq_next.1 h⟩

theorem huffBuild_next {s t : State} (h : exec .huffBuild s = .next t) :
    ((s.nsym.toNat = 0 ∨ 256 < s.nsym.toNat) ∧ t = s.fail .fmap) ∨
      (s.nsym.toNat ≠ 0 ∧ s.nsym.toNat ≤ 256 ∧ ∃ syms, s.fmapSyms s.nsym.toNat = some syms ∧
        ((¬ syms.Nodup ∧ t = s.fail .fmap) ∨
         (syms.Nodup ∧ 0x23 ∉ syms ∧ t = s.fail .noDelim) ∨
         (syms.Nodup ∧ 0x23 ∈ syms ∧ ∃ cnts, s.fmapCnts s.nsym.toNat = some cnts ∧
           ((2 ^ 32 - 1 < cnts.sum ∧ t = s.fail .freqOvf) ∨
            (cnts.sum ≤ 2 ^ 32 - 1 ∧ t = (s.loadTable (codeTableOf (syms.zip cnts))).finish))))) := by
  rw [exec, execHuffBuild] at h
  split at h
  · rename_i h1
    exact .inl ⟨h1, abort_eq_next.1 h⟩
  · rename_i h1
    obtain ⟨h0, h1⟩ := not_or.1 h1
    obtain ⟨syms, hs, h⟩ := withOperand_eq_next.1 h
    refine .inr ⟨h0, Nat.not_lt.1 h1, syms, hs, ?_⟩
    split at h
    · rename_i h2
      exact .inl ⟨h2, abort_eq_next.1 h⟩
    · rename_i h2
      split at h
      · rename_i h3
        exact .inr (.inl ⟨not_not.1 h2, h3, abort_eq_next.1 h⟩)
      · rename_i h3
        obtain ⟨cnts, hc, h⟩ := withOperand_eq_next.1 h
        refine .inr (.inr ⟨not_not.1 h2, not_not.1 h3, cnts, hc, ?_⟩)
        split at h
        · rename_i h4
          exact .inl ⟨h4, abort_eq_next.1 h⟩
        · rename_i h4
          exact .inr ⟨Nat.not_lt.1 h4, complete_eq_next.1 h⟩

theorem huffEncode_next {s t : State} (h : exec .huffEncode s = .next t) :
    (s.params.msgMax < s.msgLen.toNat ∧ t = s.fail .msgLen) ∨
      (s.msgLen.toNat ≤ s.params.msgMax ∧ ∃ msg, s.message = some msg ∧
        ((countSymbols msg = [] ∧ t = s.fail .fmap) ∨
         (countSymbols msg ≠ [] ∧ 0x23 ∉ (countSymbols msg).map (·.1) ∧ t = s.fail .noDelim) ∨
         (0x23 ∈ (countSymbols msg).map (·.1) ∧
           s.params.bitbufBits < (encodeMessage (codeTableOf (countSymbols msg)) msg).length ∧ t = s.fail .bitLen) ∨
         (0x23 ∈ (countSymbols msg).map (·.1) ∧
           (encodeMessage (codeTableOf (countSymbols msg)) msg).length ≤ s.params.bitbufBits ∧
           t = (((s.storeFreqMap (countSymbols msg)).loadTable (codeTableOf (countSymbols msg))).storeBits
             (encodeMessage (codeTableOf (countSymbols msg)) msg)).finish))) := by
  rw [exec, execHuffEncode] at h
  split at h
  · rename_i h1
    exact .inl ⟨h1, abort_eq_next.1 h⟩
  · rename_i h1
    obtain ⟨msg, hm, h⟩ := withOperand_eq_next.1 h
    refine .inr ⟨Nat.not_lt.1 h1, msg, hm, ?_⟩
    split at h
    · rename_i h2
      exact .inl ⟨h2, abort_eq_next.1 h⟩
    · rename_i h2
      split at h
      · rename_i h3
        exact .inr (.inl ⟨h2, h3, abort_eq_next.1 h⟩)
      · rename_i h3
        simp only at h
        split at h
        · rename_i h4
          exact .inr (.inr (.inl ⟨not_not.1 h3, h4, abort_eq_next.1 h⟩))
        · rename_i h4
          exact .inr (.inr (.inr ⟨not_not.1 h3, Nat.not_lt.1 h4, complete_eq_next.1 h⟩))

theorem huffDecode_next {s t : State} (h : exec .huffDecode s = .next t) :
    (s.treeValid = false ∧ t = s.fail .noTree) ∨
      (s.treeValid = true ∧ s.params.bitbufBits < s.bitLen.toNat ∧ t = s.fail .bitLen) ∨
      (s.treeValid = true ∧ s.bitLen.toNat ≤ s.params.bitbufBits ∧ ∃ table, s.codeTable = some table ∧
        ((decodeBits table s.params.outMax (s.bitStream s.bitLen.toNat) = .overflow ∧
            t = s.spoilOutbuf.fail .outOvf) ∨
         (∃ out used found,
            decodeBits table s.params.outMax (s.bitStream s.bitLen.toNat) = .text out used found ∧
            t = (s.storeDecoded out used found).finish))) := by
  rw [exec, execHuffDecode] at h
  split at h
  · rename_i h1
    exact .inl ⟨h1, abort_eq_next.1 h⟩
  · rename_i h1
    have h1 := Bool.not_eq_false _ ▸ h1
    split at h
    · rename_i h2
      exact .inr (.inl ⟨by simpa using h1, h2, abort_eq_next.1 h⟩)
    · rename_i h2
      obtain ⟨table, ht, h⟩ := withOperand_eq_next.1 h
      refine .inr (.inr ⟨by simpa using h1, Nat.not_lt.1 h2, table, ht, ?_⟩)
      split at h
      · rename_i out used found hd
        exact .inr ⟨out, used, found, hd, complete_eq_next.1 h⟩
      · rename_i hd
        exact .inl ⟨hd, abort_eq_next.1 h⟩
      · cases h

theorem capCheck_next {s t : State} (h : exec .capCheck s = .next t) :
    (s.params.pixMax < s.capacity ∧ t = s.fail .dims) ∨
      (s.capacity ≤ s.params.pixMax ∧ s.params.bitbufBits < s.bitLen.toNat ∧ t = s.setCapAvail.fail .bitLen) ∨
      (s.capacity ≤ s.params.pixMax ∧ s.bitLen.toNat ≤ s.params.bitbufBits ∧ s.capacity < s.bitLen.toNat ∧
        t = s.setCapAvail.fail .capacity) ∨
      (s.capacity ≤ s.params.pixMax ∧ s.bitLen.toNat ≤ s.params.bitbufBits ∧ s.bitLen.toNat ≤ s.capacity ∧
        t = s.setCapAvail.finish) := by
  simpa only [complete_eq_next] using withCapacity_eq_next.1 h

theorem embed_next {s t : State} (h : exec .embed s = .next t) :
    (s.params.pixMax < s.capacity ∧ t = s.fail .dims) ∨
      (s.capacity ≤ s.params.pixMax ∧ s.params.bitbufBits < s.bitLen.toNat ∧ t = s.setCapAvail.fail .bitLen) ∨
      (s.capacity ≤ s.params.pixMax ∧ s.bitLen.toNat ≤ s.params.bitbufBits ∧ s.capacity < s.bitLen.toNat ∧
        t = s.setCapAvail.fail .capacity) ∨
      (s.capacity ≤ s.params.pixMax ∧ s.bitLen.toNat ≤ s.params.bitbufBits ∧ s.bitLen.toNat ≤ s.capacity ∧
        ∃ bits pix, s.bits s.bitLen.toNat = some bits ∧ s.pixels s.bitLen.toNat = some pix ∧
          t = (s.setCapAvail.storeAt .PIX (embedBits pix bits)).finish) := by
  rw [exec, execEmbed] at h
  rcases withCapacity_eq_next.1 h with h | h | h | ⟨h1, h2, h3, h⟩
  · exact .inl h
  · exact .inr (.inl h)
  · exact .inr (.inr (.inl h))
  · obtain ⟨bits, hb, h⟩ := withOperand_eq_next.1 h
    obtain ⟨pix, hp, h⟩ := withOperand_eq_next.1 h
    exact .inr (.inr (.inr ⟨h1, h2, h3, bits, pix, hb, hp, complete_eq_next.1 h⟩))

theorem extract_next {s t : State} (h : exec .extract s = .next t) :
    (s.params.pixMax < s.capacity ∧ t = s.fail .dims) ∨
      (s.capacity ≤ s.params.pixMax ∧ ∃ pix, s.pixels s.capacity = some pix ∧
        t = (s.setCapAvail.storeBits (extractBits pix)).finish) := by
  rw [exec, execExtract] at h
  rcases withDims_eq_next.1 h with h | ⟨h1, h⟩
  · exact .inl h
  · obtain ⟨pix, hp, h⟩ := withOperand_eq_next.1 h
    exact .inr ⟨h1, pix, hp, complete_eq_next.1 h⟩

/-- What every command that answers a next state does to `ENGINE` and `DONE`, and what it leaves to the host. -/
theorem exec_next {i : Instr} {s t : State} (h : exec i s = .next t) :
    t.engine = .idle ∧ t.done = true ∧ t.faulted = s.faulted ∧ t.params = s.params ∧ t.host = s.host ∧
      t.turns = s.turns ∧ t.responses = s.responses := by
  cases i with
  | nop => rw [nop_next h]; simp
  | clear => rw [clear_next h]; simp
  | huffCount => rcases huffCount_next h with ⟨-, rfl⟩ | ⟨-, msg, -, rfl⟩ <;> simp
  | huffBuild =>
    rcases huffBuild_next h with
      ⟨-, rfl⟩ | ⟨-, -, syms, -, ⟨-, rfl⟩ | ⟨-, -, rfl⟩ | ⟨-, -, cnts, -, ⟨-, rfl⟩ | ⟨-, rfl⟩⟩⟩ <;> simp
  | huffEncode =>
    rcases huffEncode_next h with
      ⟨-, rfl⟩ | ⟨-, msg, -, ⟨-, rfl⟩ | ⟨-, -, rfl⟩ | ⟨-, -, rfl⟩ | ⟨-, -, rfl⟩⟩ <;> simp
  | huffDecode =>
    rcases huffDecode_next h with
      ⟨-, rfl⟩ | ⟨-, -, rfl⟩ | ⟨-, -, table, -, ⟨-, rfl⟩ | ⟨out, used, found, -, rfl⟩⟩ <;> simp
  | capCheck =>
    rcases capCheck_next h with ⟨-, rfl⟩ | ⟨-, -, rfl⟩ | ⟨-, -, -, rfl⟩ | ⟨-, -, -, rfl⟩ <;> simp
  | embed =>
    rcases embed_next h with ⟨-, rfl⟩ | ⟨-, -, rfl⟩ | ⟨-, -, -, rfl⟩ | ⟨-, -, -, bits, pix, -, -, rfl⟩ <;> simp
  | extract => rcases extract_next h with ⟨-, rfl⟩ | ⟨-, pix, -, rfl⟩ <;> simp

/-! ### Steps -/

/-- What a step can be: a host operation while the engine is idle or the schedule names the host, or the pending word's
engine step. -/
theorem step_cases {s t : State} (h : step s = .next t) :
    s.faulted = false ∧
      ((s.engine = .idle ∧ hostStep s = .next t) ∨
       (∃ w, s.engine = .pending w ∧ hostGoesFirst s = true ∧ hostStep s.passTurn = .next t) ∨
       (∃ w, s.engine = .pending w ∧ hostGoesFirst s = false ∧ runWord w s.passTurn = .next t)) := by
  unfold step at h
  split at h
  · cases h
  · rename_i hf
    refine ⟨by simpa using hf, ?_⟩
    unfold agentStep at h
    split at h
    · rename_i he
      exact .inl ⟨he, h⟩
    · rename_i w he
      split at h
      · rename_i hg
        exact .inr (.inl ⟨w, he, hg, h⟩)
      · rename_i hg
        exact .inr (.inr ⟨w, he, by simpa using hg, h⟩)

/-- What the engine step on a word can be: the decoded command, or `E_BADCMD`. -/
theorem runWord_cases {w : Word} {s t : State} (h : runWord w s = .next t) :
    (∃ i, decode w = .ok i ∧ exec i s = .next t) ∨ (∃ e, decode w = .error e ∧ t = s.fail .badCmd) := by
  unfold runWord at h
  split at h
  · rename_i i hi
    exact .inl ⟨i, hi, h⟩
  · rename_i e he
    exact .inr ⟨e, he, abort_eq_next.1 h⟩

/-- What every engine step that answers a next state does to `ENGINE` and `DONE`, and what it leaves to the host. -/
theorem runWord_next {w : Word} {s t : State} (h : runWord w s = .next t) :
    t.engine = .idle ∧ t.done = true ∧ t.faulted = s.faulted ∧ t.params = s.params ∧ t.host = s.host ∧
      t.turns = s.turns ∧ t.responses = s.responses := by
  rcases runWord_cases h with ⟨i, -, h⟩ | ⟨e, -, rfl⟩
  · exact exec_next h
  · simp

/-- What a host operation can be. -/
theorem hostStep_cases {s t : State} (h : hostStep s = .next t) :
    (s.host = [] ∧ t = s) ∨
      (∃ x rest, s.host = .access x :: rest ∧ hostAccess x (s.withHost rest) = .next t) ∨
      (∃ rest, s.host = .reset :: rest ∧ t = (s.withHost rest).platformReset) ∨
      (∃ rest, s.host = .wait :: rest ∧
        hostAccess (.read (regAddr .STATUS) .four) (if s.busy then s else s.withHost rest) = .next t) := by
  unfold hostStep at h
  split at h
  · rename_i hh
    exact .inl ⟨hh, by cases h; rfl⟩
  · rename_i x rest hh
    exact .inr (.inl ⟨x, rest, hh, h⟩)
  · rename_i rest hh
    exact .inr (.inr (.inl ⟨rest, hh, by cases h; rfl⟩))
  · rename_i rest hh
    exact .inr (.inr (.inr ⟨rest, hh, h⟩))

/-- What a host read can be: the response, and while busy the draws behind it. -/
theorem hostRead_cases {a : Addr} {n : AccessSize} {s t : State} (h : hostAccess (.read a n) s = .next t) :
    ∃ r, t = s.respond r ∨ (s.busy = true ∧ t = (s.respond r).drawn n.bytes) := by
  rw [hostAccess, hostRead] at h
  split at h
  · exact ⟨_, .inl (by cases h; rfl)⟩
  · split at h
    · rename_i hb
      have hb' : s.busy = true := by
        have := hb
        simp only [Bool.and_eq_true] at this
        exact this.1
      exact ⟨_, .inr ⟨hb', by cases h; rfl⟩⟩
    · exact ⟨_, .inl (by cases h; rfl)⟩
  · split at h
    · rename_i hb
      exact ⟨_, .inr ⟨hb, by cases h; rfl⟩⟩
    · obtain ⟨bs, -, h⟩ := withOperand_eq_next.1 h
      exact ⟨_, .inl (by cases h; rfl)⟩

/-- What a host write can be: a response alone, a write to `CMD`, or a store to a RW register or window while idle. -/
theorem hostWrite_cases {a : Addr} {d : BusData} {s t : State} (h : hostAccess (.write a d) s = .next t) :
    (∃ r, t = s.respond r) ∨
      (t = (s.writeCmd (BitVec.ofNat 32 d.value)).respond .ok) ∨
      (s.busy = false ∧ ∃ r, resolve s.params a.toNat d.size.bytes = some (.reg r) ∧ r.access = .rw ∧
        t = (s.writeReg r (BitVec.ofNat 32 d.value)).respond .ok) ∨
      (s.busy = false ∧ ∃ w, resolve s.params a.toNat d.size.bytes = some (.window w) ∧ w.access = .rw ∧
        t = (s.storeBytes a.toNat d.bytes).respond .ok) := by
  rw [hostAccess, hostWrite] at h
  split at h
  · exact .inl ⟨_, by cases h; rfl⟩
  · rename_i r hr
    split at h
    · exact .inr (.inl (by cases h; rfl))
    · exact .inl ⟨_, by cases h; rfl⟩
    · rename_i ha
      split at h
      · cases h
      · rename_i hb
        exact .inr (.inr (.inl ⟨by simpa using hb, r, hr, ha, by cases h; rfl⟩))
  · rename_i w hw
    split at h
    · exact .inl ⟨_, by cases h; rfl⟩
    · exact .inl ⟨_, by cases h; rfl⟩
    · rename_i ha
      split at h
      · cases h
      · rename_i hb
        exact .inr (.inr (.inr ⟨by simpa using hb, w, hw, ha, by cases h; rfl⟩))

end Sys2Proof.Machine
end

