-- ==== Sys2Proof/Laws/PerInstr.lean ====
section
/-! SUPPORT. The per-command family EncodedWord: each command is well formed and its word is a legal one with the
reserved bits 0 (30_encoding.md R59, R61). -/

open Sys2Proof

/-- What the family says of one command. -/
def Sys2Proof.Laws.EncodedWord.Statement (i : Instr) : Prop :=
  i.wf = true ∧ rsvdField (encode i) = 0 ∧ legalWord (encode i) = true

theorem Sys2Proof.Laws.EncodedWord.nop : Sys2Proof.Laws.EncodedWord.Statement .nop := by
  unfold Sys2Proof.Laws.EncodedWord.Statement; decide

theorem Sys2Proof.Laws.EncodedWord.clear : Sys2Proof.Laws.EncodedWord.Statement .clear := by
  unfold Sys2Proof.Laws.EncodedWord.Statement; decide

theorem Sys2Proof.Laws.EncodedWord.huffCount : Sys2Proof.Laws.EncodedWord.Statement .huffCount := by
  unfold Sys2Proof.Laws.EncodedWord.Statement; decide

theorem Sys2Proof.Laws.EncodedWord.huffBuild : Sys2Proof.Laws.EncodedWord.Statement .huffBuild := by
  unfold Sys2Proof.Laws.EncodedWord.Statement; decide

theorem Sys2Proof.Laws.EncodedWord.huffEncode : Sys2Proof.Laws.EncodedWord.Statement .huffEncode := by
  unfold Sys2Proof.Laws.EncodedWord.Statement; decide

theorem Sys2Proof.Laws.EncodedWord.huffDecode : Sys2Proof.Laws.EncodedWord.Statement .huffDecode := by
  unfold Sys2Proof.Laws.EncodedWord.Statement; decide

theorem Sys2Proof.Laws.EncodedWord.capCheck : Sys2Proof.Laws.EncodedWord.Statement .capCheck := by
  unfold Sys2Proof.Laws.EncodedWord.Statement; decide

theorem Sys2Proof.Laws.EncodedWord.embed : Sys2Proof.Laws.EncodedWord.Statement .embed := by
  unfold Sys2Proof.Laws.EncodedWord.Statement; decide

theorem Sys2Proof.Laws.EncodedWord.extract : Sys2Proof.Laws.EncodedWord.Statement .extract := by
  unfold Sys2Proof.Laws.EncodedWord.Statement; decide
end

