-- ==== Sys2Proof/Tests/Slice0.lean ====
section
/-! SUPPORT. Tests with expected results from spec/95_test_vectors.md and the tables of spec/, and witnesses that the
hypotheses of the obligations can be met together. -/

namespace Sys2Proof.Tests

open Sys2Proof Sys2Proof.Machine

/-! ### Small states -/

/-- "hello#". -/
def hello : List Byte := [0x68, 0x65, 0x6C, 0x6C, 0x6F, 0x23]

/-- The samples of L2-E2. -/
def carrier : List Byte := [0, 255, 10, 11, 200, 201, 64, 0, 3, 7, 8, 9, 100, 101, 50]

/-- The state a command leaves, or the same state where it stops. -/
def ran (i : Instr) (s : State) : State :=
  match exec i s with
  | .next t => t
  | .fault _ => s
  | .refused _ => s

/-- A next state is answered. -/
def goes (r : Result) : Bool :=
  match r with
  | .next _ => true
  | .fault _ => false
  | .refused _ => false

/-- The fault answered, if there is one. -/
def faultOf (r : Result) : Option Fault :=
  match r with
  | .next _ => none
  | .fault f => some f
  | .refused _ => none

theorem exec_ran {i : Instr} {s : State} (h : goes (exec i s) = true) : exec i s = .next (ran i s) := by
  unfold ran
  cases hx : exec i s <;> simp_all [goes]

theorem eq_fault {r : Result} {f : Fault} (h : faultOf r = some f) : r = .fault f := by
  cases r <;> simp_all [faultOf]

theorem goes_next {r : Result} (h : goes r = true) : ∃ t, r = .next t := by
  cases r <;> simp_all [goes]

/-- The window holds these bytes at its front. -/
def holds (s : State) (w : Window) (bs : List Byte) : Bool :=
  decide (s.mem.readBlock w.base bs.length = some bs)

/-- A message of `n` bytes. -/
def messageState (msg : List Byte) (n : Word) : State := { State.reset.storeAt .MSGBUF msg with msgLen := n }

/-- A frequency map written by the host. -/
def mapState (fm : FreqMap) (n : BitVec 9) : State := { State.reset.storeFreqMap fm with nsym := n }

def helloIn : State := messageState hello 6
def helloOut : State := ran .huffEncode helloIn
def helloBack : State := ran .huffDecode helloOut

/-- The state before L2-E2's `EMBED`. -/
def carrierIn : State := { helloOut.storeAt .PIX carrier with imgH := 1, imgW := 5 }
def embedded : State := ran .embed carrierIn
def extracted : State := ran .extract embedded

/-- A command word waiting for its engine step. -/
def pendingState (w : Word) (s : State) : State := { s with engine := .pending w }

/-- `OUT_MAX = 2` (L2-H18). -/
def shortOut : Config.Params := { Config.Params.default with outMax := 2 }

/-! ### WellFormed: an ill-formed term for each check is refused -/

theorem test_params_default_ok : Config.Params.default.ok = true := by decide
theorem test_params_msgMax_low : ({ Config.Params.default with msgMax := 0 } : Config.Params).ok = false := by decide
theorem test_params_msgMax_high : ({ Config.Params.default with msgMax := 65537 } : Config.Params).ok = false := by
  decide
theorem test_params_outMax_low : ({ Config.Params.default with outMax := 0 } : Config.Params).ok = false := by decide
theorem test_params_outMax_high : ({ Config.Params.default with outMax := 851969 } : Config.Params).ok = false := by
  decide
theorem test_params_pixMax_low : ({ Config.Params.default with pixMax := 0 } : Config.Params).ok = false := by decide
theorem test_params_pixMax_high :
    ({ Config.Params.default with pixMax := 12582913, bitbufBits := 25165824 } : Config.Params).ok = false := by decide
theorem test_params_bitbuf_below_pixMax :
    ({ Config.Params.default with bitbufBits := 3145720 } : Config.Params).ok = false := by decide
theorem test_params_bitbuf_not_bytes :
    ({ Config.Params.default with bitbufBits := 3145732 } : Config.Params).ok = false := by decide
theorem test_params_bitbuf_high :
    ({ Config.Params.default with bitbufBits := 25165832 } : Config.Params).ok = false := by decide
/-- R62: reserved bits with a listed `OPC`, and an unlisted `OPC`. -/
theorem test_word_reserved_bits : legalWord 0x00000100 = false := by decide
theorem test_word_unknown_opcode : legalWord 0x00000014 = false := by decide
/-- A command has no field that could be ill formed (R60). -/
theorem test_every_command_wf : Instr.all.all Instr.wf = true := by decide

/-! ### Decode: words written out bit by bit from 30_encoding.md R59 and R61, `RSVD` then `OPC` -/

theorem test_decode_nop : decode 0b000000000000000000000000_00000000 = .ok .nop := by rfl
theorem test_decode_clear : decode 0b000000000000000000000000_00000001 = .ok .clear := by rfl
theorem test_decode_huffCount : decode 0b000000000000000000000000_00010000 = .ok .huffCount := by rfl
theorem test_decode_huffBuild : decode 0b000000000000000000000000_00010001 = .ok .huffBuild := by rfl
theorem test_decode_huffEncode : decode 0b000000000000000000000000_00010010 = .ok .huffEncode := by rfl
theorem test_decode_huffDecode : decode 0b000000000000000000000000_00010011 = .ok .huffDecode := by rfl
theorem test_decode_capCheck : decode 0b000000000000000000000000_00100000 = .ok .capCheck := by rfl
theorem test_decode_embed : decode 0b000000000000000000000000_00100001 = .ok .embed := by rfl
theorem test_decode_extract : decode 0b000000000000000000000000_00100010 = .ok .extract := by rfl
theorem test_decode_reserved : decode 0b000000000000000000000001_00000000 = .error .reservedBits := by rfl
theorem test_decode_unknown : decode 0x00000002 = .error (.unknownOpcode 0x02) := by rfl
theorem test_decode_short : decodeBytes [0x00, 0x00, 0x00] = .error .tooShort := by rfl
/-- The four bytes of `W 0x000000 4 0x00000012`, little-endian. -/
theorem test_decode_bytes : decodeBytes [0x12, 0x00, 0x00, 0x00, 0xFF] = .ok (.huffEncode, [0xFF]) := by rfl
theorem test_decodeTableWord : decodeTableWord 32 0x22 = some .extract := by rfl
theorem test_withFetchWord_runs : (step (State.reset.withFetchWord 32 0x00000001)) =
    .next ((placeWord 0x00000001 State.reset).passTurn.clearRegs.finish) := by rfl

/-! ### One step of each command, against the vectors of spec/95_test_vectors.md -/

/-- L2-C1: issue, then completion. -/
theorem test_nop_status :
    (State.reset.issue (encode .nop)).statusWord = 0x00000001 ∧
      (ran .nop (State.reset.issue (encode .nop))).statusWord = 0x00000002 := by decide +kernel

/-- L2-C2. -/
theorem test_clear_after_decode :
    let t := ran .clear (helloBack.issue (encode .clear))
    t.statusWord = 0x00010002 ∧ t.bitLen = 0 ∧ t.maxCodeLen = 0 ∧ holds t .OUTBUF [0x68, 0x65, 0x6C, 0x6C, 0x6F] = true ∧
      t.byteAt 0x021068 = some 3 ∧ (ran .huffDecode t).err = .noTree := by decide +kernel

/-- L2-H21, first and fourth rows: the entries past the new ones stay. -/
theorem test_huffCount_hello :
    let t := ran .huffCount helloIn
    t.nsym = 5 ∧ holds t .FMAP_SYM [0x68, 0x65, 0x6C, 0x6F, 0x23] = true ∧
      t.fmapCnts 5 = some [1, 1, 2, 1, 1] ∧ t.treeValid = false := by decide +kernel
theorem test_huffCount_keeps_old_entries :
    let t := ran .huffCount { ((ran .huffCount helloIn).storeAt .MSGBUF [0x23, 0x23]) with msgLen := 2 }
    t.nsym = 1 ∧ holds t .FMAP_SYM [0x23, 0x65, 0x6C, 0x6F, 0x23] = true ∧ t.fmapCnts 5 = some [2, 1, 2, 1, 1] := by
  decide +kernel

/-- L2-H13: the longest code at `NSYM - 1`. -/
theorem test_huffBuild_longest :
    let t := ran .huffBuild (mapState [(0x23, 1), (0x61, 1), (0x62, 2), (0x63, 4)] 4)
    t.maxCodeLen = 3 ∧ t.codeTable.map (fun c => [codeOf c 0x63, codeOf c 0x62, codeOf c 0x23, codeOf c 0x61]) =
      some [[false], [true, false], [true, true, false], [true, true, true]] := by decide +kernel
/-- L2-H15, second row, and L2-H19: the sum check comes after the delimiter check. -/
theorem test_huffBuild_errors :
    (ran .huffBuild (mapState [(0x23, 0xFFFFFFFF), (0x61, 1)] 2)).err = .freqOvf ∧
      (ran .huffBuild (mapState [(0x61, 0xFFFFFFFF), (0x62, 1)] 2)).err = .noDelim ∧
      (ran .huffBuild (mapState [(0x61, 0xFFFFFFFF), (0x61, 0xFFFFFFFF)] 2)).err = .fmap ∧
      (ran .huffBuild (mapState [] 257)).err = .fmap ∧
      (ran .huffBuild (mapState [(0x23, 0xFFFFFFFE), (0x61, 1)] 2)).err = .none := by decide +kernel

/-- L2-H1 and the window bytes of L2-H3. -/
theorem test_huffEncode_hello :
    helloOut.bitLen = 14 ∧ helloOut.nsym = 5 ∧ helloOut.maxCodeLen = 3 ∧ holds helloOut .BITBUF [0xDE, 0x84] = true ∧
      helloOut.byteAt 0x022D80 = some 0x80 ∧ helloOut.byteAt 0x022D00 = some 0xC0 ∧
      helloOut.byteAt 0x022CA0 = some 0xE0 ∧ helloOut.byteAt 0x022460 = some 0x40 := by decide +kernel
/-- L2-H8: "abracadabra#". -/
theorem test_huffEncode_abracadabra :
    let t := ran .huffEncode
      (messageState [0x61, 0x62, 0x72, 0x61, 0x63, 0x61, 0x64, 0x61, 0x62, 0x72, 0x61, 0x23] 12)
    t.bitLen = 28 ∧ t.maxCodeLen = 4 ∧ holds t .BITBUF [0x5C, 0xE7, 0xAE, 0x40] = true := by decide +kernel

/-- L2-H2, and L2-H18 with `OUT_MAX = 2`. -/
theorem test_huffDecode_hello :
    helloBack.outLen = 5 ∧ helloBack.decBits = 14 ∧ helloBack.delimFound = true ∧
      holds helloBack .OUTBUF [0x68, 0x65, 0x6C, 0x6C, 0x6F] = true ∧
      (ran .huffDecode { helloOut with params := shortOut }).err = .outOvf := by decide +kernel
/-- Decoding a bitstring under the table of "hello#". -/
def decodeHello (bits : Bitstring) : State := ran .huffDecode (helloOut.storeBits bits)

/-- The bits of "he" and one bit of the next code. -/
def insideCode : Bitstring := [true, true, false, true, true, true, true]

/-- The bits of "hello#" and one more. -/
def oneMore : Bitstring :=
  [true, true, false, true, true, true, true, false, true, false, false, false, false, true, true]

/-- L2-H16, rows 1, 2 and 3. -/
theorem test_huffDecode_corners :
    ((decodeHello []).outLen = 0 ∧ (decodeHello []).decBits = 0 ∧ (decodeHello []).delimFound = false) ∧
    ((decodeHello insideCode).outLen = 2 ∧ (decodeHello insideCode).decBits = 7 ∧
      (decodeHello insideCode).delimFound = false ∧ (decodeHello insideCode).err = .none) ∧
    ((decodeHello oneMore).outLen = 5 ∧ (decodeHello oneMore).decBits = 14 ∧
      (decodeHello oneMore).delimFound = true) := by decide +kernel

/-- L2-E4 and L2-E6. -/
theorem test_capCheck_boundary :
    let at_ (h w : BitVec 16) (n : Word) := ran .capCheck { State.reset with imgH := h, imgW := w, bitLen := n }
    (at_ 1 5 15).err = .none ∧ (at_ 1 5 15).capAvail = 15 ∧ (at_ 1 5 16).err = .capacity ∧ (at_ 1 5 16).capAvail = 15 ∧
      (at_ 1024 1024 0).err = .none ∧ (at_ 1024 1025 0).err = .dims ∧ (at_ 1024 1025 0).capAvail = 0 ∧
      (at_ 1 5 3145729).err = .bitLen ∧ (at_ 1 5 3145729).capAvail = 15 := by decide +kernel

/-- L2-E2. -/
theorem test_embed_carrier :
    embedded.capAvail = 15 ∧ embedded.err = .none ∧
      holds embedded .PIX [0, 0, 9, 12, 200, 202, 64, 255, 4, 7, 7, 9, 99, 102, 50] = true := by decide +kernel
/-- L2-E1: the wraps. -/
theorem test_embedSample_wraps :
    embedSample 0 false = 255 ∧ embedSample 255 true = 0 ∧ embedSample 2 false = 1 ∧ embedSample 127 true = 128 := by
  decide

/-- L2-E3, and L2-E8. -/
theorem test_extract_carrier :
    extracted.bitLen = 15 ∧ holds extracted .BITBUF [0xDE, 0x86] = true ∧ (ran .huffDecode extracted).decBits = 14 := by
  decide +kernel
/-- L2-E10: an unwritten sample. -/
theorem test_extract_unwritten :
    faultOf (exec .extract { State.reset.storeAt .PIX [1, 2] with imgH := 1, imgW := 1 }) = some .uninitRead := by
  decide +kernel

/-! ### Host access: L2-A -/

/-- The last response of a transaction. -/
def answer (r : Result) : Option Response :=
  match r with
  | .next t => t.responses.getLast?
  | .fault _ => none
  | .refused _ => none

theorem test_host_bus_errors :
    answer (hostAccess (.read 0x000004 .two) State.reset) = some .busError ∧
      answer (hostAccess (.read 0x000002 .four) State.reset) = some .busError ∧
      answer (hostAccess (.read 0x000034 .four) State.reset) = some .busError ∧
      answer (hostAccess (.read 0x020100 .one) State.reset) = some .busError ∧
      answer (hostAccess (.read 0x400001 .two) State.reset) = some .busError ∧
      answer (hostAccess (.read 0x030004 .two)
        { State.reset with params := { Config.Params.default with outMax := 5 } }) = some .busError := by decide +kernel
theorem test_host_registers :
    answer (hostAccess (.read 0x000018 .four) State.reset) = some (.data (.four 3)) ∧
      answer (hostAccess (.read 0x000030 .four) State.reset) = some (.data (.four 0x23)) ∧
      answer (hostAccess (.read 0x000000 .four) State.reset) = some (.data (.four 0)) ∧
      (State.reset.writeReg .NSYM 0xFFFFFFFF).readReg .NSYM = 0x1FF ∧
      (State.reset.writeReg .IMG_H 0xFFFFFFFF).readReg .IMG_H = 0xFFFF := by decide +kernel
/-- Bytes `44 33 22 11` with byte 1 replaced by `AA`. -/
theorem test_host_little_endian :
    answer (hostAccess (.read 0x020400 .four)
      ((State.reset.storeBytes 0x020400 (BusData.four 0x11223344).bytes).storeBytes 0x020401 [0xAA])) =
        some (.data (.four 0x1122AA44)) := by decide +kernel
theorem test_host_unwritten :
    faultOf (hostAccess (.read 0x010000 .one) State.reset) = some .uninitRead ∧
      faultOf (hostAccess (.read 0x022000 .one) State.reset) = some .uninitRead ∧
      faultOf (hostAccess (.read 0x020404 .four) (State.reset.storeBytes 0x020404 [1])) = some .uninitRead := by
  decide +kernel

/-- L2-C4 and P5: the second write while the command is pending, and a write of `MSG_LEN` there. -/
theorem test_overrun_and_hazard :
    (match hostAccess (.write 0x000000 (.four 0)) (State.reset.issue 0) with
      | .next t => (ran .nop t).statusWord
      | .fault _ => 0
      | .refused _ => 0) = 0x00000012 ∧
    faultOf (hostAccess (.write 0x000008 (.four 1)) (State.reset.issue 0)) = some .hazardWrite := by decide +kernel

theorem test_reset_memory_canonical : State.reset.mem.wf := by decide

/-! ### Witnesses: the hypotheses of each obligation, met together, clause by clause -/

/-- A state with a command pending. -/
def busyState : State := pendingState (encode .huffEncode) helloIn

theorem witness_DecodeInvertsEncode : Instr.nop.wf = true ∧ Instr.extract.wf = true := by decide

theorem witness_StepRunsDecodedCommand :
    (busyState.faulted = false ∧ busyState.engine = .pending 0x12 ∧ busyState.host = [] ∧
      decode 0x12 = .ok .huffEncode) ∧
    (let s : State := { busyState with host := [.wait], turns := [.engine, .host] };
      s.faulted = false ∧ s.engine = .pending 0x12 ∧ s.turns.head? ≠ some .host ∧
        goes (step s) = true) ∧
    decode 0x23 = .error (.unknownOpcode 0x23) := by decide +kernel

theorem witness_HostMovesWhenScheduledOrEngineIdle :
    (State.reset.faulted = false ∧ State.reset.engine = .idle ∧ State.reset.host = []) ∧
    (let s : State := { State.reset with host := [rdReg .STATUS] };
      s.faulted = false ∧ s.engine = .idle ∧ goes (step s) = true) ∧
    (let s : State := { busyState with host := [.wait], turns := [.host] };
      s.faulted = false ∧ s.engine = .pending 0x12 ∧ s.host ≠ [] ∧ s.turns = .host :: []) ∧
    ({ State.reset with host := [rdReg .STATUS, .wait] } : State).host =
      .access (.read 0x000004 .four) :: [.wait] := by decide +kernel

/-- The reserved bits, with a listed `OPC`; and an unlisted `OPC` next to the last listed one. -/
theorem witness_IllegalWordCompletesWithBadCmd :
    State.reset.engine = .idle ∧ (0x00000100 : Word).extractLsb' 8 24 ≠ 0 ∧
      (0x23 : Word).extractLsb' 0 8 ∉ legalOpcodes := by decide

theorem witness_FaultStopsTheRun :
    step { State.reset with host := [rd 0x010000 .one] } = .fault .uninitRead ∧
    ({ State.reset with faulted := true } : State).faulted = true ∧ State.reset.final :=
  ⟨eq_fault (by decide +kernel), rfl, ⟨rfl, rfl, rfl⟩⟩

/-- The idle end of `WAIT`; no poll, and two polls, each with a command that completes. -/
theorem witness_WaitEndsAfterTheScheduledPolls :
    (let s : State := { State.reset with host := [.wait, .reset] };
      s.faulted = false ∧ s.engine = .idle ∧ s.host = .wait :: [.reset]) ∧
    (let s : State := { busyState with host := [.wait], turns := [] };
      s.faulted = false ∧ s.engine = .pending 0x12 ∧ s.host = .wait :: [] ∧
        s.turns = List.replicate 0 .host ++ [] ∧ ([] : List Agent).head? ≠ some .host ∧ goes (step s) = true) ∧
    (let s : State := { busyState with host := [.wait], turns := [.host, .host, .engine] };
      s.faulted = false ∧ s.engine = .pending 0x12 ∧ s.host = .wait :: [] ∧
        s.turns = List.replicate 2 .host ++ [.engine] ∧ [Agent.engine].head? ≠ some .host ∧
        goes (step (s.afterSteps 2)) = true) := by decide +kernel

theorem witness_CmdWriteWhileIdleIssues :
    State.reset.engine = .idle ∧ State.reset.treeValid = false ∧ State.reset.delimFound = false ∧
      State.reset.cmdOvr = false := by decide

theorem witness_CmdWriteWhileBusyOnlySetsOverrun :
    busyState.engine = .pending 0x12 ∧
    (let s : State := { busyState with cmdOvr := true };
      s.cmdOvr = true ∧ goes (step s) = true) := by decide +kernel

theorem witness_ErrorDoesNotBlockNextCommand : abort .fmap busyState = .next (busyState.fail .fmap) := rfl

/-- Both ends of the parameters' ranges, a register, and the last access of a window. -/
theorem witness_AddressMapAndAlignment :
    (⟨1, 1, 1, 8⟩ : Config.Params).ok = true ∧ (⟨65536, 851968, 12582912, 25165824⟩ : Config.Params).ok = true ∧
    resolve Config.Params.default 0x000030 4 = some (.reg .DELIM_REG) ∧
    resolve Config.Params.default 0x0203FF 1 = none ∧ resolve Config.Params.default 0x0207FC 4 = some (.window .FMAP_CNT) ∧
    resolve Config.Params.default 0x6FFFFF 1 = some (.window .PIX) ∧
    resolve Config.Params.default 0x700000 1 = none := by decide +kernel

/-- A register by half, the first byte past the registers, and past the last window. -/
theorem witness_BusErrorChangesNothing :
    resolve State.reset.params (0x000004 : Addr).toNat AccessSize.two.bytes = none ∧
    resolve State.reset.params (0x000034 : Addr).toNat (BusData.four 0).size.bytes = none ∧
    resolve State.reset.params (0x700000 : Addr).toNat (BusData.one 0).size.bytes = none := by decide +kernel

theorem witness_WritableRegistersReadBack : State.reset.engine = .idle := rfl

theorem witness_ReadOnlyWritesAreIgnored :
    (resolve State.reset.params (0x000004 : Addr).toNat (BusData.four 0).size.bytes = some (.reg .STATUS) ∧
      Reg.STATUS ∈ ([.STATUS, .IMG_C, .CAP_AVAIL, .OUT_LEN, .DEC_BITS, .MAX_CODE_LEN, .DELIM_REG] : List Reg)) ∧
    (resolve State.reset.params (0x03FFFF : Addr).toNat (BusData.one 0).size.bytes = some (.window .OUTBUF) ∧
      Window.OUTBUF ∈ ([.CODE_LEN, .CODE, .OUTBUF] : List Window)) := by decide +kernel

theorem witness_BusyWriteFaults :
    busyState.engine = .pending 0x12 ∧
    (resolve busyState.params (0x000020 : Addr).toNat (BusData.four 0).size.bytes = some (.reg .NSYM) ∧
      Reg.NSYM ∈ ([.MSG_LEN, .BIT_LEN, .IMG_H, .IMG_W, .NSYM] : List Reg)) ∧
    (resolve busyState.params (0x01FFFF : Addr).toNat (BusData.one 0).size.bytes = some (.window .MSGBUF) ∧
      Window.MSGBUF ∈ ([.MSGBUF, .FMAP_SYM, .FMAP_CNT, .BITBUF, .PIX] : List Window)) := by decide +kernel

theorem witness_BusyReadIsFree :
    busyState.engine = .pending 0x12 ∧
    (resolve busyState.params (0x00002C : Addr).toNat AccessSize.four.bytes = some (.reg .MAX_CODE_LEN) ∧
      Reg.MAX_CODE_LEN ∉ ([.CMD, .STATUS, .IMG_C, .DELIM_REG] : List Reg)) ∧
    resolve busyState.params (0x03FFFE : Addr).toNat AccessSize.two.bytes = some (.window .OUTBUF) := by decide +kernel

/-- The last byte of a word is the unwritten one; the last word of the read-only window `CODE`, all written. -/
theorem witness_UnwrittenReadFaults :
    (let s := State.reset.storeBytes 0x020404 [1, 0, 0];
      s.engine = .idle ∧ resolve s.params (0x020404 : Addr).toNat AccessSize.four.bytes = some (.window .FMAP_CNT) ∧
        3 < AccessSize.four.bytes ∧ s.byteAt ((0x020404 : Addr).toNat + 3) = none) ∧
    (helloOut.engine = .idle ∧
      resolve helloOut.params (0x023FFC : Addr).toNat AccessSize.four.bytes = some (.window .CODE) ∧
      ∀ k < AccessSize.four.bytes, helloOut.byteAt ((0x023FFC : Addr).toNat + k) ≠ none) := by decide +kernel

theorem witness_WindowWriteReadsBackLittleEndian :
    State.reset.params.ok = true ∧ State.reset.engine = .idle ∧
    resolve State.reset.params (0x15FFFC : Addr).toNat (BusData.four 0x11223344).size.bytes = some (.window .BITBUF) ∧
      Window.BITBUF ∈ ([.MSGBUF, .FMAP_SYM, .FMAP_CNT, .BITBUF, .PIX] : List Window) := by decide +kernel

theorem witness_ReadsChangeNoBlockState :
    ∃ t, hostAccess (.read 0x010000 .two) helloIn = .next t := goes_next (by decide +kernel)

/-- The table of "hello#"; `#` has a code and `z` has none. The last bit of the bit buffer; the bits of "hello#". -/
theorem witness_CodeWindowsShowTheTable :
    helloOut.params.ok = true ∧ 3145727 < helloOut.params.bitbufBits ∧ helloOut.bits 14 ≠ none ∧ ∃ t, helloOut.codeTable = some t ∧ (codeOf t 0x23).length < 256 ∧ codeOf t 0x7A = [] := by
  refine ⟨by decide +kernel, by decide +kernel, by decide +kernel, codeTableOf (countSymbols hello), ?_⟩
  decide +kernel

theorem witness_ResetSetsRegistersAndClearsMarks :
    ({ busyState with host := [.reset, .wait] } : State).host = .reset :: [.wait] := rfl

theorem helloIn_inv : helloIn.Inv := by
  refine ⟨by decide, by decide +kernel, ?_, fun t h => ?_, fun h => ?_, by decide, by decide, by decide⟩
  · show ∀ c ∈ helloIn.mem, _
    have : helloIn.mem.all (fun c => decide (windowAt helloIn.params c.1 = some .MSGBUF)) = true := by decide +kernel
    exact fun c hc => ⟨.MSGBUF, by simpa using List.all_eq_true.1 this c hc, rfl⟩
  · exact absurd (show helloIn.codeTable = none from rfl) (by rw [h]; simp)
  · cases h

theorem witness_EveryStepKeepsInvariant :
    (pendingState 0x12 helloIn).Inv ∧ ∃ t, step (pendingState 0x12 helloIn) = .next t :=
  ⟨⟨helloIn_inv.params, helloIn_inv.memory, helloIn_inv.marks, helloIn_inv.table, helloIn_inv.treeValid,
    helloIn_inv.capAvail, helloIn_inv.outLen, helloIn_inv.decBits⟩, goes_next (by decide +kernel)⟩

theorem witness_BuildTreeMergesToOneRoot :
    stableSortByFreq [.leaf 1 2, .leaf 2 1] = .leaf 2 1 :: .leaf 1 2 :: [] ∧ countSymbols hello ≠ [] := by decide

theorem witness_CodesAreTheTreePaths :
    let l : Tree := .leaf 0x61 1
    let r : Tree := .leaf 0x23 1
    ((walk (.node 2 l r) []).map (·.1)).Nodup ∧ (0x23, [true]) ∈ walk (.node 2 l r) [] ∧
      0x23 ∈ (walk (.node 2 l r) []).map (·.1) ∧ follow (.node 2 l r) [true] = some (.leaf 0x23 1) ∧
      0x62 ∉ (walk (.node 2 l r) []).map (·.1) := by decide

/-- A map of the host's own. -/
def buildIn : State := mapState [(0x61, 3), (0x62, 1), (0x23, 1)] 3

theorem witness_BuiltTableIsPrefixFree :
    (buildIn.err = .none ∧ exec .huffBuild buildIn = .next (ran .huffBuild buildIn) ∧
      (ran .huffBuild buildIn).err = .none) ∧
    (helloIn.err = .none ∧ exec .huffEncode helloIn = .next helloOut ∧ helloOut.err = .none) :=
  ⟨⟨rfl, exec_ran (by decide +kernel), by decide +kernel⟩, ⟨rfl, exec_ran (by decide +kernel), by decide +kernel⟩⟩

/-- Three symbols, and the one symbol of L2-H4. -/
theorem witness_BuiltCodeLengthsAreBounded :
    (buildIn.err = .none ∧ exec .huffBuild buildIn = .next (ran .huffBuild buildIn) ∧
      (ran .huffBuild buildIn).err = .none ∧
      (ran .huffBuild buildIn).fmapSyms (ran .huffBuild buildIn).nsym.toNat = some [0x61, 0x62, 0x23]) ∧
    (let s := messageState [0x23] 1;
      s.err = .none ∧ exec .huffEncode s = .next (ran .huffEncode s) ∧ (ran .huffEncode s).err = .none ∧
        (ran .huffEncode s).fmapSyms (ran .huffEncode s).nsym.toNat = some [0x23]) :=
  ⟨⟨rfl, exec_ran (by decide +kernel), by decide +kernel, by decide +kernel⟩,
    ⟨rfl, exec_ran (by decide +kernel), by decide +kernel, by decide +kernel⟩⟩

theorem witness_BuiltCodeIsComplete :
    let fm : FreqMap := [(0x23, 1), (0x61, 1)]
    2 ≤ fm.length ∧ (fm.map (·.1)).Nodup ∧ maxLen (codeTableOf fm) ≤ [true].length := by decide +kernel

/-- `a` is 0 and `#` is 1. -/
def twoCodes : CodeTable := codesOf (.node 2 (.leaf 0x61 1) (.leaf 0x23 1))

theorem codeOf_twoCodes (x : Byte) :
    codeOf twoCodes x = if x = 0x61 then [false] else if x = 0x23 then [true] else [] := by
  rw [twoCodes, codeOf_codesOf]
  by_cases h1 : x = 0x61
  · subst h1; decide
  · by_cases h2 : x = 0x23
    · subst h2; decide
    · rw [if_neg h1, if_neg h2]
      exact codeIn_notMem (by simpa [leafCodes, walk] using ⟨h1, h2⟩)

theorem twoCodes_prefixFree : prefixFree twoCodes := by
  intro x y hxy hx hy
  rw [codeOf_twoCodes] at *
  rw [codeOf_twoCodes]
  split at hx
  · split at hy
    · exact absurd (‹x = 0x61›.trans ‹y = 0x61›.symm) hxy
    · split at hy
      · simp_all
      · exact absurd rfl hy
  · split at hx
    · split at hy
      · simp_all
      · split at hy
        · exact absurd (‹x = 0x23›.trans ‹y = 0x23›.symm) hxy
        · exact absurd rfl hy
    · exact absurd rfl hx

/-- The single-symbol table of L2-H4. -/
def oneCode : CodeTable := codesOf (.leaf 0x23 1)

theorem codeOf_oneCode (x : Byte) : codeOf oneCode x = if x = 0x23 then [false] else [] := by
  rw [oneCode, codeOf_codesOf]
  by_cases h : x = 0x23
  · subst h; decide
  · rw [if_neg h]
    exact codeIn_notMem (by simpa [leafCodes] using h)

theorem oneCode_prefixFree : prefixFree oneCode := by
  intro x y hxy hx hy
  rw [codeOf_oneCode] at hx hy
  split at hx
  · split at hy
    · exact absurd (‹x = 0x23›.trans ‹y = 0x23›.symm) hxy
    · exact absurd rfl hy
  · exact absurd rfl hx

/-- L2-H16, row 6: the bits "10" under the single-symbol table, no prefix of which is a code. -/
theorem witness_DecodeReadsCodesUntilDelimiter_noCode :
    oneCode.length = 256 ∧ prefixFree oneCode ∧ codeOf oneCode 0x23 ≠ [] ∧
      (∀ x ∈ ([] : List Byte), codeOf oneCode x ≠ [] ∧ x ≠ 0x23) ∧ ([] : List Byte).length ≤ 1 ∧
      ∀ y : Byte, codeOf oneCode y ≠ [] → ¬ codeOf oneCode y <+: [true, false] := by
  refine ⟨by decide +kernel, oneCode_prefixFree, by decide +kernel, by simp, by decide, fun y hy => ?_⟩
  rw [codeOf_oneCode] at *
  split
  · decide
  · rename_i h
    exact absurd (if_neg h) hy

/-- A text that just fits, one that is one symbol too long, and a stream that ends before the delimiter's bit. -/
theorem witness_DecodeReadsCodesUntilDelimiter :
    (twoCodes.length = 256 ∧ prefixFree twoCodes ∧ codeOf twoCodes 0x23 ≠ [] ∧
      ∀ x ∈ ([0x61, 0x61] : List Byte), codeOf twoCodes x ≠ [] ∧ x ≠ 0x23) ∧
    ([0x61, 0x61] : List Byte).length ≤ 2 ∧ 1 < ([0x61, 0x61] : List Byte).length ∧
    codeOf twoCodes 0x23 = [] ++ [true] ∧ ([true] : Bitstring) ≠ [] :=
  ⟨⟨by decide +kernel, twoCodes_prefixFree, by decide +kernel, by decide +kernel⟩, by decide, by decide,
    by decide +kernel, by decide⟩

/-- One symbol too many; the longest length with nothing written; a whole message. -/
theorem witness_HuffCountResult :
    State.reset.params.ok = true ∧
    State.reset.params.msgMax < (messageState hello 65537).msgLen.toNat ∧
    ((messageState hello 65536).msgLen.toNat ≤ State.reset.params.msgMax ∧
      (messageState hello 7).msgLen.toNat ≤ State.reset.params.msgMax ∧ (messageState hello 7).message = none) ∧
    (helloIn.msgLen.toNat ≤ helloIn.params.msgMax ∧ helloIn.message = some hello) := by decide +kernel

/-- A map whose counts sum to `2 ^ 32 - 1`. -/
theorem witness_HuffBuildResult :
    let s := mapState [(0x23, 0xFFFFFFFE), (0x61, 1)] 2
    1 ≤ s.nsym.toNat ∧ s.nsym.toNat ≤ 256 ∧ s.fmapSyms s.nsym.toNat = some [0x23, 0x61] ∧
      ([0x23, 0x61] : List Byte).Nodup ∧ 0x23 ∈ ([0x23, 0x61] : List Byte) ∧
      s.fmapCnts s.nsym.toNat = some [0xFFFFFFFE, 1] ∧ [0xFFFFFFFE, 1].sum ≤ 2 ^ 32 - 1 := by decide +kernel

/-- Each row of L2-H19, `NSYM` 256 with entries missing, and a map whose second count is missing. -/
theorem witness_HuffBuildFirstFailingCheck :
    (mapState [] 0).nsym.toNat = 0 ∧ 256 < (mapState [] 257).nsym.toNat ∧
    ((mapState [] 256).nsym.toNat ≤ 256 ∧ (mapState [(0x23, 1)] 2).fmapSyms 2 = none) ∧
    (mapState [(0x61, 1), (0x61, 1)] 2).fmapSyms 2 = some [0x61, 0x61] ∧ ¬ ([0x61, 0x61] : List Byte).Nodup ∧
    ((mapState [(0x61, 1)] 1).fmapSyms 1 = some [0x61] ∧ ([0x61] : List Byte).Nodup ∧ 0x23 ∉ ([0x61] : List Byte)) ∧
    (let s := { State.reset.storeAt .FMAP_SYM [0x23, 0x61] with nsym := 2 };
      s.fmapSyms 2 = some [0x23, 0x61] ∧ s.fmapCnts 2 = none) ∧
    (let s := mapState [(0x23, 0xFFFFFFFF), (0x61, 1)] 2;
      s.fmapSyms 2 = some [0x23, 0x61] ∧ s.fmapCnts 2 = some [0xFFFFFFFF, 1] ∧ 2 ^ 32 - 1 < [0xFFFFFFFF, 1].sum) := by
  decide +kernel

/-- L2-H20, last row: parameters with a bit buffer of one byte. -/
def shortBits : Config.Params := { Config.Params.default with pixMax := 8, bitbufBits := 8 }

theorem witness_HuffEncodeResult :
    helloIn.params.ok = true ∧ helloIn.msgLen.toNat ≤ helloIn.params.msgMax ∧ helloIn.message = some hello ∧
      0x23 ∈ hello ∧
      (encodeMessage (codeTableOf (countSymbols hello)) hello).length ≤ helloIn.params.bitbufBits := by decide +kernel

theorem witness_HuffEncodeFirstFailingCheck :
    State.reset.params.msgMax < (messageState [] 65537).msgLen.toNat ∧
    ((messageState [] 1).msgLen.toNat ≤ State.reset.params.msgMax ∧ (messageState [] 1).message = none) ∧
    (messageState [] 0).message = some [] ∧
    ((messageState [0x61, 0x62] 2).message = some [0x61, 0x62] ∧ 0x23 ∉ ([0x61, 0x62] : List Byte)) ∧
    (let s : State := { helloIn with params := shortBits };
      s.params.ok = true ∧ s.message = some hello ∧ 0x23 ∈ hello ∧
        s.params.bitbufBits < (encodeMessage (codeTableOf (countSymbols hello)) hello).length) := by decide +kernel

theorem witness_EncodedLengthIsWeightedSum :
    helloIn.params.ok = true ∧ helloIn.err = .none ∧ exec .huffEncode helloIn = .next helloOut ∧ helloOut.err = .none ∧
      helloOut.fmapSyms helloOut.nsym.toNat = some [0x68, 0x65, 0x6C, 0x6F, 0x23] ∧
      helloOut.fmapCnts helloOut.nsym.toNat = some [1, 1, 2, 1, 1] ∧
      helloOut.codeTable = some (codeTableOf (countSymbols hello)) :=
  ⟨by decide, rfl, exec_ran (by decide +kernel), by decide +kernel, by decide +kernel, by decide +kernel,
    by decide +kernel⟩

/-- A decode that meets the delimiter, and the empty stream, which does not. -/
theorem witness_HuffDecodeResult :
    (helloOut.treeValid = true ∧ helloOut.codeTable = some (codeTableOf (countSymbols hello)) ∧
      helloOut.bitLen.toNat ≤ helloOut.params.bitbufBits ∧
      decodeBits (codeTableOf (countSymbols hello)) helloOut.params.outMax (helloOut.bitStream helloOut.bitLen.toNat) =
        .text [0x68, 0x65, 0x6C, 0x6C, 0x6F] 14 true) ∧
    decodeBits (codeTableOf (countSymbols hello)) 65536 [] = .text [] 0 false := by decide +kernel

/-- One byte of bits, `110 111 11`: "he" and a part of the next code, and then a bit that has never been written. -/
def unwrittenEnd : State := { { helloOut with mem := [] }.storeBytes 0x100000 [0xDF] with bitLen := 9 }

theorem witness_HuffDecodeFirstFailingCheck :
    State.reset.treeValid = false ∧
    (let s : State := { helloOut with bitLen := 3145729 };
      s.treeValid = true ∧ s.params.bitbufBits < s.bitLen.toNat) ∧
    (unwrittenEnd.params.ok = true ∧ unwrittenEnd.treeValid = true ∧
      unwrittenEnd.bitLen.toNat ≤ unwrittenEnd.params.bitbufBits ∧
      unwrittenEnd.codeTable = some (codeTableOf (countSymbols hello)) ∧
      decodeBits (codeTableOf (countSymbols hello)) unwrittenEnd.params.outMax
        (unwrittenEnd.bitStream unwrittenEnd.bitLen.toNat) = .unwritten) ∧
    (let s : State := { helloOut with params := shortOut };
      s.params.ok = true ∧ s.treeValid = true ∧ s.bitLen.toNat ≤ s.params.bitbufBits ∧
        decodeBits (codeTableOf (countSymbols hello)) s.params.outMax (s.bitStream s.bitLen.toNat) = .overflow) := by
  decide +kernel

/-- The same table and bits in a state whose other registers differ. -/
def otherState : State := { helloOut with msgLen := 99, imgH := 7, outLen := 3 }

theorem witness_DecodeDependsOnTableAndBitsOnly :
    (otherState.params = helloOut.params ∧ otherState.treeValid = helloOut.treeValid ∧
      otherState.codeTable = helloOut.codeTable ∧ otherState.bitLen = helloOut.bitLen ∧
      (∀ i < helloOut.bitLen.toNat, otherState.bit i = helloOut.bit i) ∧ helloOut.err = .none ∧
      otherState.err = .none) ∧ exec .huffDecode helloOut = .next helloBack :=
  ⟨⟨rfl, rfl, rfl, rfl, fun _ _ => rfl, by decide +kernel, by decide +kernel⟩, exec_ran (by decide +kernel)⟩

/-- The bits alone, and with one more bit after them (L2-E3). -/
theorem witness_HuffmanRoundTrip :
    (helloIn.params.ok = true ∧ helloIn.err = .none ∧ helloIn.message = some ([0x68, 0x65, 0x6C, 0x6C, 0x6F] ++ 0x23 :: []) ∧
      0x23 ∉ ([0x68, 0x65, 0x6C, 0x6C, 0x6F] : List Byte) ∧
      ([0x68, 0x65, 0x6C, 0x6C, 0x6F] : List Byte).length ≤ helloIn.params.outMax) ∧
    (exec .huffEncode helloIn = .next helloOut ∧ helloOut.err = .none) ∧
    (let u : State := { helloOut with bitLen := 15 };
      u.params = helloOut.params ∧ u.treeValid = helloOut.treeValid ∧ u.codeTable = helloOut.codeTable ∧
        helloOut.bitLen.toNat ≤ u.bitLen.toNat ∧ u.bitLen.toNat ≤ u.params.bitbufBits ∧
        ∀ i < helloOut.bitLen.toNat, u.bit i = helloOut.bit i) :=
  ⟨by decide +kernel, ⟨exec_ran (by decide +kernel), by decide +kernel⟩,
    ⟨rfl, rfl, rfl, by decide +kernel, by decide +kernel, fun _ _ => rfl⟩⟩

theorem witness_EmbedSampleCarriesTheBit :
    (0 : Byte).toNat % 2 = 0 ∧ (255 : Byte).toNat % 2 = 1 ∧ extractSample 128 = true := by decide

/-- A grid for the capacity check. -/
def grid (h w : BitVec 16) (n : Word) : State := { State.reset with imgH := h, imgW := w, bitLen := n }

/-- One clause each, at the limits of L2-E4, L2-E6 and L2-E7. -/
theorem witness_CapCheckResult :
    ((grid 1024 1025 0).params.pixMax < 1024 * 1025 * 3) ∧
    (1 * 5 * 3 ≤ (grid 1 5 3145729).params.pixMax ∧
      (grid 1 5 3145729).params.bitbufBits < (grid 1 5 3145729).bitLen.toNat) ∧
    ((grid 1 5 16).bitLen.toNat ≤ (grid 1 5 16).params.bitbufBits ∧ 1 * 5 * 3 < (grid 1 5 16).bitLen.toNat) ∧
    ((grid 1 5 15).bitLen.toNat ≤ (grid 1 5 15).params.bitbufBits ∧ (grid 1 5 15).bitLen.toNat ≤ 1 * 5 * 3) ∧
    ((grid 1024 1024 0).params.ok = true ∧ 1024 * 1024 * 3 ≤ (grid 1024 1024 0).params.pixMax) := by decide +kernel

/-- The first 14 bits of "hello#", and the samples under them. -/
def helloBits : Bitstring :=
  [true, true, false, true, true, true, true, false, true, false, false, false, false, true]

theorem witness_EmbedResult :
    carrierIn.params.ok = true ∧ carrierIn.imgH.toNat * carrierIn.imgW.toNat * 3 ≤ carrierIn.params.pixMax ∧
      carrierIn.bitLen.toNat ≤ carrierIn.params.bitbufBits ∧
      carrierIn.bitLen.toNat ≤ carrierIn.imgH.toNat * carrierIn.imgW.toNat * 3 ∧
      carrierIn.bits carrierIn.bitLen.toNat = some helloBits ∧
      carrierIn.pixels carrierIn.bitLen.toNat = some (carrier.take 14) := by decide +kernel

theorem witness_EmbedExtractFirstFailingCheck :
    ((grid 1024 1025 0).params.pixMax < 1024 * 1025 * 3) ∧
    ((grid 1 5 3145729).params.bitbufBits < (grid 1 5 3145729).bitLen.toNat) ∧
    (1 * 5 * 3 < (grid 1 5 16).bitLen.toNat) ∧
    ((grid 1 5 15).bits (grid 1 5 15).bitLen.toNat = none ∧ (grid 1 5 15).bitLen.toNat ≤ 1 * 5 * 3) ∧
    (let s : State := { helloOut with imgH := 1, imgW := 5 };
      s.bits s.bitLen.toNat = some helloBits ∧ s.pixels s.bitLen.toNat = none ∧ s.pixels (1 * 5 * 3) = none) := by
  decide +kernel

theorem witness_CapacityBoundary :
    (let s : State := { carrierIn with bitLen := 15 };
      15 = s.imgH.toNat * s.imgW.toNat * 3 ∧ s.params.ok = true ∧ 15 ≤ s.params.pixMax ∧ s.err = .none ∧
        s.bitLen.toNat = 15 ∧ s.bits 15 ≠ none ∧ s.pixels 15 ≠ none) ∧
    (let s : State := { carrierIn with bitLen := 16 };
      s.bitLen.toNat = 15 + 1 ∧ 15 + 1 ≤ s.params.bitbufBits) := by decide +kernel

/-- A grid with samples, and the empty grid of L2-E5. -/
theorem witness_ExtractResult :
    (carrierIn.params.ok = true ∧ carrierIn.imgH.toNat * carrierIn.imgW.toNat * 3 ≤ carrierIn.params.pixMax ∧
      carrierIn.pixels (carrierIn.imgH.toNat * carrierIn.imgW.toNat * 3) = some carrier) ∧
    State.reset.pixels (State.reset.imgH.toNat * State.reset.imgW.toNat * 3) = some [] := by decide +kernel

/-- The last sample that carries a bit; another sample for the second clause. -/
theorem witness_EmbedFollowsRasterOrder :
    carrierIn.err = .none ∧ exec .embed carrierIn = .next embedded ∧ embedded.err = .none ∧
      0 < carrierIn.imgH.toNat ∧ 4 < carrierIn.imgW.toNat ∧ 1 < 3 ∧
      pixIndex carrierIn.imgW.toNat 0 4 1 < carrierIn.bitLen.toNat ∧
      pixIndex carrierIn.imgW.toNat 0 4 1 = pixIndex carrierIn.imgW.toNat 0 4 1 :=
  ⟨by decide +kernel, exec_ran (by decide +kernel), by decide +kernel, by decide +kernel, by decide +kernel, by decide,
    by decide +kernel, rfl⟩

theorem witness_EmbeddingTwiceChangesNothing :
    carrierIn.params.ok = true ∧ carrierIn.err = .none ∧ exec .embed carrierIn = .next embedded ∧
      embedded.err = .none :=
  ⟨by decide +kernel, by decide +kernel, exec_ran (by decide +kernel), by decide +kernel⟩

/-- After 14 bits one sample is left untouched. -/
theorem witness_EmbedThenExtract :
    (carrierIn.params.ok = true ∧ carrierIn.err = .none ∧ exec .embed carrierIn = .next embedded ∧
      embedded.err = .none ∧ carrierIn.bits carrierIn.bitLen.toNat = some helloBits) ∧
    (embedded.params = carrierIn.params ∧ embedded.imgH = carrierIn.imgH ∧ embedded.imgW = carrierIn.imgW ∧
      embedded.pixels (carrierIn.imgH.toNat * carrierIn.imgW.toNat * 3) ≠ none) ∧
    (carrierIn.bitLen.toNat ≤ 14 ∧ 14 < 15) :=
  ⟨⟨by decide +kernel, by decide +kernel, exec_ran (by decide +kernel), by decide +kernel, by decide +kernel⟩,
    by decide +kernel, by decide +kernel⟩

/-- "hello#" on the 1 × 5 carrier: 14 bits into 15 samples. -/
theorem witness_EncodeEmbedExtractDecodeRecoversMessage :
    let s : State := { helloIn.storeAt .PIX carrier with imgH := 1, imgW := 5 }
    s.params.ok = true ∧ s.err = .none ∧ s.msgLen.toNat ≤ s.params.msgMax ∧
      s.message = some ([0x68, 0x65, 0x6C, 0x6C, 0x6F] ++ 0x23 :: []) ∧
      0x23 ∉ ([0x68, 0x65, 0x6C, 0x6C, 0x6F] : List Byte) ∧
      ([0x68, 0x65, 0x6C, 0x6C, 0x6F] : List Byte).length ≤ s.params.outMax ∧
      s.imgH.toNat * s.imgW.toNat * 3 ≤ s.params.pixMax ∧
      s.pixels (s.imgH.toNat * s.imgW.toNat * 3) ≠ none ∧
      (encodeMessage (codeTableOf (countSymbols ([0x68, 0x65, 0x6C, 0x6C, 0x6F] ++ 0x23 :: [])))
        ([0x68, 0x65, 0x6C, 0x6C, 0x6F] ++ 0x23 :: [])).length ≤ s.imgH.toNat * s.imgW.toNat * 3 := by decide +kernel

/-- An error that keeps `CAP_AVAIL`, one that writes it, and `E_OUTOVF`. -/
theorem witness_AbortCommitsNothing :
    (exec .embed (grid 1 5 16) = .next (ran .embed (grid 1 5 16)) ∧ (grid 1 5 16).params.ok = true ∧
      (grid 1 5 16).err = .none ∧ (ran .embed (grid 1 5 16)).err = .capacity) ∧
    (exec .capCheck (grid 1024 1025 0) = .next (ran .capCheck (grid 1024 1025 0)) ∧
      (ran .capCheck (grid 1024 1025 0)).err = .dims) ∧
    (let s : State := { helloOut with params := shortOut };
      exec .huffDecode s = .next (ran .huffDecode s) ∧ s.params.ok = true ∧ s.err = .none ∧
        (ran .huffDecode s).err = .outOvf) :=
  ⟨⟨exec_ran (by decide +kernel), by decide +kernel, rfl, by decide +kernel⟩,
    ⟨exec_ran (by decide +kernel), by decide +kernel⟩,
    ⟨exec_ran (by decide +kernel), by decide +kernel, by decide +kernel, by decide +kernel⟩⟩

/-- A command and a state for each error, and an illegal word. -/
theorem witness_ErrorsComeFromTheirCauses :
    (runWord 0x23 State.reset = .next (State.reset.fail .badCmd) ∧ State.reset.err = .none) ∧
    (ran .capCheck (grid 1 5 16)).err = .capacity ∧ (ran .huffDecode State.reset).err = .noTree ∧
    (ran .huffBuild State.reset).err = .fmap ∧ (ran .huffEncode State.reset).err = .fmap ∧
    (ran .huffEncode (messageState [0x61] 1)).err = .noDelim ∧
    (ran .huffBuild (mapState [(0x61, 1)] 1)).err = .noDelim ∧
    (ran .huffBuild (mapState [(0x23, 0xFFFFFFFF), (0x61, 1)] 2)).err = .freqOvf ∧
    (ran .huffCount (messageState [] 65537)).err = .msgLen ∧ (ran .embed (grid 1 5 3145729)).err = .bitLen ∧
    (ran .huffEncode { helloIn with params := shortBits }).err = .bitLen ∧
    (ran .extract (grid 1024 1025 0)).err = .dims ∧
    (ran .huffDecode { helloOut with params := shortOut }).err = .outOvf :=
  ⟨⟨rfl, rfl⟩, by decide +kernel⟩

/-- A command that writes, and one that writes nothing but its completion; an address in each kind of window. -/
theorem witness_CommandsWriteOnlyTheirResults :
    helloIn.params.ok = true ∧ exec .huffEncode helloIn = .next helloOut ∧
    exec .nop helloIn = .next (ran .nop helloIn) ∧
    windowAt helloIn.params 0x010000 = some .MSGBUF ∧ windowAt helloIn.params 0x0207FF = some .FMAP_CNT ∧
    windowAt helloIn.params 0x0200FF = some .FMAP_SYM ∧ windowAt helloIn.params 0x0210FF = some .CODE_LEN ∧
    windowAt helloIn.params 0x023FFF = some .CODE ∧ windowAt helloIn.params 0x03FFFF = some .OUTBUF ∧
    windowAt helloIn.params 0x15FFFF = some .BITBUF ∧ windowAt helloIn.params 0x6FFFFF = some .PIX :=
  ⟨by decide +kernel, exec_ran (by decide +kernel), exec_ran (by decide +kernel), by decide +kernel, by decide +kernel,
    by decide +kernel, by decide +kernel, by decide +kernel, by decide +kernel, by decide +kernel, by decide +kernel⟩

end Sys2Proof.Tests
end

section
/-! `StableSortByFreq` sorts and is stable (00_scope.md R10). -/
namespace Sys2Proof.Machine

/-- Frequencies are compared in a total preorder, which is all that insertion sort needs to sort. -/
theorem stableSortByFreq_pairwise (l : List Tree) :
    (stableSortByFreq l).Pairwise fun a b => treeFreq a ≤ treeFreq b := by
  have : Std.Total fun a b : Tree => treeFreq a ≤ treeFreq b := ⟨fun _ _ => Nat.le_total _ _⟩
  have : IsTrans Tree fun a b => treeFreq a ≤ treeFreq b := ⟨fun _ _ _ => Nat.le_trans⟩
  exact List.pairwise_insertionSort _ l

theorem stableSortByFreq_cons (a : Tree) (l : List Tree) : stableSortByFreq (a :: l) =
    (stableSortByFreq l).orderedInsert (fun a b => treeFreq a ≤ treeFreq b) a := rfl

/-- Stability: each insertion keeps the order inside every frequency (`filter_orderedInsert`). -/
theorem filter_stableSortByFreq (l : List Tree) (f : Nat) :
    (stableSortByFreq l).filter (fun t => decide (treeFreq t = f)) = l.filter fun t => decide (treeFreq t = f) := by
  induction l with
  | nil => rfl
  | cons a l ih =>
    rw [stableSortByFreq_cons, filter_orderedInsert, List.filter_cons, ih, List.filter_cons]

/-- Settles O30: insertion sort permutes and sorts, and each of its insertions keeps the order of equal frequencies. -/
theorem stableSortIsStable : Obligations.StableSortIsStable := fun l =>
  ⟨stableSortByFreq_perm l, stableSortByFreq_pairwise l, filter_stableSortByFreq l⟩

end Sys2Proof.Machine
end

section
/-! The decoder accepts the nine words of 30_encoding.md R61 and no other; an illegal word written while idle completes
with `E_BADCMD` (R62). -/
namespace Sys2Proof

/-- `OPC` selects a command exactly when it is the `OPC` of that command's full word. -/
theorem decodeOpc_eq_ok_iff {opc : Byte} {i : Instr} : decodeOpc opc = .ok i ↔ opc = opcField (encode i) := by
  constructor
  · intro h
    unfold decodeOpc at h
    split_ifs at h <;> cases h <;> assumption
  · rintro rfl
    cases i <;> rfl

/-- `RSVD` and `OPC` are all the bits of a command word (R59). -/
theorem rsvdField_append_opcField (w : Word) : rsvdField w ++ opcField w = w :=
  BitVec.extractLsb'_append_extractLsb' (w := 24) (len := 8)

theorem rsvdField_encode (i : Instr) : rsvdField (encode i) = 0 := by cases i <;> rfl

/-- A word decodes in two checks: the reserved bits, then `OPC` (R71). -/
theorem decode_eq_ok_iff_fields {w : Word} {i : Instr} :
    decode w = .ok i ↔ rsvdField w = 0 ∧ decodeOpc (opcField w) = .ok i := by
  unfold decode
  split_ifs with h
  · exact ⟨nofun, fun ⟨hr, _⟩ => absurd hr h⟩
  · exact (and_iff_right (not_not.1 h)).symm

/-- A command is decoded from its full word and from no other. -/
theorem decode_eq_ok_iff {w : Word} {i : Instr} : decode w = .ok i ↔ w = encode i := by
  rw [decode_eq_ok_iff_fields, decodeOpc_eq_ok_iff]
  constructor
  · rintro ⟨hr, ho⟩
    rw [← rsvdField_append_opcField w, ← rsvdField_append_opcField (encode i), hr, ho, rsvdField_encode]
  · rintro rfl
    exact ⟨rsvdField_encode i, rfl⟩

/-- The listed `OPC` values are those of the nine commands' words. -/
theorem mem_legalOpcodes_iff {opc : Byte} : opc ∈ legalOpcodes ↔ ∃ i, opc = opcField (encode i) := by
  have hmap : legalOpcodes = Instr.all.map fun i => opcField (encode i) := rfl
  have hall : ∀ i, i ∈ Instr.all := fun i => by cases i <;> decide
  simp [hmap, hall, eq_comm]

/-- The words that decode are the legal ones of R61. -/
theorem exists_decode_eq_ok_iff {w : Word} :
    (∃ i, decode w = .ok i) ↔ rsvdField w = 0 ∧ opcField w ∈ legalOpcodes := by
  simp only [decode_eq_ok_iff_fields, decodeOpc_eq_ok_iff, exists_and_left, mem_legalOpcodes_iff]

/-- Settles O1: each of the nine clauses is `decode_eq_ok_iff` at that command. -/
theorem decoderAcceptsExactlyTheListedWords : Obligations.DecoderAcceptsExactlyTheListedWords := fun _ =>
  ⟨exists_decode_eq_ok_iff, decode_eq_ok_iff, decode_eq_ok_iff, decode_eq_ok_iff, decode_eq_ok_iff, decode_eq_ok_iff,
    decode_eq_ok_iff, decode_eq_ok_iff, decode_eq_ok_iff, decode_eq_ok_iff⟩

/-- An illegal word is one that the decoder turns away (R62). -/
theorem exists_decode_eq_error {w : Word} (h : rsvdField w ≠ 0 ∨ opcField w ∉ legalOpcodes) :
    ∃ e, decode w = .error e := by
  cases hd : decode w with
  | error e => exact ⟨e, rfl⟩
  | ok i =>
    obtain ⟨hr, ho⟩ := exists_decode_eq_ok_iff.1 ⟨i, hd⟩
    exact h.elim (absurd hr) (absurd ho)

end Sys2Proof

namespace Sys2Proof.Machine

/-- An aligned word access at offset 0 reaches `CMD`, whatever the parameters. -/
theorem resolve_cmd (p : Config.Params) : resolve p 0 4 = some (.reg .CMD) := rfl

/-- A word written to `CMD` is always answered, as an issue or as an overrun (40_host_access.md R67). -/
theorem hostAccess_write_cmd (s : State) (w : Word) :
    hostAccess (.write 0x000000 (.four w)) s = .next ((s.writeCmd w).respond .ok) := by
  have hvalue : BitVec.ofNat 32 (BusData.four w).value = w :=
    (BitVec.ofNat_toNat 32 w).trans w.setWidth_eq
  have hresolve : resolve s.params (0x000000 : Addr).toNat (BusData.four w).size.bytes = some (.reg .CMD) :=
    resolve_cmd s.params
  simp only [hostAccess, hostWrite, hresolve, Reg.access, hvalue]

/-- A write to `CMD` of an idle block issues the word (R68). -/
theorem writeCmd_of_idle {s : State} (h : s.engine = .idle) (w : Word) : s.writeCmd w = s.issue w := by
  simp [State.writeCmd, State.busy, h]

/-- The engine completes a word that does not decode with `E_BADCMD` (R71). -/
theorem runWord_of_decode_error {w : Word} {e : DecodeError} (h : decode w = .error e) (s : State) :
    runWord w s = .next (s.fail .badCmd) := by
  simp [runWord, h, abort]

/-- Settles O6: the word is issued, and the engine step on it is the completion with `E_BADCMD`. -/
theorem illegalWordCompletesWithBadCmd : Obligations.IllegalWordCompletesWithBadCmd := by
  intro s w hidle hw
  obtain ⟨e, he⟩ := exists_decode_eq_error hw
  refine ⟨(s.issue w).respond .ok, ?_, rfl, runWord_of_decode_error he _⟩
  rw [hostAccess_write_cmd, writeCmd_of_idle hidle]

end Sys2Proof.Machine
end

section
/-! A `CMD` write while idle is an issue (40_host_access.md R68); a write to a RW register or window while busy is the
fault `HazardWrite` (R73). -/
namespace Sys2Proof.Machine

theorem busy_of_pending {s : State} {w : Word} (h : s.engine = .pending w) : s.busy = true := by
  simp [State.busy, h]

/-- `STATUS` does not show the bus's answers. -/
@[simp] theorem statusWord_respond (s : State) (r : Response) : (s.respond r).statusWord = s.statusWord := rfl

/-- After an issue `STATUS` holds `LAST_OP`, the three flags that an issue keeps, and `BUSY` (R20, R68). -/
theorem statusWord_issue (s : State) (w : Word) : (s.issue w).statusWord =
    (0 : BitVec 8) ++ opcField w ++ (0 : BitVec 4) ++ (0 : BitVec 4) ++ (0 : BitVec 3) ++ flagBit s.cmdOvr
      ++ flagBit s.delimFound ++ flagBit s.treeValid ++ (0 : BitVec 1) ++ (1 : BitVec 1) := rfl

/-- Settles O10: the write is the issue of the word, answered; the example is `statusWord_issue` with clear flags. -/
theorem cmdWriteWhileIdleIssues : Obligations.CmdWriteWhileIdleIssues := by
  intro s w hidle
  refine ⟨(s.issue w).respond .ok, ?_, busy_of_pending rfl, rfl, ?_⟩
  · rw [hostAccess_write_cmd, writeCmd_of_idle hidle]
  · rintro rfl htree hdelim hovr
    rw [statusWord_respond, statusWord_issue, htree, hdelim, hovr]
    rfl

/-- The RW registers of 10_state.md R17. -/
theorem Reg.access_eq_rw_iff {r : Reg} :
    r.access = .rw ↔ r ∈ ([.MSG_LEN, .BIT_LEN, .IMG_H, .IMG_W, .NSYM] : List Reg) := by
  cases r <;> decide

/-- The RW windows of 20_memory.md R43. -/
theorem Window.access_eq_rw_iff {v : Window} :
    v.access = .rw ↔ v ∈ ([.MSGBUF, .FMAP_SYM, .FMAP_CNT, .BITBUF, .PIX] : List Window) := by
  cases v <;> decide

section
variable {s : State} {a : Addr} {d : BusData} (hbusy : s.busy = true)
include hbusy

theorem hostAccess_write_reg_of_busy {r : Reg} (hreach : resolve s.params a.toNat d.size.bytes = some (.reg r))
    (hrw : r.access = .rw) : hostAccess (.write a d) s = .fault .hazardWrite := by
  simp only [hostAccess, hostWrite, hreach, hrw, hbusy, if_true]

theorem hostAccess_write_window_of_busy {v : Window}
    (hreach : resolve s.params a.toNat d.size.bytes = some (.window v)) (hrw : v.access = .rw) :
    hostAccess (.write a d) s = .fault .hazardWrite := by
  simp only [hostAccess, hostWrite, hreach, hrw, hbusy, if_true]

end

/-- Settles O18: the listed registers and windows are those the host may write, and `BUSY` turns such a write into the
fault. -/
theorem busyWriteFaults : Obligations.BusyWriteFaults := by
  rintro s w a d hpending (⟨r, hreach, hr⟩ | ⟨v, hreach, hv⟩)
  · exact hostAccess_write_reg_of_busy (busy_of_pending hpending) hreach (Reg.access_eq_rw_iff.2 hr)
  · exact hostAccess_write_window_of_busy (busy_of_pending hpending) hreach (Window.access_eq_rw_iff.2 hv)

end Sys2Proof.Machine
end

section
/-! Count lists each symbol of a message once, in order of first occurrence, with its count (41_huffman.md R74). -/
namespace Sys2Proof.Machine

theorem mem_keys_countSymbol {fm : FreqMap} {x y : Byte} :
    x ∈ (countSymbol fm y).map (·.1) ↔ x ∈ fm.map (·.1) ∨ x = y := by
  rw [keys_countSymbol]
  split
  next h => exact ⟨.inl, fun hx => hx.elim id fun hxy => hxy ▸ h⟩
  next => simp

theorem mem_keys_countSymbols {msg : List Byte} {x : Byte} : x ∈ (countSymbols msg).map (·.1) ↔ x ∈ msg := by
  induction msg using List.reverseRecOn with
  | nil => simp [countSymbols]
  | append_singleton msg y ih =>
    rw [countSymbols_append_singleton, mem_keys_countSymbol, ih, List.mem_append, List.mem_singleton]

/-- A new symbol is listed last, and every symbol listed before it occurred earlier. -/
theorem keys_countSymbols_pairwise (msg : List Byte) :
    ((countSymbols msg).map (·.1)).Pairwise fun x y => msg.idxOf x < msg.idxOf y := by
  induction msg using List.reverseRecOn with
  | nil => exact List.Pairwise.nil
  | append_singleton msg y ih =>
    have hold : ((countSymbols msg).map (·.1)).Pairwise fun a b => (msg ++ [y]).idxOf a < (msg ++ [y]).idxOf b :=
      ih.imp_of_mem fun ha hb hab => by
        rwa [List.idxOf_append_of_mem (mem_keys_countSymbols.1 ha),
          List.idxOf_append_of_mem (mem_keys_countSymbols.1 hb)]
    rw [countSymbols_append_singleton, keys_countSymbol]
    split
    next => exact hold
    next hy =>
      refine List.pairwise_append.2 ⟨hold, List.pairwise_singleton _ _, fun a ha b hb => ?_⟩
      have ha := mem_keys_countSymbols.1 ha
      rw [List.mem_singleton.1 hb, List.idxOf_append_of_mem ha,
        List.idxOf_append_of_notMem fun h => hy (mem_keys_countSymbols.2 h)]
      exact Nat.lt_add_right _ (List.idxOf_lt_length_iff.2 ha)

/-- Two listings of one symbol would have the same first occurrence. -/
theorem keys_countSymbols_nodup (msg : List Byte) : ((countSymbols msg).map (·.1)).Nodup :=
  (keys_countSymbols_pairwise msg).imp fun {x y} hlt (heq : x = y) => absurd hlt (heq ▸ Nat.lt_irrefl _)

theorem countSymbols_length_le (msg : List Byte) : (countSymbols msg).length ≤ 256 := by
  simpa using nodup_bytes_length (keys_countSymbols_nodup msg)

/-- Weighting each entry by its count is weighting each symbol of the message. -/
theorem weighted_sum_countSymbols (weight : Byte → Nat) (msg : List Byte) :
    ((countSymbols msg).map fun e => e.2 * weight e.1).sum = (msg.map weight).sum := by
  induction msg using List.reverseRecOn with
  | nil => rfl
  | append_singleton msg y ih => simp [countSymbols_append_singleton, weighted_sum_countSymbol, ih]

/-- The count of an entry is the weighted sum for the weight that is 1 at its symbol and 0 elsewhere. -/
theorem count_of_mem_countSymbols {msg : List Byte} {e : Byte × Nat} (he : e ∈ countSymbols msg) :
    e.2 = msg.count e.1 := by
  have hnodup := keys_countSymbols_nodup msg
  have hentry : ((countSymbols msg).map fun d => d.2 * if d.1 = e.1 then 1 else 0).sum = e.2 := by
    rw [List.sum_map_eq_nsmul_single e _ fun d hd hmem => ?_,
      @List.count_eq_one_of_mem _ instBEqOfDecidableEq _ _ _ hnodup.of_map he]
    · simp
    · rw [if_neg fun h => hd (List.inj_on_of_nodup_map hnodup hmem he h), Nat.mul_zero]
  have hmsg : (msg.map fun x => if x = e.1 then 1 else 0).sum = msg.count e.1 := by
    rw [List.sum_map_eq_nsmul_single e.1 _ fun x hx _ => if_neg hx]
    simp
  rw [← hentry, ← hmsg]
  exact weighted_sum_countSymbols (fun x => if x = e.1 then 1 else 0) msg

theorem count_le_length_of_mem_countSymbols {msg : List Byte} {e : Byte × Nat} (he : e ∈ countSymbols msg) :
    e.2 ≤ msg.length :=
  count_of_mem_countSymbols he ▸ List.count_le_length

/-- Settles O31: an entry's symbol occurs in the message, so its count is at least 1. -/
theorem countListsFirstOccurrencesWithCounts : Obligations.CountListsFirstOccurrencesWithCounts := by
  refine fun msg => ⟨keys_countSymbols_nodup msg, fun _ => mem_keys_countSymbols, keys_countSymbols_pairwise msg,
    fun e he => ⟨count_of_mem_countSymbols he, ?_, count_le_length_of_mem_countSymbols he⟩⟩
  rw [count_of_mem_countSymbols he]
  exact List.one_le_count_iff.2 (mem_keys_countSymbols.1 (List.mem_map_of_mem he))

end Sys2Proof.Machine
end

section
/-! The code table of a frequency map (41_huffman.md R75, R76): the leaves of its tree are the map's symbols, no code
begins another, and each symbol of the map has a code of bounded length. -/
namespace Sys2Proof.Machine

/-! ### The leaves of a tree -/

/-- The symbols of a tree's leaves, from left to right. -/
def leafSymbols (t : Tree) : List Byte := (walk t []).map (·.1)

theorem leafSymbols_leaf (x : Byte) (f : Nat) : leafSymbols (.leaf x f) = [x] := rfl

theorem leafSymbols_node (f : Nat) (l r : Tree) : leafSymbols (.node f l r) = leafSymbols l ++ leafSymbols r :=
  walk_symbols_node f l r []

theorem flatMap_leafSymbols_leaves (fm : FreqMap) :
    (fm.map fun e => Tree.leaf e.1 e.2).flatMap leafSymbols = fm.map (·.1) := by
  rw [List.flatMap_map, List.map_eq_flatMap]
  rfl

/-- A pass of the merge loop keeps the leaves: the two lowest nodes become the children of one. -/
theorem mergeLowest_leafSymbols_perm (l : List Tree) :
    ((mergeLowest l).flatMap leafSymbols).Perm (l.flatMap leafSymbols) := by
  have hsort := (stableSortByFreq_perm l).flatMap_right leafSymbols
  unfold mergeLowest
  split
  next a b rest heq =>
    rw [heq, List.flatMap_cons, List.flatMap_cons, ← List.append_assoc] at hsort
    rw [List.flatMap_append, List.flatMap_singleton, leafSymbols_node]
    exact List.perm_append_comm.trans hsort
  next => exact hsort

theorem mergePasses_leafSymbols_perm (n : Nat) (l : List Tree) :
    ((mergePasses n l).flatMap leafSymbols).Perm (l.flatMap leafSymbols) := by
  induction n generalizing l with
  | zero => exact .refl _
  | succ n ih => exact (ih _).trans (mergeLowest_leafSymbols_perm l)

theorem mergePasses_length {n : Nat} {l : List Tree} (h : n < l.length) :
    (mergePasses n l).length = l.length - n := by
  induction n generalizing l with
  | zero => rfl
  | succ n ih =>
    have hpass := mergeLowest_length (l := l) (by omega)
    rw [mergePasses, ih (by omega), hpass]
    omega

/-- `n - 1` passes leave one root, whose leaves are the map's own. -/
theorem exists_buildTree_eq_some {fm : FreqMap} (hne : fm ≠ []) :
    ∃ root, buildTree fm = some root ∧ (leafSymbols root).Perm (fm.map (·.1)) := by
  have hpos := List.length_pos_iff.2 hne
  have hlen := mergePasses_length (n := fm.length - 1) (l := fm.map fun e => Tree.leaf e.1 e.2) (by simp; omega)
  have hperm := mergePasses_leafSymbols_perm (fm.length - 1) (fm.map fun e => Tree.leaf e.1 e.2)
  obtain ⟨root, hroot⟩ := List.length_eq_one_iff.1 (hlen.trans (by simp; omega))
  refine ⟨root, by rw [buildTree, hroot, List.head?_cons], ?_⟩
  rwa [hroot, List.flatMap_singleton, flatMap_leafSymbols_leaves] at hperm

/-! ### The codes of a tree -/

theorem leafCodes_symbols (root : Tree) : (leafCodes root).map (·.1) = leafSymbols root := by cases root <;> rfl

/-- The leaf of a single-symbol tree is alone; the leaves of any other tree are those of its walk. -/
theorem leafCodes_pairwise (root : Tree) :
    (leafCodes root).Pairwise fun a b => ¬ a.2 <+: b.2 ∧ ¬ b.2 <+: a.2 := by
  cases root with
  | leaf x f => exact List.pairwise_singleton _ _
  | node f l r => exact walk_pairwise (.node f l r) []

theorem leafCodes_length_pos {root : Tree} {e : Byte × Bitstring} (he : e ∈ leafCodes root) : 1 ≤ e.2.length := by
  cases root with
  | leaf x f => rw [List.mem_singleton.1 he]; exact Nat.le_refl 1
  | node f l r =>
    rcases List.mem_append.1 he with he | he <;> exact (walk_isPrefix he).length_le

theorem leafCodes_length_le {root : Tree} {e : Byte × Bitstring} (he : e ∈ leafCodes root) :
    e.2.length ≤ max 1 ((leafSymbols root).length - 1) := by
  cases root with
  | leaf x f => rw [List.mem_singleton.1 he]; exact Nat.le_max_left _ _
  | node f l r =>
    have := walk_length_le (.node f l r) [] e he
    simp only [leafSymbols, List.length_map, List.length_nil] at this ⊢
    omega

/-- A symbol that stands in a list of leaves is listed with its code. -/
theorem mem_codeIn {leaves : List (Byte × Bitstring)} {x : Byte} (hx : x ∈ leaves.map (·.1)) :
    (x, codeIn leaves x) ∈ leaves := by
  unfold codeIn
  cases hfind : leaves.find? fun e => decide (e.1 = x) with
  | none =>
    obtain ⟨e, he, hex⟩ := List.mem_map.1 hx
    exact absurd (decide_eq_true hex) (List.find?_eq_none.1 hfind e he)
  | some e =>
    have hex : e.1 = x := by simpa using List.find?_some hfind
    exact hex ▸ List.mem_of_find?_eq_some hfind

theorem codeOf_codesOf_ne_nil_iff {root : Tree} {x : Byte} :
    codeOf (codesOf root) x ≠ [] ↔ x ∈ leafSymbols root := by
  rw [codeOf_codesOf, ← leafCodes_symbols]
  refine ⟨not_imp_comm.1 codeIn_notMem, fun hx => ?_⟩
  exact List.length_pos_iff.1 (leafCodes_length_pos (mem_codeIn hx))

theorem mem_leafCodes_codeOf {root : Tree} {x : Byte} (hx : x ∈ leafSymbols root) :
    (x, codeOf (codesOf root) x) ∈ leafCodes root := by
  rw [codeOf_codesOf]
  exact mem_codeIn (by rwa [leafCodes_symbols])

/-- Two symbols with codes stand at two leaves, and no leaf's path begins another's. -/
theorem codesOf_prefixFree (root : Tree) : prefixFree (codesOf root) := by
  intro x y hxy hx hy
  have hsymm : Std.Symm fun a b : Byte × Bitstring => ¬ a.2 <+: b.2 ∧ ¬ b.2 <+: a.2 := ⟨fun _ _ h => h.symm⟩
  exact ((leafCodes_pairwise root).forall (mem_leafCodes_codeOf (codeOf_codesOf_ne_nil_iff.1 hx))
    (mem_leafCodes_codeOf (codeOf_codesOf_ne_nil_iff.1 hy)) fun h => hxy (congrArg Prod.fst h)).1

/-! ### The table of a map -/

section
variable {fm : FreqMap} (hne : fm ≠ [])
include hne

theorem codeTableOf_prefixFree : prefixFree (codeTableOf fm) := by
  obtain ⟨root, hroot, -⟩ := exists_buildTree_eq_some hne
  exact codeTableOf_eq hroot ▸ codesOf_prefixFree root

theorem codeTableOf_length : (codeTableOf fm).length = 256 := by
  obtain ⟨root, hroot, -⟩ := exists_buildTree_eq_some hne
  simp [codeTableOf_eq hroot, codesOf, Config.nsymMax]

/-- Exactly the symbols of the map have a code. -/
theorem codeOf_codeTableOf_ne_nil_iff {x : Byte} : codeOf (codeTableOf fm) x ≠ [] ↔ x ∈ fm.map (·.1) := by
  obtain ⟨root, hroot, hperm⟩ := exists_buildTree_eq_some hne
  rw [codeTableOf_eq hroot, codeOf_codesOf_ne_nil_iff, hperm.mem_iff]

theorem codeOf_codeTableOf_length_le (x : Byte) : (codeOf (codeTableOf fm) x).length ≤ max 1 (fm.length - 1) := by
  obtain ⟨root, hroot, hperm⟩ := exists_buildTree_eq_some hne
  by_cases hx : x ∈ leafSymbols root
  · have hlen : (leafSymbols root).length = fm.length := by simpa using hperm.length_eq
    rw [codeTableOf_eq hroot, ← hlen]
    exact leafCodes_length_le (mem_leafCodes_codeOf hx)
  · have hnil : codeOf (codeTableOf fm) x = [] := by
      rwa [codeTableOf_eq hroot, ← not_ne_iff, codeOf_codesOf_ne_nil_iff]
    simp [hnil]

/-- The entries of the table are the codes of the 256 symbols. -/
theorem mem_codeTableOf_iff {c : Bitstring} : c ∈ codeTableOf fm ↔ ∃ x : Byte, codeOf (codeTableOf fm) x = c := by
  have hlen := codeTableOf_length hne
  constructor
  · intro hc
    obtain ⟨k, hk, rfl⟩ := List.getElem_of_mem hc
    exact ⟨BitVec.ofNat 8 k, codeOf_ofNat hlen hk⟩
  · rintro ⟨x, rfl⟩
    have hk : x.toNat < (codeTableOf fm).length := by have := x.isLt; omega
    have hentry := codeOf_ofNat hlen hk
    rw [BitVec.ofNat_toNat, BitVec.setWidth_eq] at hentry
    exact hentry ▸ List.getElem_mem hk

theorem codeOf_codeTableOf_length_le_maxLen (x : Byte) :
    (codeOf (codeTableOf fm) x).length ≤ maxLen (codeTableOf fm) :=
  le_maxLen_of_mem ((mem_codeTableOf_iff hne).2 ⟨x, rfl⟩)

theorem maxLen_codeTableOf_le : maxLen (codeTableOf fm) ≤ max 1 (fm.length - 1) := by
  refine maxLen_le fun c hc => ?_
  obtain ⟨x, rfl⟩ := (mem_codeTableOf_iff hne).1 hc
  exact codeOf_codeTableOf_length_le hne x

/-- The longest code is not empty, so it is that of a symbol of the map. -/
theorem exists_mem_codeOf_length_eq_maxLen :
    ∃ x ∈ fm.map (·.1), (codeOf (codeTableOf fm) x).length = maxLen (codeTableOf fm) := by
  obtain ⟨y, hy⟩ := List.exists_mem_of_ne_nil _ (mt List.map_eq_nil_iff.1 hne : fm.map (·.1) ≠ [])
  have hpos := List.length_pos_iff.2 ((codeOf_codeTableOf_ne_nil_iff hne).2 hy)
  have hle := codeOf_codeTableOf_length_le_maxLen hne y
  have htable : codeTableOf fm ≠ [] := List.length_pos_iff.1 (by rw [codeTableOf_length hne]; decide)
  obtain ⟨c, hc, hmax⟩ := maxLen_attained htable
  obtain ⟨x, rfl⟩ := (mem_codeTableOf_iff hne).1 hc
  exact ⟨x, (codeOf_codeTableOf_ne_nil_iff hne).1 (List.length_pos_iff.1 (by omega)), hmax⟩

end

end Sys2Proof.Machine
end

section
/-! What a successful `HUFF_BUILD` or `HUFF_ENCODE` leaves: a code of bounded length for the map it has read or counted,
in which no code begins another (41_huffman.md R82, R84), and for `HUFF_ENCODE` a stream as long as the
map's weighted code lengths (R85). -/
namespace Sys2Proof.Machine

/-! ### The frequency map beside the bit buffer -/

/-- The bit buffer stands above the frequency map (20_memory.md R43). -/
theorem storeBits_read_below (s : State) (bs : Bitstring) {a : Nat} (ha : a < 0x100000) :
    (s.storeBits bs).mem.read a = s.mem.read a := by
  rw [State.storeBits_mem]
  exact Memory.read_writeBlock_outside _ _ _ (.inl ha)

theorem fmapSyms_storeBits (s : State) (bs : Bitstring) {n : Nat} (hn : n ≤ 256) :
    (s.storeBits bs).fmapSyms n = s.fmapSyms n :=
  Memory.readBlock_congr fun k hk => storeBits_read_below s bs (by simp only [Window.base]; omega)

theorem fmapCnts_storeBits (s : State) (bs : Bitstring) {n : Nat} (hn : n ≤ 256) :
    (s.storeBits bs).fmapCnts n = s.fmapCnts n :=
  collect_range_congr fun i hi => congrArg (Option.map leValue)
    (Memory.readBlock_congr fun k hk => storeBits_read_below s bs (by simp only [Window.base]; omega))

/-- `NSYM` has room for 256 symbols (10_state.md R26). -/
theorem nsym_storeFreqMap_toNat (s : State) {fm : FreqMap} (h : fm.length ≤ 256) :
    (s.storeFreqMap fm).nsym.toNat = fm.length :=
  (BitVec.toNat_ofNat _ _).trans (Nat.mod_eq_of_lt (by omega))

/-- A written message has `MSG_LEN` symbols. -/
theorem message_length {s : State} {msg : List Byte} (h : s.message = some msg) : msg.length = s.msgLen.toNat :=
  Memory.readBlock_length h

/-- The counts of a message fit in 32 bits, as `MSG_LEN` does. -/
theorem count_lt_of_message {s : State} {msg : List Byte} (h : s.message = some msg) :
    ∀ e ∈ countSymbols msg, e.2 < 2 ^ 32 := fun e he =>
  calc e.2 ≤ msg.length := count_le_length_of_mem_countSymbols he
    _ = s.msgLen.toNat := message_length h
    _ < 2 ^ 32 := s.msgLen.isLt

/-! ### Success of the two building commands -/

theorem huffBuild_success {s t : State} (h : exec .huffBuild s = .next t) (hok : t.err = .none) :
    s.nsym.toNat ≠ 0 ∧ s.nsym.toNat ≤ 256 ∧ ∃ syms cnts, s.fmapSyms s.nsym.toNat = some syms ∧
      s.fmapCnts s.nsym.toNat = some cnts ∧ t = (s.loadTable (codeTableOf (syms.zip cnts))).finish := by
  rcases huffBuild_next h with
    ⟨-, rfl⟩ | ⟨h0, h256, syms, hsyms, ⟨-, rfl⟩ | ⟨-, -, rfl⟩ | ⟨-, -, cnts, hcnts, ⟨-, rfl⟩ | ⟨-, ht⟩⟩⟩
  case inr.inr.inr.inr => exact ⟨h0, h256, syms, cnts, hsyms, hcnts, ht⟩
  all_goals cases hok

/-- The state that a successful `HUFF_ENCODE` of a message leaves (41_huffman.md R80). -/
def afterEncode (s : State) (msg : List Byte) : State :=
  (((s.storeFreqMap (countSymbols msg)).loadTable (codeTableOf (countSymbols msg))).storeBits
    (encodeMessage (codeTableOf (countSymbols msg)) msg)).finish

theorem huffEncode_success {s t : State} (h : exec .huffEncode s = .next t) (hok : t.err = .none) :
    ∃ msg, s.message = some msg ∧ countSymbols msg ≠ [] ∧
      (encodeMessage (codeTableOf (countSymbols msg)) msg).length ≤ s.params.bitbufBits ∧ t = afterEncode s msg := by
  rcases huffEncode_next h with
    ⟨-, rfl⟩ | ⟨-, msg, hmsg, ⟨-, rfl⟩ | ⟨-, -, rfl⟩ | ⟨-, -, rfl⟩ | ⟨hdelim, hbits, ht⟩⟩
  case inr.inr.inr.inr =>
    exact ⟨msg, hmsg, fun hnil => absurd hdelim (by simp [hnil]), hbits, ht⟩
  all_goals cases hok

/-- The state holds a frequency map of 1 to 256 symbols and the code table built from it. -/
structure BuiltFrom (fm : FreqMap) (t : State) : Prop where
  nonempty : fm ≠ []
  length_le : fm.length ≤ 256
  nsym : t.nsym.toNat = fm.length
  syms : t.fmapSyms fm.length = some (fm.map (·.1))
  table : t.codeTable = some (codeTableOf fm)
  maxCodeLen : t.maxCodeLen = BitVec.ofNat 8 (maxLen (codeTableOf fm))

/-- `HUFF_BUILD` builds from the map that it finds. -/
theorem builtFrom_huffBuild {s : State} {syms : List Byte} {cnts : List Nat} (h0 : s.nsym.toNat ≠ 0)
    (h256 : s.nsym.toNat ≤ 256) (hsyms : s.fmapSyms s.nsym.toNat = some syms)
    (hcnts : s.fmapCnts s.nsym.toNat = some cnts) :
    BuiltFrom (syms.zip cnts) (s.loadTable (codeTableOf (syms.zip cnts))).finish := by
  have hlsyms : syms.length = s.nsym.toNat := Memory.readBlock_length hsyms
  have hlcnts : cnts.length = s.nsym.toNat := (collect_range_eq_some_iff.1 hcnts).1
  have hlen : (syms.zip cnts).length = s.nsym.toNat := by rw [List.length_zip]; omega
  exact {
    nonempty := List.length_pos_iff.1 (by omega)
    length_le := by omega
    nsym := hlen.symm
    syms := by rw [List.map_fst_zip (by omega), hlen]; exact hsyms
    table := rfl
    maxCodeLen := rfl }

/-- `HUFF_ENCODE` builds from the map of its message, and the bits it stores leave the map alone. -/
theorem builtFrom_afterEncode (s : State) {msg : List Byte} (hne : countSymbols msg ≠ []) :
    BuiltFrom (countSymbols msg) (afterEncode s msg) where
  nonempty := hne
  length_le := countSymbols_length_le msg
  nsym := nsym_storeFreqMap_toNat s (countSymbols_length_le msg)
  syms := (fmapSyms_storeBits _ _ (countSymbols_length_le msg)).trans
    (fmapSyms_storeFreqMap s _ (countSymbols_length_le msg))
  table := rfl
  maxCodeLen := rfl

theorem exists_builtFrom {i : Instr} {s t : State} (hi : i = .huffBuild ∨ i = .huffEncode)
    (h : exec i s = .next t) (hok : t.err = .none) : ∃ fm, BuiltFrom fm t := by
  rcases hi with rfl | rfl
  · obtain ⟨h0, h256, syms, cnts, hsyms, hcnts, rfl⟩ := huffBuild_success h hok
    exact ⟨_, builtFrom_huffBuild h0 h256 hsyms hcnts⟩
  · obtain ⟨msg, -, hne, -, rfl⟩ := huffEncode_success h hok
    exact ⟨_, builtFrom_afterEncode s hne⟩

section
variable {fm : FreqMap} {t : State} (hb : BuiltFrom fm t)
include hb

theorem BuiltFrom.maxLen_le : maxLen (codeTableOf fm) ≤ 255 :=
  (maxLen_codeTableOf_le hb.nonempty).trans (by have := hb.length_le; omega)

/-- `MAX_CODE_LEN` has room for the longest code (10_state.md R29). -/
theorem BuiltFrom.maxCodeLen_toNat : t.maxCodeLen.toNat = maxLen (codeTableOf fm) := by
  rw [hb.maxCodeLen, BitVec.toNat_ofNat, Nat.mod_eq_of_lt (Nat.lt_succ_of_le hb.maxLen_le)]

theorem BuiltFrom.eq_map_fst {syms : List Byte} (h : t.fmapSyms t.nsym.toNat = some syms) : syms = fm.map (·.1) := by
  rw [hb.nsym, hb.syms] at h
  exact (Option.some.inj h).symm

end

/-- Settles O34: the table of the map that the command built from has no code that begins another. -/
theorem builtTableIsPrefixFree : Obligations.BuiltTableIsPrefixFree := by
  intro i s t hi _ hexec hok
  obtain ⟨fm, hb⟩ := exists_builtFrom hi hexec hok
  exact ⟨_, hb.table, fun x y hxy hx hy =>
    codeTableOf_prefixFree hb.nonempty x y hxy (List.length_pos_iff.1 hx) (List.length_pos_iff.1 hy)⟩

/-- Settles O35: a leaf of a tree with `NSYM` leaves lies at most `NSYM - 1` edges deep, and only the symbols of the map
have a code that could be the longest. -/
theorem builtCodeLengthsAreBounded : Obligations.BuiltCodeLengthsAreBounded := by
  intro i s t syms hi _ hexec hok hsyms
  obtain ⟨fm, hb⟩ := exists_builtFrom hi hexec hok
  rw [hb.eq_map_fst hsyms, hb.maxCodeLen_toNat, hb.nsym]
  exact ⟨_, hb.table, rfl, hb.maxLen_le,
    fun x hx => ⟨List.length_pos_iff.2 ((codeOf_codeTableOf_ne_nil_iff hb.nonempty).2 hx),
      codeOf_codeTableOf_length_le hb.nonempty x⟩,
    codeOf_codeTableOf_length_le_maxLen hb.nonempty, exists_mem_codeOf_length_eq_maxLen hb.nonempty⟩

/-! ### The length of an encoded message -/

theorem encodeMessage_length (t : CodeTable) (msg : List Byte) :
    (encodeMessage t msg).length = (msg.map fun x => (codeOf t x).length).sum := List.length_flatMap

/-- The length of the stream, summed over the map instead of the message. -/
theorem encodeMessage_length_eq_weighted_sum (t : CodeTable) (msg : List Byte) :
    (encodeMessage t msg).length = (List.zipWith (fun x c => c * (codeOf t x).length)
      ((countSymbols msg).map (·.1)) ((countSymbols msg).map (·.2))).sum := by
  rw [encodeMessage_length, ← weighted_sum_countSymbols, List.zipWith_map, List.zipWith_self]

/-- No symbol takes more bits than the longest code. -/
theorem encodeMessage_length_le {fm : FreqMap} (hne : fm ≠ []) (msg : List Byte) :
    (encodeMessage (codeTableOf fm) msg).length ≤ msg.length * maxLen (codeTableOf fm) := by
  have hsum := List.sum_le_card_nsmul (msg.map fun x => (codeOf (codeTableOf fm) x).length)
    (maxLen (codeTableOf fm)) (by simpa using fun x _ => codeOf_codeTableOf_length_le_maxLen hne x)
  rwa [List.length_map, smul_eq_mul, ← encodeMessage_length] at hsum

/-- `BIT_LEN` has room for every stream that fits the bit buffer (10_state.md R22, 00_scope.md R4). -/
theorem bitLen_afterEncode_toNat {s : State} {msg : List Byte} (hp : s.params.ok = true)
    (h : (encodeMessage (codeTableOf (countSymbols msg)) msg).length ≤ s.params.bitbufBits) :
    (afterEncode s msg).bitLen.toNat = (encodeMessage (codeTableOf (countSymbols msg)) msg).length := by
  have := params_bounds hp
  exact (BitVec.toNat_ofNat _ _).trans (Nat.mod_eq_of_lt (by omega))

theorem fmapCnts_afterEncode {s : State} {msg : List Byte} (h : s.message = some msg) :
    (afterEncode s msg).fmapCnts (countSymbols msg).length = some ((countSymbols msg).map (·.2)) :=
  (fmapCnts_storeBits _ _ (countSymbols_length_le msg)).trans (fmapCnts_storeFreqMap s _ (count_lt_of_message h))

/-- Settles O43: the stream's length over the message is its length over the map. -/
theorem encodedLengthIsWeightedSum : Obligations.EncodedLengthIsWeightedSum := by
  intro s t syms cnts table hp _ hexec hok hsyms hcnts htable
  obtain ⟨msg, hmsg, hne, hbits, rfl⟩ := huffEncode_success hexec hok
  have hb := builtFrom_afterEncode s hne
  rw [hb.nsym, fmapCnts_afterEncode hmsg] at hcnts
  obtain rfl := Option.some.inj hcnts
  obtain rfl := Option.some.inj (hb.table.symm.trans htable)
  rw [hb.eq_map_fst hsyms, hb.maxCodeLen_toNat, bitLen_afterEncode_toNat hp hbits]
  exact ⟨encodeMessage_length_eq_weighted_sum _ msg, message_length hmsg ▸ encodeMessage_length_le hne msg⟩

end Sys2Proof.Machine
end

section
/-! `HUFF_COUNT` (41_huffman.md R78): where its message and its result stand, and what it answers. -/
namespace Sys2Proof.Machine

/-- Four bytes of a written block, one by one. -/
theorem Memory.readBlock_four_eq_some_iff {m : Memory} {a : Nat} {bs : List Byte} :
    m.readBlock a 4 = some bs ↔ ∃ b0 b1 b2 b3, bs = [b0, b1, b2, b3] ∧
      m.read a = some b0 ∧ m.read (a + 1) = some b1 ∧ m.read (a + 2) = some b2 ∧ m.read (a + 3) = some b3 := by
  rw [Memory.readBlock, collect_eq_some_iff]
  constructor
  · intro h
    obtain ⟨b0, b1, b2, b3, rfl⟩ := List.length_eq_four.1 (by simpa using (congrArg List.length h).symm)
    simpa [List.range_succ] using h
  · rintro ⟨b0, b1, b2, b3, rfl, h0, h1, h2, h3⟩
    simp [List.range_succ, h0, h1, h2, h3]

theorem leValue_four (b0 b1 b2 b3 : Byte) :
    leValue [b0, b1, b2, b3] = b0.toNat + b1.toNat * 256 + b2.toNat * 256 ^ 2 + b3.toNat * 256 ^ 3 := by
  simp only [leValue]
  ring

/-- A count by its four bytes at their host addresses (10_state.md R32, 20_memory.md R43, R46). -/
theorem fmapCnt_eq_some_iff {s : State} (hp : s.params.ok = true) {i c : Nat} (hi : i < 256) :
    s.fmapCnt i = some c ↔ ∃ b0 b1 b2 b3 : Byte,
      s.byteAt (0x020400 + 4 * i) = some b0 ∧ s.byteAt (0x020400 + 4 * i + 1) = some b1 ∧
      s.byteAt (0x020400 + 4 * i + 2) = some b2 ∧ s.byteAt (0x020400 + 4 * i + 3) = some b3 ∧
      c = b0.toNat + b1.toNat * 256 + b2.toNat * 256 ^ 2 + b3.toNat * 256 ^ 3 := by
  have hbyte : ∀ k < 4, s.byteAt (0x020400 + 4 * i + k) = s.mem.read (0x020400 + 4 * i + k) := fun k hk =>
    byteAt_of_memory (Nat.add_assoc _ _ k ▸ windowAt_base_add hp .FMAP_CNT (show 4 * i + k < 1024 by omega))
      (by decide) (by decide)
  rw [show s.byteAt (0x020400 + 4 * i) = _ from hbyte 0 (by decide), hbyte 1 (by decide), hbyte 2 (by decide),
    hbyte 3 (by decide), State.fmapCnt, Option.map_eq_some_iff]
  constructor
  · rintro ⟨bs, hbs, rfl⟩
    obtain ⟨b0, b1, b2, b3, rfl, h0, h1, h2, h3⟩ := Memory.readBlock_four_eq_some_iff.1 hbs
    exact ⟨b0, b1, b2, b3, h0, h1, h2, h3, leValue_four b0 b1 b2 b3⟩
  · rintro ⟨b0, b1, b2, b3, h0, h1, h2, h3, rfl⟩
    exact ⟨_, Memory.readBlock_four_eq_some_iff.2 ⟨b0, b1, b2, b3, rfl, h0, h1, h2, h3⟩, leValue_four b0 b1 b2 b3⟩

theorem fmapCnts_eq_some_iff {s : State} (hp : s.params.ok = true) {n : Nat} (hn : n ≤ 256) {cnts : List Nat} :
    s.fmapCnts n = some cnts ↔ cnts.length = n ∧ ∀ i, (h : i < cnts.length) → ∃ b0 b1 b2 b3 : Byte,
      s.byteAt (0x020400 + 4 * i) = some b0 ∧ s.byteAt (0x020400 + 4 * i + 1) = some b1 ∧
      s.byteAt (0x020400 + 4 * i + 2) = some b2 ∧ s.byteAt (0x020400 + 4 * i + 3) = some b3 ∧
      cnts[i] = b0.toNat + b1.toNat * 256 + b2.toNat * 256 ^ 2 + b3.toNat * 256 ^ 3 := by
  rw [State.fmapCnts, collect_range_eq_some_iff]
  exact and_congr_right fun hl => forall_congr' fun i => forall_congr' fun hi => fmapCnt_eq_some_iff hp (by omega)

/-! ### The three ends of the command -/

theorem exec_huffCount_of_too_long {s : State} (h : s.params.msgMax < s.msgLen.toNat) :
    exec .huffCount s = .next (s.fail .msgLen) := if_pos h

theorem exec_huffCount_of_fits {s : State} (h : s.msgLen.toNat ≤ s.params.msgMax) :
    exec .huffCount s = withOperand s.message fun msg => complete (s.storeFreqMap (countSymbols msg)) :=
  if_neg (Nat.not_lt.2 h)

/-- A stored map changes no mapped byte outside its entries. -/
theorem byteAt_storeFreqMap_outside (s : State) (fm : FreqMap) {a : Nat}
    (hsym : ¬ (0x020000 ≤ a ∧ a < 0x020000 + fm.length)) (hcnt : ¬ (0x020400 ≤ a ∧ a < 0x020400 + 4 * fm.length)) :
    (s.storeFreqMap fm).byteAt a = s.byteAt a :=
  byteAt_congr rfl rfl (storeFreqMap_read_outside s fm hsym hcnt)

/-- Settles O38: `HUFF_COUNT` stores the map of the message where the host reads it, and nothing else. -/
theorem huffCountResult : Obligations.HuffCountResult := by
  refine ⟨by decide, fun s hp => ⟨fun msg hfit => readBlock_window_eq_some_iff hp (by decide) (by decide) hfit,
    fun n syms hn => readBlock_window_eq_some_iff hp (by decide) (by decide) hn,
    fun n cnts hn => fmapCnts_eq_some_iff hp hn, exec_huffCount_of_too_long, fun hfit hnone => ?_,
    fun msg hfit hmsg => ?_⟩⟩
  · rw [exec_huffCount_of_fits hfit, hnone, withOperand_none]
  · have hlen := countSymbols_length_le msg
    have hnsym : (s.storeFreqMap (countSymbols msg)).finish.nsym.toNat = (countSymbols msg).length :=
      nsym_storeFreqMap_toNat s hlen
    refine ⟨(s.storeFreqMap (countSymbols msg)).finish, ?_, hnsym, ?_⟩
    · rw [exec_huffCount_of_fits hfit, hmsg, withOperand_some, complete]
    · rw [hnsym]
      exact ⟨fmapSyms_storeFreqMap s _ hlen, fmapCnts_storeFreqMap s _ (count_lt_of_message hmsg), rfl,
        fun a => byteAt_storeFreqMap_outside s _⟩

end Sys2Proof.Machine
end

section
/-! The LSB embedder and extractor (42_lsb.md): one sample, the capacity check, `EMBED` at its limit and twice, and
`EXTRACT` after `EMBED`. -/
namespace Sys2Proof.Machine

/-! ### One sample (42_lsb.md R89, R90, R94) -/

theorem extractSample_eq_true_iff {v : Byte} : extractSample v = true ↔ v.toNat % 2 = 0 := decide_eq_true_iff

theorem extractSample_eq_false_iff {v : Byte} : extractSample v = false ↔ v.toNat % 2 = 1 := by
  rw [← Bool.not_eq_true, extractSample_eq_true_iff, Nat.mod_two_not_eq_zero]

theorem embedSample_eq_self {v : Byte} {b : Bool} (h : extractSample v = b) : embedSample v b = v := by
  subst h
  simp [embedSample, extractSample]

theorem embedSample_even_false {v : Byte} (h : extractSample v = true) : embedSample v false = v - 1 := by
  have hv : evenSample v = true := h
  simp only [embedSample, hv, Bool.not_false, Bool.and_true, if_true]
  bv_omega

theorem embedSample_odd_true {v : Byte} (h : extractSample v = false) : embedSample v true = v + 1 := by
  have hv : evenSample v = false := h
  simp only [embedSample, hv, Bool.not_false, Bool.false_and, Bool.true_and, Bool.false_eq_true, if_false, if_true]
  bv_omega

/-- One step down from an even sample is odd, also from 0 to 255. -/
theorem extractSample_sub_one {v : Byte} (h : extractSample v = true) : extractSample (v - 1) = false := by
  rw [extractSample_eq_true_iff] at h
  rw [extractSample_eq_false_iff]
  bv_omega

/-- One step up from an odd sample is even, also from 255 to 0. -/
theorem extractSample_add_one {v : Byte} (h : extractSample v = false) : extractSample (v + 1) = true := by
  rw [extractSample_eq_false_iff] at h
  rw [extractSample_eq_true_iff]
  bv_omega

/-- A sample keeps its value, or goes one step around the circle when it has the other parity. -/
theorem embedSample_cases (v : Byte) (b : Bool) :
    (extractSample v = b ∧ embedSample v b = v) ∨
      (extractSample v = true ∧ b = false ∧ embedSample v b = v - 1) ∨
      (extractSample v = false ∧ b = true ∧ embedSample v b = v + 1) := by
  by_cases hv : extractSample v = b
  · exact .inl ⟨hv, embedSample_eq_self hv⟩
  · cases b with
    | false =>
      have heven : extractSample v = true := by simpa using hv
      exact .inr (.inl ⟨heven, rfl, embedSample_even_false heven⟩)
    | true =>
      have hodd : extractSample v = false := by simpa using hv
      exact .inr (.inr ⟨hodd, rfl, embedSample_odd_true hodd⟩)

@[simp] theorem extractSample_embedSample (v : Byte) (b : Bool) : extractSample (embedSample v b) = b := by
  rcases embedSample_cases v b with ⟨hv, h⟩ | ⟨hv, rfl, h⟩ | ⟨hv, rfl, h⟩ <;> rw [h]
  · exact hv
  · exact extractSample_sub_one hv
  · exact extractSample_add_one hv

@[simp] theorem embedSample_embedSample (v : Byte) (b : Bool) : embedSample (embedSample v b) b = embedSample v b :=
  embedSample_eq_self (extractSample_embedSample v b)

/-- Settles O48: the three cases of a sample, and the bit that it then carries. -/
theorem embedSampleCarriesTheBit : Obligations.EmbedSampleCarriesTheBit := fun v b =>
  ⟨fun h => have heven := extractSample_eq_true_iff.2 h
      ⟨embedSample_even_false heven, embedSample_eq_self heven⟩,
    fun h => have hodd := extractSample_eq_false_iff.2 h
      ⟨embedSample_odd_true hodd, embedSample_eq_self hodd⟩,
    extractSample_eq_true_iff, extractSample_embedSample v b, embedSample_eq_self⟩

/-! ### The capacity check (42_lsb.md R91) -/

/-- A grid that fits `PIX` has a capacity that fits a register. -/
theorem capacity_lt {s : State} (hp : s.params.ok = true) (h : s.capacity ≤ s.params.pixMax) : s.capacity < 2 ^ 32 := by
  have := params_bounds hp
  omega

theorem withCapacity_dims {s : State} (k : State → Result) (h : s.params.pixMax < s.capacity) :
    withCapacity s k = .next (s.fail .dims) := if_pos h

section
variable {s : State} (k : State → Result) (hdims : s.capacity ≤ s.params.pixMax)
include hdims

theorem withCapacity_bitLen (h : s.params.bitbufBits < s.bitLen.toNat) :
    withCapacity s k = .next (s.setCapAvail.fail .bitLen) :=
  (withDims_pass _ hdims).trans (if_pos h)

theorem withCapacity_capacity (hbuf : s.bitLen.toNat ≤ s.params.bitbufBits) (h : s.capacity < s.bitLen.toNat) :
    withCapacity s k = .next (s.setCapAvail.fail .capacity) :=
  (withDims_pass _ hdims).trans ((if_neg (Nat.not_lt.2 hbuf)).trans (if_pos h))

end

/-- Settles O49: the checks of `CAP_CHECK` in their order, which is the order of the capacity check. -/
theorem capCheckResult : Obligations.CapCheckResult := by
  refine ⟨by decide, fun s cap hcap => ?_⟩
  obtain rfl : cap = s.capacity := hcap
  exact ⟨withCapacity_dims complete, withCapacity_bitLen complete, withCapacity_capacity complete,
    withCapacity_pass complete,
    fun hp hdims => (BitVec.toNat_ofNat _ _).trans (Nat.mod_eq_of_lt (capacity_lt hp hdims))⟩

/-! ### `EMBED` without error (42_lsb.md R92) -/

/-- The checks of `EMBED` pass and its operands are written: these bits, and these samples under them. -/
structure Embeds (s : State) (bits : Bitstring) (pix : List Byte) : Prop where
  capacity_le : s.capacity ≤ s.params.pixMax
  bitLen_le_bitbuf : s.bitLen.toNat ≤ s.params.bitbufBits
  bitLen_le_capacity : s.bitLen.toNat ≤ s.capacity
  bits : s.bits s.bitLen.toNat = some bits
  pixels : s.pixels s.bitLen.toNat = some pix

/-- The state that `EMBED` leaves when it completes without error. -/
def afterEmbed (s : State) (bits : Bitstring) (pix : List Byte) : State :=
  (s.setCapAvail.storeAt .PIX (embedBits pix bits)).finish

@[simp] theorem afterEmbed_mem (s : State) (bits : Bitstring) (pix : List Byte) :
    (afterEmbed s bits pix).mem = s.mem.writeBlock 0x400000 (embedBits pix bits) := rfl

theorem embed_success {s t : State} (h : exec .embed s = .next t) (herr : t.err = .none) :
    ∃ bits pix, Embeds s bits pix ∧ t = afterEmbed s bits pix := by
  rcases embed_next h with ⟨-, rfl⟩ | ⟨-, -, rfl⟩ | ⟨-, -, -, rfl⟩ | ⟨hdims, hbuf, hcap, bits, pix, hbits, hpix, ht⟩
  case inr.inr.inr => exact ⟨bits, pix, ⟨hdims, hbuf, hcap, hbits, hpix⟩, ht⟩
  all_goals cases herr

/-- Embedding the same bits again leaves every sample as it is (R97). -/
theorem embedBits_embedBits (pix : List Byte) (bits : Bitstring) :
    embedBits (embedBits pix bits) bits = embedBits pix bits := by
  induction pix generalizing bits with
  | nil => rfl
  | cons v pix ih =>
    cases bits with
    | nil => rfl
    | cons b bits => exact congrArg₂ List.cons (embedSample_embedSample v b) (ih bits)

section
variable {s : State} {bits : Bitstring} {pix : List Byte} (he : Embeds s bits pix)
include he

theorem Embeds.exec_eq : exec .embed s = .next (afterEmbed s bits pix) := by
  have hbits : s.setCapAvail.bits s.setCapAvail.bitLen.toNat = some bits := he.bits
  have hpix : s.setCapAvail.pixels s.setCapAvail.bitLen.toNat = some pix := he.pixels
  rw [exec, execEmbed, withCapacity_pass _ he.capacity_le he.bitLen_le_bitbuf he.bitLen_le_capacity, hbits,
    withOperand_some, hpix, withOperand_some, complete, afterEmbed]

theorem Embeds.bits_length : bits.length = s.bitLen.toNat := (bits_eq_some_iff.1 he.bits).1

theorem Embeds.pix_length : pix.length = s.bitLen.toNat := Memory.readBlock_length he.pixels

theorem Embeds.embedBits_length : (embedBits pix bits).length = s.bitLen.toNat := by
  rw [embedBits, List.length_zipWith, he.bits_length, he.pix_length, Nat.min_self]

/-- `PIX` stands above the bit buffer (20_memory.md R43), so the bits stay. -/
theorem Embeds.bits_afterEmbed (hp : s.params.ok = true) :
    (afterEmbed s bits pix).bits s.bitLen.toNat = some bits := by
  refine (bits_congr fun i hi => bit_congr ?_).trans he.bits
  have hbuf := he.bitLen_le_bitbuf
  have hmax := params_bounds hp
  exact Memory.read_writeBlock_outside _ _ _ (.inl (show 0x100000 + i / 8 < 0x400000 by omega))

/-- The samples under the bits are the ones that carry them. -/
theorem Embeds.pixels_afterEmbed : (afterEmbed s bits pix).pixels s.bitLen.toNat = some (embedBits pix bits) := by
  rw [← he.embedBits_length]
  exact Memory.readBlock_writeBlock _ _ _

/-- A second `EMBED` finds the same bits, and the samples that already carry them. -/
theorem Embeds.again (hp : s.params.ok = true) : Embeds (afterEmbed s bits pix) bits (embedBits pix bits) where
  capacity_le := he.capacity_le
  bitLen_le_bitbuf := he.bitLen_le_bitbuf
  bitLen_le_capacity := he.bitLen_le_capacity
  bits := he.bits_afterEmbed hp
  pixels := he.pixels_afterEmbed

theorem Embeds.byteAt_outside {a : Nat} (ha : a < 0x400000 ∨ 0x400000 + s.bitLen.toNat ≤ a) :
    (afterEmbed s bits pix).byteAt a = s.byteAt a :=
  byteAt_congr rfl rfl (Memory.read_writeBlock_outside _ _ _ (he.embedBits_length ▸ ha))

/-- The sample at a bit's index carries the bit. -/
theorem Embeds.extractSample_byteAt (hp : s.params.ok = true) {k : Nat} (hk : k < bits.length) :
    ((afterEmbed s bits pix).byteAt (0x400000 + k)).map extractSample = some bits[k] := by
  have hlen := he.bits_length
  have hpix := he.pix_length
  have hfit := he.bitLen_le_capacity.trans he.capacity_le
  have hbyte : (afterEmbed s bits pix).byteAt (0x400000 + k) = some (embedSample pix[k] bits[k]) := by
    have hread := (readBlock_window_eq_some_iff (s := afterEmbed s bits pix) (w := .PIX) hp (by decide) (by decide)
      hfit).1 he.pixels_afterEmbed
    exact (hread.2 k (by rw [he.embedBits_length]; omega)).trans (by simp [embedBits])
  rw [hbyte, Option.map_some, extractSample_embedSample]

end

/-- Storing the same block twice is storing it once. -/
theorem Memory.read_writeBlock_writeBlock (m : Memory) (base : Nat) (bs : List Byte) (a : Nat) :
    ((m.writeBlock base bs).writeBlock base bs).read a = (m.writeBlock base bs).read a := by
  simp only [Memory.read_writeBlock]
  split <;> rfl

/-- Settles O52: at the capacity the checks pass; one bit above, the last one fails before any store. -/
theorem capacityBoundary : Obligations.CapacityBoundary := by
  intro s cap hcap hp hdims herr
  obtain rfl : cap = s.capacity := hcap
  refine ⟨fun hlen hbits hpix => ?_, fun hlen hbuf => ?_⟩
  · have hmax := params_bounds hp
    rw [← hlen] at hbits hpix
    obtain ⟨bits, hbits⟩ := Option.ne_none_iff_exists'.1 hbits
    obtain ⟨pix, hpix⟩ := Option.ne_none_iff_exists'.1 hpix
    have he : Embeds s bits pix := ⟨hdims, by omega, hlen.le, hbits, hpix⟩
    exact ⟨_, he.exec_eq, herr⟩
  · have hexec : exec .embed s = .next (s.setCapAvail.fail .capacity) := by
      rw [exec, execEmbed, withCapacity_capacity _ hdims (hlen ▸ hbuf) (by omega)]
    exact ⟨_, hexec, rfl, fun a => rfl⟩

/-- Settles O55: a second `EMBED` runs on the state that the first one left, and stores the same samples. -/
theorem embeddingTwiceChangesNothing : Obligations.EmbeddingTwiceChangesNothing := by
  refine ⟨fun v b => ⟨embedSample_embedSample v b, ?_⟩, fun s t hp _ h herr => ?_⟩
  · rcases embedSample_cases v b with ⟨-, h⟩ | ⟨-, -, h⟩ | ⟨-, -, h⟩
    · exact .inl h
    · exact .inr (.inr h)
    · exact .inr (.inl h)
  · obtain ⟨bits, pix, he, rfl⟩ := embed_success h herr
    refine ⟨_, (he.again hp).exec_eq, herr, fun a => byteAt_congr rfl rfl ?_⟩
    rw [afterEmbed_mem, afterEmbed_mem, embedBits_embedBits]
    exact Memory.read_writeBlock_writeBlock _ _ _ a

/-! ### `EXTRACT` on a written grid (42_lsb.md R93) -/

/-- The state that `EXTRACT` leaves when it completes without error. -/
def afterExtract (s : State) (pix : List Byte) : State := (s.setCapAvail.storeBits (extractBits pix)).finish

section
variable {s : State} {pix : List Byte} (hdims : s.capacity ≤ s.params.pixMax) (hpix : s.pixels s.capacity = some pix)
include hdims hpix

theorem exec_extract_of_fits : exec .extract s = .next (afterExtract s pix) := by
  have hread : s.setCapAvail.pixels s.setCapAvail.capacity = some pix := hpix
  rw [exec, execExtract, withDims_pass _ hdims, hread, withOperand_some, complete, afterExtract]

theorem bitLen_afterExtract (hp : s.params.ok = true) : (afterExtract s pix).bitLen.toNat = s.capacity := by
  have hlen : (extractBits pix).length = s.capacity := (List.length_map _).trans (Memory.readBlock_length hpix)
  refine (BitVec.toNat_ofNat _ _).trans ?_
  rw [hlen, Nat.mod_eq_of_lt (capacity_lt hp hdims)]

/-- Each bit of the grid is the parity of the sample at its index. -/
theorem bit_afterExtract (hp : s.params.ok = true) {k : Nat} (hk : k < s.capacity) :
    (afterExtract s pix).bit k = (s.byteAt (0x400000 + k)).map extractSample := by
  obtain ⟨hlen, hbyte⟩ := (readBlock_window_eq_some_iff (w := .PIX) hp (by decide) (by decide) hdims).1 hpix
  have hbits : (extractBits pix).length = s.capacity := (List.length_map _).trans hlen
  calc (afterExtract s pix).bit k
    _ = some ((extractBits pix).getD k false) := bit_storeBits s.setCapAvail _ (by omega)
    _ = some (extractSample pix[k]) := by simp [extractBits, hlen, hk]
    _ = (s.byteAt (0x400000 + k)).map extractSample := by
      rw [show s.byteAt (0x400000 + k) = some pix[k] from hbyte k (hlen ▸ hk), Option.map_some]

end

/-- Settles O56: the extracted bits are the parities of the grid, which `EMBED` has set below `BIT_LEN` and left alone
from there on. -/
theorem embedThenExtract : Obligations.EmbedThenExtract := by
  intro s t u bits hp _ h herr hbits hparams hH hW hsame hwritten
  obtain ⟨bits', pix, he, rfl⟩ := embed_success h herr
  obtain rfl : bits' = bits := Option.some.inj (he.bits.symm.trans hbits)
  have hcap : u.capacity = s.capacity := by rw [State.capacity, hH, hW, State.capacity]
  have hpu : u.params.ok = true := hparams ▸ hp
  have hdims : u.capacity ≤ u.params.pixMax := by rw [hcap, hparams]; exact he.capacity_le
  obtain ⟨grid, hgrid⟩ : ∃ grid, u.pixels u.capacity = some grid := Option.ne_none_iff_exists'.1 (hcap ▸ hwritten)
  have hlen : (afterExtract u grid).bitLen.toNat = s.capacity := (bitLen_afterExtract hdims hgrid hpu).trans hcap
  have hbit : ∀ k < s.capacity,
      (afterExtract u grid).bit k = ((afterEmbed s bits' pix).byteAt (0x400000 + k)).map extractSample :=
    fun k hk => (bit_afterExtract hdims hgrid hpu (hcap ▸ hk)).trans (by rw [hsame k hk])
  refine ⟨afterExtract u grid, exec_extract_of_fits hdims hgrid, rfl, hlen, hlen ▸ he.bitLen_le_capacity,
    bits_eq_some_iff.2 ⟨he.bits_length, fun k hk => ?_⟩, fun k hle hlt => ?_⟩
  · rw [hbit k ((he.bits_length ▸ hk).trans_le he.bitLen_le_capacity), he.extractSample_byteAt hp hk]
  · rw [hbit k (hlen ▸ hlt), he.byteAt_outside (.inr (Nat.add_le_add_left hle _))]

end Sys2Proof.Machine
end

section
/-! The control commands `NOP` (43_control.md R98) and `CLEAR` (R99). -/
namespace Sys2Proof.Machine

/-- The reserved bits are looked at first (R71). -/
theorem decode_of_reserved {w : Word} (h : rsvdField w ≠ 0) : decode w = .error .reservedBits := if_pos h

section
variable {s : State}

theorem exec_nop : exec .nop s = .next s.finish := rfl

theorem exec_clear : exec .clear s = .next s.clearRegs.finish := rfl

/-- Without a valid table `HUFF_DECODE` fails before it reads anything (41_huffman.md R81). -/
theorem exec_huffDecode_of_no_tree (h : s.treeValid = false) : exec .huffDecode s = .next (s.fail .noTree) := by
  rw [exec, execHuffDecode, if_pos h, abort]

/-- The engine step on a command's own word is the command (40_host_access.md R70). -/
theorem runWord_encode (i : Instr) : runWord (encode i) s = exec i s := by
  simp only [runWord, decode_eq_ok_iff.2 rfl]

/-- With a word pending and no turn of the host, the engine moves. -/
theorem step_of_pending {w : Word} (hpending : s.engine = .pending w) (hrun : s.faulted = false)
    (hengine : hostGoesFirst s = false) : step s = runWord w s.passTurn := by
  simp [step, agentStep, hpending, hrun, hengine]

end

/-- Settles O28: `NOP` is the completion alone, and after reset its issue and completion leave `DONE` as the one bit set
in `STATUS`. -/
theorem nopOnlyCompletes : Obligations.NopOnlyCompletes := by
  refine ⟨fun _ => exec_nop, decode_eq_ok_iff.2 rfl, decode_of_reserved (by decide), ?_⟩
  refine ⟨(State.reset.issue (encode .nop)).respond .ok, _, ?_,
    (step_of_pending rfl rfl rfl).trans ((runWord_encode .nop).trans exec_nop), by decide⟩
  rw [hostAccess_write_cmd, writeCmd_of_idle rfl]

/-- Settles O29: `CLEAR` writes neither memory nor table, so every byte reads as before; it does clear `TREE_VALID`, the
first thing `HUFF_DECODE` looks at. -/
theorem clearResetsRegistersKeepsArrays : Obligations.ClearResetsRegistersKeepsArrays :=
  ⟨decode_eq_ok_iff.2 rfl, fun _ =>
    ⟨_, exec_clear, rfl, fun _ => byteAt_congr rfl rfl rfl, rfl, rfl, exec_huffDecode_of_no_tree rfl⟩⟩

end Sys2Proof.Machine
end

section
/-! What a command error commits (60_exceptions.md R103): every abort of every command is one of three kinds. -/
namespace Sys2Proof.Machine

/-- The errors behind the write of `CAP_AVAIL`: R103's first exception. -/
abbrev CommitsCapacity (i : Instr) (e : ErrCode) : Prop :=
  e = .capacity ∨ (e = .bitLen ∧ (i = .capCheck ∨ i = .embed))

/-- What R103 lets a command leave behind when it completes with an error. -/
inductive AbortsTo (i : Instr) (s : State) : State → Prop where
  /-- The rule: the completion alone. -/
  | plain {e : ErrCode} (hcap : ¬ CommitsCapacity i e) (hovf : e ≠ .outOvf) : AbortsTo i s (s.fail e)
  /-- The first exception: `CAP_AVAIL` is written. -/
  | capacity {e : ErrCode} (hcap : CommitsCapacity i e) (hovf : e ≠ .outOvf) : AbortsTo i s (s.setCapAvail.fail e)
  /-- The second exception: `OUTBUF` is unspecified. -/
  | overflow : AbortsTo i s (s.spoilOutbuf.fail .outOvf)

/-- A command that ends with an error was aborted in one of the three ways; one that completes keeps the `ERR = 0` of
its issue. -/
theorem abortsTo_of_exec {i : Instr} {s t : State} (hs : s.err = .none) (h : exec i s = .next t)
    (herr : t.err ≠ .none) : AbortsTo i s t := by
  cases i with
  | nop =>
    obtain rfl := nop_next h
    exact absurd hs herr
  | clear =>
    obtain rfl := clear_next h
    exact absurd hs herr
  | huffCount =>
    rcases huffCount_next h with ⟨-, rfl⟩ | ⟨-, msg, -, rfl⟩
    · exact .plain (by decide) (by decide)
    · exact absurd hs herr
  | huffBuild =>
    rcases huffBuild_next h with
      ⟨-, rfl⟩ | ⟨-, -, syms, -, ⟨-, rfl⟩ | ⟨-, -, rfl⟩ | ⟨-, -, cnts, -, ⟨-, rfl⟩ | ⟨-, rfl⟩⟩⟩
    case inr.inr.inr.inr => exact absurd hs herr
    all_goals exact .plain (by decide) (by decide)
  | huffEncode =>
    rcases huffEncode_next h with ⟨-, rfl⟩ | ⟨-, msg, -, ⟨-, rfl⟩ | ⟨-, -, rfl⟩ | ⟨-, -, rfl⟩ | ⟨-, -, rfl⟩⟩
    case inr.inr.inr.inr => exact absurd hs herr
    all_goals exact .plain (by decide) (by decide)
  | huffDecode =>
    rcases huffDecode_next h with ⟨-, rfl⟩ | ⟨-, -, rfl⟩ | ⟨-, -, table, -, ⟨-, rfl⟩ | ⟨out, used, found, -, rfl⟩⟩
    · exact .plain (by decide) (by decide)
    · exact .plain (by decide) (by decide)
    · exact .overflow
    · exact absurd hs herr
  | capCheck =>
    rcases capCheck_next h with ⟨-, rfl⟩ | ⟨-, -, rfl⟩ | ⟨-, -, -, rfl⟩ | ⟨-, -, -, rfl⟩
    · exact .plain (by decide) (by decide)
    · exact .capacity (by decide) (by decide)
    · exact .capacity (by decide) (by decide)
    · exact absurd hs herr
  | embed =>
    rcases embed_next h with ⟨-, rfl⟩ | ⟨-, -, rfl⟩ | ⟨-, -, -, rfl⟩ | ⟨-, -, -, bits, pix, -, -, rfl⟩
    · exact .plain (by decide) (by decide)
    · exact .capacity (by decide) (by decide)
    · exact .capacity (by decide) (by decide)
    · exact absurd hs herr
  | extract =>
    rcases extract_next h with ⟨-, rfl⟩ | ⟨-, pix, -, rfl⟩
    · exact .plain (by decide) (by decide)
    · exact absurd hs herr

section
variable (s : State)

theorem freeBytes_length (n : Nat) : (s.freeBytes n).length = n := by simp [State.freeBytes]

/-- The whole of `OUTBUF` carries written marks after it is spoiled. -/
theorem exists_byteAt_spoilOutbuf (hp : s.params.ok = true) {k : Nat} (hk : k < s.params.outMax) :
    ∃ b, s.spoilOutbuf.byteAt (0x030000 + k) = some b := by
  have hwindow : windowAt s.spoilOutbuf.params (0x030000 + k) = some .OUTBUF := windowAt_base_add hp .OUTBUF hk
  refine ⟨_, (byteAt_of_memory hwindow (by decide) (by decide)).trans (Memory.read_writeBlock_inside _ _ _ ?_)⟩
  rwa [freeBytes_length]

theorem byteAt_spoilOutbuf_outside {a : Nat} (ha : ¬ (0x030000 ≤ a ∧ a < 0x030000 + s.params.outMax)) :
    s.spoilOutbuf.byteAt a = s.byteAt a := by
  refine byteAt_congr rfl rfl (Memory.read_writeBlock_outside _ _ _ ?_)
  rw [freeBytes_length, Window.base]
  omega

end

/-- Settles O58, by the three kinds of abort: the completion writes `BUSY`, `DONE` and `ERR`, and only the two
exceptions of R103 have written anything before it. -/
theorem abortCommitsNothing : Obligations.AbortCommitsNothing := by
  intro i s t hp hs h herr
  cases abortsTo_of_exec hs h herr with
  | plain hcap hovf => exact ⟨rfl, (if_neg hcap).symm, fun _ => ⟨rfl, rfl⟩, fun he => absurd he hovf⟩
  | capacity hcap hovf => exact ⟨rfl, (if_pos hcap).symm, fun _ => ⟨rfl, rfl⟩, fun he => absurd he hovf⟩
  | overflow =>
    have hcap : ¬ CommitsCapacity i .outOvf := by simp
    exact ⟨rfl, (if_neg hcap).symm, fun hne => absurd rfl hne,
      fun _ => ⟨fun k hk => exists_byteAt_spoilOutbuf s hp hk, fun a ha => byteAt_spoilOutbuf_outside s ha⟩⟩

end Sys2Proof.Machine
end

section
/-! What the state after reset shows the host (70_reset_and_hazards.md R109). -/
namespace Sys2Proof.Machine

/-- A clear memory and no code table leave every written mark clear: memory stands behind six of the windows and the
table behind the other two. -/
theorem byteAt_eq_none_of_unwritten {s : State} (hm : s.mem = []) (hc : s.codeTable = none) (a : Nat) :
    s.byteAt a = none := by
  unfold State.byteAt
  rw [hm, hc]
  split
  case h_1 => rfl
  case h_2 | h_3 => exact Option.map_none ..
  case h_4 => exact Memory.read_nil a

/-- After reset every register reads 0 but the two constants (10_state.md R24, R30); for the
write-only `CMD` the 0 is that of `State.readReg`, which no host read reaches. -/
theorem readReg_reset (r : Reg) : State.reset.readReg r =
    match r with
    | .IMG_C => 3
    | .DELIM_REG => 0x23
    | _ => 0 := by
  cases r <;> decide

/-- Settles O25: `readReg_reset` at each register, and reset leaves neither memory nor a code table. -/
theorem resetRegisterValues : Obligations.ResetRegisterValues :=
  ⟨readReg_reset .STATUS, readReg_reset .MSG_LEN, readReg_reset .BIT_LEN, readReg_reset .IMG_H, readReg_reset .IMG_W,
    readReg_reset .IMG_C, readReg_reset .CAP_AVAIL, readReg_reset .NSYM, readReg_reset .OUT_LEN,
    readReg_reset .DEC_BITS, readReg_reset .MAX_CODE_LEN, readReg_reset .DELIM_REG, rfl,
    byteAt_eq_none_of_unwritten rfl rfl⟩

end Sys2Proof.Machine
end

section
/-! What a host access reaches (10_state.md R17, 20_memory.md R43, R49), and that a bus error changes nothing (R50). -/
namespace Sys2Proof.Machine

/-! ### Registers -/

/-- Every register stands word-aligned inside the register block (10_state.md R17). -/
theorem Reg.offset_aligned (r : Reg) : r.offset < regsEnd ∧ r.offset % 4 = 0 := by cases r <;> decide

theorem regAt_eq_some_iff {a : Nat} {r : Reg} : regAt a = some r ↔ a = r.offset := by
  constructor
  · intro h
    have hoff := List.find?_some h
    exact (of_decide_eq_true hoff).symm
  · rintro rfl
    cases r <;> rfl

/-- A register is reached by a word access at its offset, and in no other way. -/
theorem resolve_eq_reg_iff {p : Config.Params} {a n : Nat} {r : Reg} :
    resolve p a n = some (.reg r) ↔ n = 4 ∧ a = r.offset := by
  have hr := r.offset_aligned
  by_cases ha : a < regsEnd
  · by_cases hword : n = 4 ∧ a % 4 = 0
    · simp [resolve, ha, hword, regAt_eq_some_iff]
    · simp only [resolve, if_pos ha, if_neg hword, reduceCtorEq, false_iff]
      rintro ⟨hn, rfl⟩
      exact hword ⟨hn, hr.2⟩
  · have hoff : a ≠ r.offset := fun h => ha (h ▸ hr.1)
    simp only [resolve, if_neg ha, hoff, and_false, iff_false]
    cases windowAt p a with
    | none => nofun
    | some w => dsimp only; split <;> nofun

/-! ### Windows -/

/-- The windows stand above the register block (20_memory.md R43). -/
theorem Window.regsEnd_le_base (w : Window) : regsEnd ≤ w.base := by cases w <;> decide

/-- A window is reached by an aligned access at a mapped address that ends inside it. -/
theorem resolve_eq_window_iff {p : Config.Params} {a n : Nat} {w : Window} :
    resolve p a n = some (.window w) ↔ windowAt p a = some w ∧ a % n = 0 ∧ a + n ≤ w.base + w.size p := by
  by_cases ha : a < regsEnd
  · have hno : windowAt p a ≠ some w := fun h => absurd (windowAt_holds h).1 (by have := w.regsEnd_le_base; omega)
    simp only [resolve, if_pos ha, hno, false_and, iff_false]
    split
    · cases regAt a <;> nofun
    · nofun
  · simp only [resolve, if_neg ha]
    cases windowAt p a with
    | none => simp
    | some v =>
      dsimp only
      split
      next hin =>
        simp only [Option.some.injEq, Target.window.injEq]
        exact ⟨fun h => ⟨h, h ▸ hin⟩, And.left⟩
      next hout =>
        simp only [reduceCtorEq, Option.some.injEq, false_iff]
        rintro ⟨rfl, hin⟩
        exact hout hin

theorem AccessSize.bytes_eq_four_iff {n : AccessSize} : n.bytes = 4 ↔ n = .four := by cases n <;> decide

theorem AccessSize.bytes_pos (n : AccessSize) : 0 < n.bytes := by cases n <;> decide

/-- Settles O13: `resolve_eq_reg_iff` and `resolve_eq_window_iff`, with the windows' ranges that good parameters keep
apart. -/
theorem addressMapAndAlignment : Obligations.AddressMapAndAlignment := by
  refine ⟨rfl, rfl, fun p => rfl, fun p a w hp => windowAt_eq_some_iff hp, fun p a n hp => ⟨fun r => ?_, fun w => ?_⟩⟩
  · rw [resolve_eq_reg_iff, AccessSize.bytes_eq_four_iff]
  · have := n.bytes_pos
    rw [resolve_eq_window_iff, windowAt_eq_some_iff hp]
    constructor
    · rintro ⟨⟨hbase, -⟩, halign, hend⟩
      exact ⟨halign, hbase, hend⟩
    · rintro ⟨halign, hbase, hend⟩
      exact ⟨⟨hbase, by omega⟩, halign, hend⟩

/-! ### Accesses that reach nothing -/

/-- Settles O14: a read or write that resolves to nothing is answered by the bus error alone. -/
theorem busErrorChangesNothing : Obligations.BusErrorChangesNothing := fun s a =>
  ⟨fun n hnone => by simp only [hostAccess, hostRead, hnone, State.respond],
    fun d hnone => by simp only [hostAccess, hostWrite, hnone, State.respond]⟩

end Sys2Proof.Machine
end

section
/-! Every step keeps the invariant of the block's state: each named update does, under the bound that its callers have
checked. -/
namespace Sys2Proof.Machine

/-- The fields that the invariant speaks of. -/
def State.guarded (s : State) :
    Config.Params × Memory × Option CodeTable × Bool × Byte × Word × Word × Word :=
  (s.params, s.mem, s.codeTable, s.treeValid, s.maxCodeLen, s.capAvail, s.outLen, s.decBits)

section
variable {s : State} (h : s.Inv)
include h

/-- An update of any other field keeps the invariant. -/
theorem State.Inv.of_guarded_eq {t : State} (heq : t.guarded = s.guarded) : t.Inv := by
  simp only [State.guarded, Prod.mk.injEq] at heq
  obtain ⟨hparams, hmem, htable, hvalid, hmax, hcap, hout, hdec⟩ := heq
  exact {
    params := hparams ▸ h.params
    memory := hmem ▸ h.memory
    marks := by rw [State.marksMapped, hmem, hparams]; exact h.marks
    table := htable ▸ h.table
    treeValid := by rw [hvalid, htable, hmax]; exact h.treeValid
    capAvail := by rw [hcap, hparams]; exact h.capAvail
    outLen := by rw [hout, hparams]; exact h.outLen
    decBits := by rw [hdec, hparams]; exact h.decBits }

/-! ### Stores -/

/-- A store inside one window that the memory stands behind. -/
theorem State.Inv.storeBytes {w : Window} (hw : inMemory w = true) {a : Nat} {bs : List Byte} (hbase : w.base ≤ a)
    (hend : a + bs.length ≤ w.base + w.size s.params) : (s.storeBytes a bs).Inv :=
  { h with
    memory := Memory.wf_writeBlock h.memory a bs
    marks := fun c hc => (Memory.mem_writeBlock hc).elim (h.marks c) fun hin =>
      ⟨w, (windowAt_eq_some_iff h.params).2 ⟨hbase.trans hin.1, hin.2.trans_le hend⟩, hw⟩ }

theorem State.Inv.storeAt {w : Window} (hw : inMemory w = true) {bs : List Byte} (hfit : bs.length ≤ w.size s.params) :
    (s.storeAt w bs).Inv :=
  h.storeBytes hw le_rfl (Nat.add_le_add_left hfit _)

theorem State.Inv.storeFreqMap {fm : FreqMap} (hfit : fm.length ≤ 256) : (s.storeFreqMap fm).Inv := by
  have hsyms : (s.storeAt .FMAP_SYM (fm.map (·.1))).Inv := h.storeAt rfl ((List.length_map _).trans_le hfit)
  have hcnts : (fm.flatMap fun e => leBytes 4 e.2).length ≤ 1024 := by
    rw [← List.flatMap_map (f := Prod.snd), flatMap_leBytes_length, List.length_map]
    omega
  exact (hsyms.storeAt (w := .FMAP_CNT) rfl hcnts).of_guarded_eq rfl

/-- `BIT(0..n)` with its padding fits the bit buffer when its bits do, for `BITBUF_BITS` is a multiple of 8. -/
theorem State.Inv.storeBits {bits : Bitstring} (hfit : bits.length ≤ s.params.bitbufBits) : (s.storeBits bits).Inv := by
  have := params_bounds h.params
  have hbytes : (packBits bits).length ≤ s.params.bitbufBits / 8 := by rw [packBits_length]; omega
  exact (h.storeAt (w := .BITBUF) rfl hbytes).of_guarded_eq rfl

theorem State.Inv.storeDecoded {out : List Byte} {used : Nat} (found : Bool) (hout : out.length ≤ s.params.outMax)
    (hused : used ≤ s.params.bitbufBits) : (s.storeDecoded out used found).Inv :=
  { h.storeAt (w := .OUTBUF) rfl hout with
    outLen := (BitVec.toNat_ofNat _ _).trans_le ((Nat.mod_le _ _).trans hout)
    decBits := (BitVec.toNat_ofNat _ _).trans_le ((Nat.mod_le _ _).trans hused) }

theorem State.Inv.spoilOutbuf : s.spoilOutbuf.Inv :=
  (h.storeAt (w := .OUTBUF) rfl (freeBytes_length s s.params.outMax).le).of_guarded_eq rfl

theorem State.Inv.loadTable {t : CodeTable} (ht : TableOk t) : (s.loadTable t).Inv := by
  have hmax : maxLen t ≤ 255 := maxLen_le fun c hc => by
    obtain ⟨k, hk, rfl⟩ := List.getElem_of_mem hc
    exact codeOf_ofNat ht.entries hk ▸ ht.lengths _
  exact { h with
    table := fun u hu => Option.some.inj hu ▸ ht
    treeValid := fun _ => ⟨t, rfl, (BitVec.toNat_ofNat _ _).trans (Nat.mod_eq_of_lt (Nat.lt_succ_of_le hmax))⟩ }

/-! ### Registers -/

theorem State.Inv.setCapAvail (hdims : s.capacity ≤ s.params.pixMax) : s.setCapAvail.Inv :=
  { h with capAvail := (BitVec.toNat_ofNat _ _).trans_le ((Nat.mod_le _ _).trans hdims) }

theorem State.Inv.clearRegs : s.clearRegs.Inv :=
  { h with
    treeValid := nofun
    capAvail := Nat.zero_le _
    outLen := Nat.zero_le _
    decBits := Nat.zero_le _ }

theorem State.Inv.platformReset : s.platformReset.Inv :=
  { h.clearRegs with
    memory := List.Pairwise.nil
    marks := nofun
    table := nofun
    treeValid := nofun }

theorem State.Inv.finish : s.finish.Inv := h.of_guarded_eq rfl

theorem State.Inv.fail (e : ErrCode) : (s.fail e).Inv := h.of_guarded_eq rfl

theorem State.Inv.respond (r : Response) : (s.respond r).Inv := h.of_guarded_eq rfl

theorem State.Inv.withHost (rest : List HostOp) : (s.withHost rest).Inv := h.of_guarded_eq rfl

theorem State.Inv.passTurn : s.passTurn.Inv := h.of_guarded_eq rfl

theorem State.Inv.writeCmd (w : Word) : (s.writeCmd w).Inv := by
  unfold State.writeCmd
  split
  · exact h.of_guarded_eq rfl
  · exact h.of_guarded_eq rfl

/-- The RW registers are none of the result registers that the invariant bounds. -/
theorem State.Inv.writeReg (r : Reg) (v : Word) : (s.writeReg r v).Inv := by
  cases r <;> exact h.of_guarded_eq rfl

end

/-! ### Commands -/

/-- What the two building commands load is a good table (41_huffman.md R82, R84). -/
theorem tableOk_codeTableOf {fm : FreqMap} (hlen : fm.length ≤ 256) (hdelim : Config.delim ∈ fm.map (·.1)) :
    TableOk (codeTableOf fm) := by
  have hne : fm ≠ [] := by rintro rfl; cases hdelim
  exact {
    entries := codeTableOf_length hne
    lengths := fun x => (codeOf_codeTableOf_length_le hne x).trans (by omega)
    delimiter := (codeOf_codeTableOf_ne_nil_iff hne).2 hdelim
    prefixFree := codeTableOf_prefixFree hne }

theorem bitStream_length (s : State) (n : Nat) : (s.bitStream n).length = n := by simp [State.bitStream]

/-- A decode writes no more than `OUTBUF` holds and reads no more than the bits it is given (41_huffman.md R81). -/
theorem decodeBits_bounds {t : CodeTable} {outMax : Nat} {bits : List (Option Bool)} {out : List Byte} {used : Nat}
    {found : Bool} (h : decodeBits t outMax bits = .text out used found) :
    out.length ≤ outMax ∧ out.length ≤ used ∧ used ≤ bits.length := by
  simpa using decodeFrom_bounds h (Nat.le_refl 0) (Nat.zero_le _)

/-- The symbols and counts that `HUFF_BUILD` reads are entries of one map. -/
theorem zip_length_and_symbols {s : State} {n : Nat} {syms : List Byte} {cnts : List Nat}
    (hsyms : s.fmapSyms n = some syms) (hcnts : s.fmapCnts n = some cnts) :
    (syms.zip cnts).length = n ∧ (syms.zip cnts).map (·.1) = syms := by
  have hlsyms : syms.length = n := Memory.readBlock_length hsyms
  have hlcnts : cnts.length = n := (collect_range_eq_some_iff.1 hcnts).1
  exact ⟨by rw [List.length_zip]; omega, List.map_fst_zip (by omega)⟩

/-- The parities of a grid that fits `PIX` fit the bit buffer (00_scope.md R5). -/
theorem extractBits_length_le {s : State} (hp : s.params.ok = true) (hdims : s.capacity ≤ s.params.pixMax)
    {pix : List Byte} (hpix : s.pixels s.capacity = some pix) : (extractBits pix).length ≤ s.params.bitbufBits := by
  have hlen : pix.length = s.capacity := Memory.readBlock_length hpix
  have := params_bounds hp
  rw [extractBits, List.length_map]
  omega

/-- Every command that answers a next state keeps the invariant. -/
theorem State.Inv.exec {s : State} (h : s.Inv) {i : Instr} {t : State} (hexec : exec i s = .next t) : t.Inv := by
  cases i with
  | nop => exact nop_next hexec ▸ h.finish
  | clear => exact clear_next hexec ▸ h.clearRegs.finish
  | huffCount =>
    rcases huffCount_next hexec with ⟨-, rfl⟩ | ⟨-, msg, -, rfl⟩
    · exact h.fail _
    · exact (h.storeFreqMap (countSymbols_length_le msg)).finish
  | huffBuild =>
    rcases huffBuild_next hexec with
      ⟨-, rfl⟩ | ⟨-, h256, syms, hsyms, ⟨-, rfl⟩ | ⟨-, -, rfl⟩ | ⟨-, hdelim, cnts, hcnts, ⟨-, rfl⟩ | ⟨-, rfl⟩⟩⟩
    case inr.inr.inr.inr =>
      obtain ⟨hlen, hmap⟩ := zip_length_and_symbols hsyms hcnts
      have hmem : Config.delim ∈ (syms.zip cnts).map (·.1) := by rw [hmap]; exact hdelim
      exact (h.loadTable (tableOk_codeTableOf (hlen.trans_le h256) hmem)).finish
    all_goals exact h.fail _
  | huffEncode =>
    rcases huffEncode_next hexec with ⟨-, rfl⟩ | ⟨-, msg, -, ⟨-, rfl⟩ | ⟨-, -, rfl⟩ | ⟨-, -, rfl⟩ | ⟨hdelim, hfit, rfl⟩⟩
    case inr.inr.inr.inr =>
      have hlen := countSymbols_length_le msg
      exact (((h.storeFreqMap hlen).loadTable (tableOk_codeTableOf hlen hdelim)).storeBits hfit).finish
    all_goals exact h.fail _
  | huffDecode =>
    rcases huffDecode_next hexec with
      ⟨-, rfl⟩ | ⟨-, -, rfl⟩ | ⟨-, hfit, table, -, ⟨-, rfl⟩ | ⟨out, used, found, hdecode, rfl⟩⟩
    · exact h.fail _
    · exact h.fail _
    · exact h.spoilOutbuf.fail _
    · obtain ⟨hout, -, hused⟩ := decodeBits_bounds hdecode
      rw [bitStream_length] at hused
      exact (h.storeDecoded found hout (hused.trans hfit)).finish
  | capCheck =>
    rcases capCheck_next hexec with ⟨-, rfl⟩ | ⟨hdims, -, rfl⟩ | ⟨hdims, -, -, rfl⟩ | ⟨hdims, -, -, rfl⟩
    · exact h.fail _
    · exact (h.setCapAvail hdims).fail _
    · exact (h.setCapAvail hdims).fail _
    · exact (h.setCapAvail hdims).finish
  | embed =>
    rcases embed_next hexec with
      ⟨-, rfl⟩ | ⟨hdims, -, rfl⟩ | ⟨hdims, -, -, rfl⟩ | ⟨hdims, hbuf, hcap, bits, pix, hbits, hpix, rfl⟩
    · exact h.fail _
    · exact (h.setCapAvail hdims).fail _
    · exact (h.setCapAvail hdims).fail _
    · have he : Embeds s bits pix := ⟨hdims, hbuf, hcap, hbits, hpix⟩
      have hfit : (embedBits pix bits).length ≤ s.params.pixMax := he.embedBits_length ▸ hcap.trans hdims
      exact ((h.setCapAvail hdims).storeAt (w := .PIX) rfl hfit).finish
  | extract =>
    rcases extract_next hexec with ⟨-, rfl⟩ | ⟨hdims, pix, hpix, rfl⟩
    · exact h.fail _
    · exact ((h.setCapAvail hdims).storeBits (extractBits_length_le h.params hdims hpix)).finish

/-! ### The two agents -/

theorem State.Inv.runWord {s : State} (h : s.Inv) {w : Word} {t : State} (hrun : runWord w s = .next t) : t.Inv := by
  rcases runWord_cases hrun with ⟨i, -, hexec⟩ | ⟨e, -, rfl⟩
  · exact h.exec hexec
  · exact h.fail _

theorem BusData.bytes_length (d : BusData) : d.bytes.length = d.size.bytes := leBytes_length _ _

/-- The host writes only to windows that the memory stands behind (20_memory.md R43). -/
theorem inMemory_of_access_eq_rw {w : Window} (h : w.access = .rw) : inMemory w = true := by
  revert h
  cases w <;> decide

theorem State.Inv.hostAccess {s : State} (h : s.Inv) {x : Transaction} {t : State}
    (haccess : hostAccess x s = .next t) : t.Inv := by
  cases x with
  | read a n =>
    obtain ⟨r, rfl | ⟨-, rfl⟩⟩ := hostRead_cases haccess
    · exact h.respond r
    · exact (h.respond r).of_guarded_eq rfl
  | write a d =>
    rcases hostWrite_cases haccess with ⟨r, rfl⟩ | rfl | ⟨-, r, -, -, rfl⟩ | ⟨-, w, hreach, hrw, rfl⟩
    · exact h.respond r
    · exact (h.writeCmd _).respond _
    · exact (h.writeReg r _).respond _
    · obtain ⟨hwindow, -, hend⟩ := resolve_eq_window_iff.1 hreach
      rw [← d.bytes_length] at hend
      exact (h.storeBytes (inMemory_of_access_eq_rw hrw) (windowAt_holds hwindow).1 hend).respond _

theorem State.Inv.hostStep {s : State} (h : s.Inv) {t : State} (hstep : hostStep s = .next t) : t.Inv := by
  rcases hostStep_cases hstep with ⟨-, rfl⟩ | ⟨x, rest, -, haccess⟩ | ⟨rest, -, rfl⟩ | ⟨rest, -, haccess⟩
  · exact h
  · exact (h.withHost rest).hostAccess haccess
  · exact (h.withHost rest).platformReset
  · split at haccess
    · exact h.hostAccess haccess
    · exact (h.withHost rest).hostAccess haccess

/-- Settles O27, by the agent that moves: the engine runs a command, whose checks bound every store, or the host makes a
transaction, which stores inside one window. -/
theorem everyStepKeepsInvariant : Obligations.EveryStepKeepsInvariant := by
  intro s t h hstep
  obtain ⟨-, ⟨-, hhost⟩ | ⟨w, -, -, hhost⟩ | ⟨w, -, -, hrun⟩⟩ := step_cases hstep
  · exact h.hostStep hhost
  · exact h.passTurn.hostStep hhost
  · exact h.passTurn.runWord hrun

/-- Settles O26: after reset every register is 0 and nothing is written. -/
theorem resetMeetsInvariant : Obligations.ResetMeetsInvariant where
  params := by decide
  memory := reset_mem_wf
  marks := nofun
  table := nofun
  treeValid := nofun
  capAvail := Nat.zero_le _
  outLen := Nat.zero_le _
  decBits := Nat.zero_le _

end Sys2Proof.Machine
end

section
/-! The decoder on command bytes (30_encoding.md R61, R63) and the engine step (40_host_access.md R70, R71). -/
namespace Sys2Proof

/-- Settles O2: three words are commands' own; the other two fail at the reserved bits and at `OPC`. -/
theorem writtenOutWordsDecode : Obligations.WrittenOutWordsDecode :=
  ⟨decode_eq_ok_iff.2 rfl, decode_eq_ok_iff.2 rfl, decode_eq_ok_iff.2 rfl, Machine.decode_of_reserved (by decide), rfl⟩

/-- The decoder puts the four bytes of a word together again (20_memory.md R46). -/
theorem decodeBytes_leBytes (w : Word) (rest : List Byte) :
    decodeBytes (leBytes 4 w.toNat ++ rest) = (decode w).map fun i => (i, rest) := by
  have hvalue : BitVec.ofNat 32 (leValue (leBytes 4 w.toNat)) = w := by
    rw [Machine.leValue_leBytes, Nat.mod_eq_of_lt (show w.toNat < 256 ^ 4 from w.isLt), BitVec.ofNat_toNat,
      BitVec.setWidth_eq]
  exact congrArg (fun v => (decode v).map fun i => (i, rest)) hvalue

theorem decodeBytes_encodeBytes (i : Instr) (rest : List Byte) :
    decodeBytes (encodeBytes i ++ rest) = .ok (i, rest) := by
  rw [encodeBytes, decodeBytes_leBytes, decode_eq_ok_iff.2 rfl]
  rfl

/-- Settles O3: the bytes of a command's word are those that the decoder puts together. -/
theorem decodeInvertsEncode : Obligations.DecodeInvertsEncode := by
  intro i rest _
  have hlt : (encode i).toNat < 2 ^ 32 := (encode i).isLt
  have hbytes := decodeBytes_encodeBytes i []
  rw [List.append_nil, encodeBytes] at hbytes
  refine ⟨decodeBytes_encodeBytes i rest, ?_⟩
  simp only [decodeTableWord, Nat.mod_eq_of_lt hlt, hbytes, if_pos hlt]

namespace Machine

theorem hostGoesFirst_eq_false {s : State} (h : s.host = [] ∨ s.turns.head? ≠ some .host) :
    hostGoesFirst s = false := by
  rcases h with h | h <;> simp [hostGoesFirst, h]

/-- Settles O4: with no turn of the host the step is the engine's on the pending word. -/
theorem stepRunsDecodedCommand : Obligations.StepRunsDecodedCommand := by
  intro s w hrun hpending hturn
  have hstep := step_of_pending hpending hrun (hostGoesFirst_eq_false hturn)
  refine ⟨fun i hi => ?_, fun e he => hstep.trans (runWord_of_decode_error he _)⟩
  obtain rfl := decode_eq_ok_iff.1 hi
  exact hstep.trans (runWord_encode i)

end Machine
end Sys2Proof
end

section
/-! Reads and writes of registers (10_state.md R17 to R30, 40_host_access.md R66, R67, R72). -/
namespace Sys2Proof.Machine

theorem busy_of_idle {s : State} (h : s.engine = .idle) : s.busy = false := by simp [State.busy, h]

theorem resolve_regAddr (p : Config.Params) (r : Reg) : resolve p (regAddr r).toNat 4 = some (.reg r) :=
  resolve_eq_reg_iff.2 ⟨rfl, by cases r <;> rfl⟩

theorem busData_four_toNat (v : Word) : busData .four v.toNat = .four v :=
  congrArg BusData.four ((BitVec.ofNat_toNat 32 v).trans v.setWidth_eq)

/-- A register that is steady, or any while idle, reads its value (R66, R72). -/
theorem hostAccess_read_reg {s : State} {r : Reg} (h : (s.busy && !r.steady) = false) :
    hostAccess (.read (regAddr r) .four) s = .next (s.respond (.data (.four (s.readReg r)))) := by
  simp only [hostAccess, hostRead, AccessSize.bytes, resolve_regAddr, h, Bool.false_eq_true, if_false,
    busData_four_toNat]

theorem hostAccess_read_steady {s : State} {r : Reg} (h : r.steady = true) :
    hostAccess (.read (regAddr r) .four) s = .next (s.respond (.data (.four (s.readReg r)))) :=
  hostAccess_read_reg (by simp [h])

theorem hostAccess_read_reg_of_idle {s : State} (h : s.engine = .idle) (r : Reg) :
    hostAccess (.read (regAddr r) .four) s = .next (s.respond (.data (.four (s.readReg r)))) :=
  hostAccess_read_reg (by simp [busy_of_idle h])

/-- While idle a RW register takes the word (R67). -/
theorem hostAccess_write_reg_of_idle {s : State} (h : s.engine = .idle) {r : Reg} (hrw : r.access = .rw) (v : Word) :
    hostAccess (.write (regAddr r) (.four v)) s = .next ((s.writeReg r v).respond .ok) := by
  have hvalue : BitVec.ofNat 32 v.toNat = v := (BitVec.ofNat_toNat 32 v).trans v.setWidth_eq
  simp only [hostAccess, hostWrite, BusData.size, AccessSize.bytes, BusData.value, resolve_regAddr, hrw,
    busy_of_idle h, Bool.false_eq_true, if_false, hvalue]

/-- Settles O15: the four registers are the steady ones. -/
theorem steadyRegistersReadTheSameWhileBusy : Obligations.SteadyRegistersReadTheSameWhileBusy := fun _ =>
  ⟨hostAccess_read_steady (r := .CMD) rfl, hostAccess_read_steady (r := .STATUS) rfl,
    hostAccess_read_steady (r := .IMG_C) rfl, hostAccess_read_steady (r := .DELIM_REG) rfl⟩

/-- Cutting a word to its low bits and widening it again is masking them. -/
theorem setWidth_setWidth_eq_and (v : Word) {k : Nat} (hk : k ≤ 32) :
    (v.setWidth k).setWidth 32 = v &&& BitVec.ofNat 32 (2 ^ k - 1) := by
  have hpow : 2 ^ k ≤ 2 ^ 32 := Nat.pow_le_pow_right (by decide) hk
  have hpos : 0 < 2 ^ k := Nat.two_pow_pos k
  apply BitVec.eq_of_toNat_eq
  rw [BitVec.toNat_and, BitVec.toNat_ofNat, Nat.mod_eq_of_lt (show 2 ^ k - 1 < 2 ^ 32 by omega),
    Nat.and_two_pow_sub_one_eq_mod, BitVec.toNat_setWidth, BitVec.toNat_setWidth,
    Nat.mod_eq_of_lt ((Nat.mod_lt _ hpos).trans_le hpow)]

/-- A RW register keeps the low bits of the word written to it, and reads them back with zeros above (10_state.md
R18). -/
theorem write_then_read_reg {s : State} (hidle : s.engine = .idle) {r : Reg} (hrw : r.access = .rw) (v : Word)
    {v' : Word} (hread : (s.writeReg r v).readReg r = v') :
    ∃ t, hostAccess (.write (regAddr r) (.four v)) s = .next t ∧ t = (s.writeReg r v).respond .ok ∧
      hostAccess (.read (regAddr r) .four) t = .next { t with responses := t.responses ++ [.data (.four v')] } := by
  have hidle' : ((s.writeReg r v).respond .ok).engine = .idle := by cases r <;> exact hidle
  have hvalue : ((s.writeReg r v).respond .ok).readReg r = v' := by rw [← hread]; cases r <;> rfl
  exact ⟨_, hostAccess_write_reg_of_idle hidle hrw v, rfl, hvalue ▸ hostAccess_read_reg_of_idle hidle' r⟩

theorem setWidth_eq_zero_append (b : Byte) : b.setWidth 32 = (0 : BitVec 24) ++ b :=
  (BitVec.setWidth_eq_append (by decide)).trans (BitVec.cast_eq _ _)

/-- Settles O16: each RW register reads back the bits that it keeps; the result registers read as they are. -/
theorem writableRegistersReadBack : Obligations.WritableRegistersReadBack := by
  intro s v hidle
  refine ⟨write_then_read_reg hidle (r := .MSG_LEN) rfl v rfl, write_then_read_reg hidle (r := .BIT_LEN) rfl v rfl,
    ?_, ?_, ?_, hostAccess_read_reg_of_idle hidle .CAP_AVAIL, hostAccess_read_reg_of_idle hidle .OUT_LEN,
    hostAccess_read_reg_of_idle hidle .DEC_BITS, ?_⟩
  · rw [← BitVec.setWidth_eq_extractLsb' (by decide)]
    exact write_then_read_reg hidle (r := .IMG_H) rfl v (setWidth_setWidth_eq_and v (k := 16) (by decide))
  · rw [← BitVec.setWidth_eq_extractLsb' (by decide)]
    exact write_then_read_reg hidle (r := .IMG_W) rfl v (setWidth_setWidth_eq_and v (k := 16) (by decide))
  · rw [← BitVec.setWidth_eq_extractLsb' (by decide)]
    exact write_then_read_reg hidle (r := .NSYM) rfl v (setWidth_setWidth_eq_and v (k := 9) (by decide))
  · rw [← setWidth_eq_zero_append]
    exact hostAccess_read_reg_of_idle hidle .MAX_CODE_LEN

theorem Reg.access_eq_ro_iff {r : Reg} :
    r.access = .ro ↔
      r ∈ ([.STATUS, .IMG_C, .CAP_AVAIL, .OUT_LEN, .DEC_BITS, .MAX_CODE_LEN, .DELIM_REG] : List Reg) := by
  cases r <;> decide

theorem Window.access_eq_ro_iff {w : Window} : w.access = .ro ↔ w ∈ ([.CODE_LEN, .CODE, .OUTBUF] : List Window) := by
  cases w <;> decide

/-- Settles O17: a write looks at the access kind first, and a RO target takes nothing. -/
theorem readOnlyWritesAreIgnored : Obligations.ReadOnlyWritesAreIgnored := by
  rintro s a d (⟨r, hreach, hr⟩ | ⟨w, hreach, hw⟩)
  · simp only [hostAccess, hostWrite, hreach, Reg.access_eq_ro_iff.2 hr, State.respond]
  · simp only [hostAccess, hostWrite, hreach, Window.access_eq_ro_iff.2 hw, State.respond]

/-- The registers whose reads are steady (R72). -/
theorem Reg.steady_eq_false_iff {r : Reg} :
    r.steady = false ↔ r ∉ ([.CMD, .STATUS, .IMG_C, .DELIM_REG] : List Reg) := by
  cases r <;> decide

/-- Settles O19: while busy such a read is a draw. -/
theorem busyReadIsFree : Obligations.BusyReadIsFree := by
  rintro s w a n hpending (⟨r, hreach, hr⟩ | ⟨v, hreach⟩)
  · simp only [hostAccess, hostRead, hreach, busy_of_pending hpending, Reg.steady_eq_false_iff.2 hr, Bool.not_false,
      Bool.and_true, if_true]
    rfl
  · simp only [hostAccess, hostRead, hreach, busy_of_pending hpending, if_true]
    rfl

/-- Settles O22: a read ends with its response, and with the draws behind it while busy. -/
theorem readsChangeNoBlockState : Obligations.ReadsChangeNoBlockState := by
  intro s t a n hread
  obtain ⟨r, rfl | ⟨-, rfl⟩⟩ := hostRead_cases hread <;> exact ⟨rfl, r, rfl⟩

end Sys2Proof.Machine
end

section
/-! Reads and writes of windows while idle (20_memory.md R46, 40_host_access.md R66, R67), and what the `CODE_LEN`,
`CODE` and bit buffer windows show (20_memory.md R44, R47). -/
namespace Sys2Proof.Machine

/-! ### Data and bytes -/

theorem BusData.value_lt (d : BusData) : d.value < 256 ^ d.size.bytes := by cases d <;> exact BitVec.isLt _

theorem busData_size_value (d : BusData) : busData d.size d.value = d := by
  cases d <;> simp [busData, BusData.size, BusData.value]

theorem size_busData (n : AccessSize) (v : Nat) : (busData n v).size = n := by cases n <;> rfl

theorem value_busData (n : AccessSize) (v : Nat) : (busData n v).value = v % 256 ^ n.bytes := by
  cases n <;> simp [busData, BusData.value, AccessSize.bytes]

theorem leValue_bytes (d : BusData) : leValue d.bytes = d.value := by
  rw [BusData.bytes, leValue_leBytes, Nat.mod_eq_of_lt d.value_lt]

theorem bytes_getElem (d : BusData) {k : Nat} (hk : k < d.bytes.length) :
    d.bytes[k] = BitVec.ofNat 8 (d.value / 256 ^ k) := by
  rw [← leValue_byte d.bytes hk, leValue_bytes]

/-- Data made of bytes holds them least significant first. -/
theorem value_busData_leValue {n : AccessSize} {bs : List Byte} (hlen : bs.length = n.bytes) :
    (busData n (leValue bs)).value = leValue bs := by
  rw [value_busData, Nat.mod_eq_of_lt (hlen ▸ leValue_lt bs)]

/-! ### Reads -/

theorem bytesAt_eq_some_iff {s : State} {a n : Nat} {bs : List Byte} :
    s.bytesAt a n = some bs ↔ bs.length = n ∧ ∀ k, (h : k < bs.length) → s.byteAt (a + k) = some bs[k] :=
  collect_range_eq_some_iff

theorem bytesAt_eq_none_iff {s : State} {a n : Nat} : s.bytesAt a n = none ↔ ∃ k < n, s.byteAt (a + k) = none := by
  simp [State.bytesAt, collect_eq_none_iff]

/-- While idle a window reads its bytes, if they are all written (R66, 10_state.md R39). -/
theorem hostAccess_read_window {s : State} (hidle : s.engine = .idle) {a : Addr} {n : AccessSize} {w : Window}
    (hreach : resolve s.params a.toNat n.bytes = some (.window w)) :
    hostAccess (.read a n) s = withOperand (s.bytesAt a.toNat n.bytes) fun bs =>
      .next (s.respond (.data (busData n (leValue bs)))) := by
  simp only [hostAccess, hostRead, hreach, busy_of_idle hidle, Bool.false_eq_true, if_false]

/-- Settles O20: an unwritten byte leaves the read without an operand; written bytes are the data. -/
theorem unwrittenReadFaults : Obligations.UnwrittenReadFaults := by
  intro s a n w hidle hreach
  have hread := hostAccess_read_window hidle hreach
  refine ⟨fun k hk hnone => ?_, fun hall => ?_⟩
  · rw [hread, bytesAt_eq_none_iff.2 ⟨k, hk, hnone⟩, withOperand_none]
  · obtain ⟨bs, hbs⟩ : ∃ bs, s.bytesAt a.toNat n.bytes = some bs := by
      refine Option.ne_none_iff_exists'.1 fun hnone => ?_
      obtain ⟨k, hk, hbyte⟩ := bytesAt_eq_none_iff.1 hnone
      exact hall k hk hbyte
    obtain ⟨hlen, hbyte⟩ := bytesAt_eq_some_iff.1 hbs
    refine ⟨busData n (leValue bs), size_busData n _, ?_, fun k hk => ?_⟩
    · rw [hread, hbs, withOperand_some, State.respond]
    · rw [value_busData_leValue hlen, leValue_byte bs (hlen ▸ hk)]
      exact hbyte k (hlen ▸ hk)

/-! ### Writes -/

theorem hostAccess_write_window_of_idle {s : State} (hidle : s.engine = .idle) {a : Addr} {d : BusData} {w : Window}
    (hreach : resolve s.params a.toNat d.size.bytes = some (.window w)) (hrw : w.access = .rw) :
    hostAccess (.write a d) s = .next ((s.storeBytes a.toNat d.bytes).respond .ok) := by
  simp only [hostAccess, hostWrite, hreach, hrw, busy_of_idle hidle, Bool.false_eq_true, if_false]

/-- A store inside a window that the memory stands behind reads back byte by byte. -/
theorem byteAt_storeBytes_inside {s : State} (hp : s.params.ok = true) {w : Window} (hw : inMemory w = true) {a : Nat}
    {bs : List Byte} (hbase : w.base ≤ a) (hend : a + bs.length ≤ w.base + w.size s.params) {k : Nat}
    (hk : k < bs.length) : (s.storeBytes a bs).byteAt (a + k) = some bs[k] := by
  have hwindow : windowAt s.params (a + k) = some w := (windowAt_eq_some_iff hp).2 ⟨by omega, by omega⟩
  rw [byteAt_of_memory (s := s.storeBytes a bs) hwindow (by rintro rfl; cases hw) (by rintro rfl; cases hw)]
  exact Memory.read_writeBlock_inside _ _ _ hk

@[simp] theorem byteAt_respond (s : State) (r : Response) (a : Nat) : (s.respond r).byteAt a = s.byteAt a := rfl

theorem byteAt_storeBytes_outside {s : State} {a x : Nat} {bs : List Byte} (hx : x < a ∨ a + bs.length ≤ x) :
    (s.storeBytes a bs).byteAt x = s.byteAt x :=
  byteAt_congr rfl rfl (Memory.read_writeBlock_outside _ _ _ hx)

/-- Settles O21: the write is one store inside the window, and the read collects the bytes stored. -/
theorem windowWriteReadsBackLittleEndian : Obligations.WindowWriteReadsBackLittleEndian := by
  intro s a d w hp hidle hreach hw
  have hrw := Window.access_eq_rw_iff.2 hw
  obtain ⟨hwindow, -, hend⟩ := resolve_eq_window_iff.1 hreach
  have hlen := d.bytes_length
  have hbyte : ∀ k, (hk : k < d.bytes.length) →
      ((s.storeBytes a.toNat d.bytes).respond .ok).byteAt (a.toNat + k) = some d.bytes[k] := fun k hk =>
    byteAt_storeBytes_inside hp (inMemory_of_access_eq_rw hrw) (windowAt_holds hwindow).1 (hlen ▸ hend) hk
  refine ⟨(s.storeBytes a.toNat d.bytes).respond .ok, hostAccess_write_window_of_idle hidle hreach hrw, rfl, ?_,
    fun k hk => ?_, fun x hx => ?_⟩
  · rw [hostAccess_read_window (s := (s.storeBytes a.toNat d.bytes).respond .ok) hidle hreach,
      bytesAt_eq_some_iff.2 ⟨hlen, hbyte⟩, withOperand_some, leValue_bytes, busData_size_value, State.respond]
  · rw [hbyte k (hlen ▸ hk), bytes_getElem]
  · rw [byteAt_respond, byteAt_storeBytes_outside (hlen ▸ hx)]

/-! ### The windows of the code table and of the bit buffer -/

section
variable {s : State} (hp : s.params.ok = true) {t : CodeTable} (ht : s.codeTable = some t)
include hp ht

theorem byteAt_codeLen {k : Nat} (hk : k < 256) : s.byteAt (0x021000 + k) = some (codeLenByte t k) := by
  have hwindow : windowAt s.params (0x021000 + k) = some .CODE_LEN := windowAt_base_add hp .CODE_LEN hk
  simp only [State.byteAt, hwindow, ht, Option.map_some, Window.base, Nat.add_sub_cancel_left]

theorem byteAt_code {k : Nat} (hk : k < 8192) : s.byteAt (0x022000 + k) = some (codeByte t k) := by
  have hwindow : windowAt s.params (0x022000 + k) = some .CODE := windowAt_base_add hp .CODE hk
  simp only [State.byteAt, hwindow, ht, Option.map_some, Window.base, Nat.add_sub_cancel_left]

end

/-- Bit `j` of a code is bit `j mod 8` of byte `j / 8` of its 32 bytes, or 0 after its end (R44). -/
theorem bitOfByte_codeByte (t : CodeTable) (x : Byte) {j : Nat} (hj : j < 256) :
    bitOfByte (codeByte t (32 * x.toNat + j / 8)) (j % 8) = (codeOf t x).getD j false := by
  rw [codeByte, show (32 * x.toNat + j / 8) / 32 = x.toNat by omega,
    show (32 * x.toNat + j / 8) % 32 = j / 8 by omega, bitOfByte_byteOfBits _ _ (Nat.mod_lt _ (by decide))]
  simp only [List.getD_eq_getElem?_getD, List.getElem?_drop, codeOf, Nat.div_add_mod]

/-- Settles O23: the bytes of the two code windows are computed from the table, the bit buffer's are in memory, and a
command reads the bits in order. -/
theorem codeWindowsShowTheTable : Obligations.CodeWindowsShowTheTable := by
  refine ⟨fun s t x hp ht _ => ?_, fun s i hp hi => ?_, fun s n => ⟨rfl, fun bits => collect_eq_some_iff⟩⟩
  · have hx := x.isLt
    refine ⟨byteAt_codeLen hp ht hx, fun j hj => ⟨codeByte t (32 * x.toNat + j / 8), ?_, ?_⟩⟩
    · rw [Nat.add_assoc]
      exact byteAt_code hp ht (by omega)
    · refine (bitOfByte_codeByte t x hj).trans ?_
      split
      next hlt => simp [hlt]
      next hle => simp [Nat.not_lt.1 hle]
  · have hbuf := params_bounds hp
    have hwindow : windowAt s.params (0x100000 + i / 8) = some .BITBUF :=
      windowAt_base_add hp .BITBUF (show i / 8 < s.params.bitbufBits / 8 by omega)
    rw [byteAt_of_memory hwindow (by decide) (by decide)]
    rfl

end Sys2Proof.Machine
end

section
/-! What each command writes (30_encoding.md R60, 10_state.md R31 to R36), and which errors it raises for which cause
(60_exceptions.md R100). -/
namespace Sys2Proof.Machine

/-! ### Registers and flags -/

/-- Only the commands that the table of R60 names for a register, flag or table change it. -/
theorem exec_registers {i : Instr} {s t : State} (h : exec i s = .next t) :
    t.lastOp = s.lastOp ∧
    (i ≠ .clear → t.msgLen = s.msgLen ∧ t.imgH = s.imgH ∧ t.imgW = s.imgW ∧ t.cmdOvr = s.cmdOvr) ∧
    (i ∉ ([.clear, .huffEncode, .extract] : List Instr) → t.bitLen = s.bitLen) ∧
    (i ∉ ([.clear, .capCheck, .embed, .extract] : List Instr) → t.capAvail = s.capAvail) ∧
    (i ∉ ([.clear, .huffCount, .huffEncode] : List Instr) → t.nsym = s.nsym) ∧
    (i ∉ ([.clear, .huffDecode] : List Instr) →
      t.outLen = s.outLen ∧ t.decBits = s.decBits ∧ t.delimFound = s.delimFound) ∧
    (i ∉ ([.clear, .huffBuild, .huffEncode] : List Instr) →
      t.maxCodeLen = s.maxCodeLen ∧ t.treeValid = s.treeValid) ∧
    (i ∉ ([.huffBuild, .huffEncode] : List Instr) → t.codeTable = s.codeTable) := by
  cases i with
  | nop => rw [nop_next h]; simp
  | clear => rw [clear_next h]; simp
  | huffCount => rcases huffCount_next h with ⟨-, rfl⟩ | ⟨-, msg, -, rfl⟩ <;> simp
  | huffBuild =>
    rcases huffBuild_next h with
      ⟨-, rfl⟩ | ⟨-, -, syms, -, ⟨-, rfl⟩ | ⟨-, -, rfl⟩ | ⟨-, -, cnts, -, ⟨-, rfl⟩ | ⟨-, rfl⟩⟩⟩ <;> simp
  | huffEncode =>
    rcases huffEncode_next h with
      ⟨-, rfl⟩ | ⟨-, msg, -, ⟨-, rfl⟩ | ⟨-, -, rfl⟩ | ⟨-, -, rfl⟩ | ⟨-, -, rfl⟩⟩ <;> simp
  | huffDecode =>
    rcases huffDecode_next h with
      ⟨-, rfl⟩ | ⟨-, -, rfl⟩ | ⟨-, -, table, -, ⟨-, rfl⟩ | ⟨out, used, found, -, rfl⟩⟩ <;> simp
  | capCheck =>
    rcases capCheck_next h with ⟨-, rfl⟩ | ⟨-, -, rfl⟩ | ⟨-, -, -, rfl⟩ | ⟨-, -, -, rfl⟩ <;> simp
  | embed =>
    rcases embed_next h with ⟨-, rfl⟩ | ⟨-, -, rfl⟩ | ⟨-, -, -, rfl⟩ | ⟨-, -, -, bits, pix, -, -, rfl⟩ <;> simp
  | extract => rcases extract_next h with ⟨-, rfl⟩ | ⟨-, pix, -, rfl⟩ <;> simp

/-! ### Windows -/

/-- The windows in memory that a command stores to (R60). -/
def storedWindows : Instr → List Window
  | .huffCount => [.FMAP_SYM, .FMAP_CNT]
  | .huffEncode => [.FMAP_SYM, .FMAP_CNT, .BITBUF]
  | .huffDecode => [.OUTBUF]
  | .embed => [.PIX]
  | .extract => [.BITBUF]
  | .nop | .clear | .huffBuild | .capCheck => []

section
variable {s : State} (hp : s.params.ok = true) {a : Nat} {w : Window} (ha : windowAt s.params a = some w)
include hp ha

theorem read_storeFreqMap_other {fm : FreqMap} (hlen : fm.length ≤ 256) (hsym : w ≠ .FMAP_SYM) (hcnt : w ≠ .FMAP_CNT) :
    (s.storeFreqMap fm).mem.read a = s.mem.read a := by
  refine storeFreqMap_read_outside s fm (fun hin => hsym ?_) fun hin => hcnt ?_
  · exact windows_disjoint hp (windowAt_holds ha) ⟨hin.1, hin.2.trans_le (Nat.add_le_add_left hlen _)⟩
  · exact windows_disjoint hp (windowAt_holds ha)
      ⟨hin.1, hin.2.trans_le (Nat.add_le_add_left (show 4 * fm.length ≤ 1024 by omega) _)⟩

theorem read_storeBits_other {bits : Bitstring} (hfit : bits.length ≤ s.params.bitbufBits) (hw : w ≠ .BITBUF) :
    (s.storeBits bits).mem.read a = s.mem.read a := by
  have := params_bounds hp
  have hbytes : (packBits bits).length ≤ s.params.bitbufBits / 8 := by rw [packBits_length]; omega
  exact read_writeBlock_other_window (v := .BITBUF) hp s.mem ha hbytes hw

/-- A command leaves the memory of every window alone that it does not store to. -/
theorem exec_read_other {i : Instr} {t : State} (h : exec i s = .next t) (hw : w ∉ storedWindows i) :
    t.mem.read a = s.mem.read a := by
  cases i with
  | nop => rw [nop_next h]; rfl
  | clear => rw [clear_next h]; rfl
  | huffCount =>
    simp only [storedWindows, List.mem_cons, List.not_mem_nil, or_false, not_or] at hw
    rcases huffCount_next h with ⟨-, rfl⟩ | ⟨-, msg, -, rfl⟩
    · rfl
    · exact read_storeFreqMap_other hp ha (countSymbols_length_le msg) hw.1 hw.2
  | huffBuild =>
    rcases huffBuild_next h with
      ⟨-, rfl⟩ | ⟨-, -, syms, -, ⟨-, rfl⟩ | ⟨-, -, rfl⟩ | ⟨-, -, cnts, -, ⟨-, rfl⟩ | ⟨-, rfl⟩⟩⟩ <;> rfl
  | huffEncode =>
    simp only [storedWindows, List.mem_cons, List.not_mem_nil, or_false, not_or] at hw
    obtain ⟨hsym, hcnt, hbits⟩ := hw
    rcases huffEncode_next h with ⟨-, rfl⟩ | ⟨-, msg, -, ⟨-, rfl⟩ | ⟨-, -, rfl⟩ | ⟨-, -, rfl⟩ | ⟨-, hfit, rfl⟩⟩
    case inr.inr.inr.inr =>
      rw [State.finish_mem, read_storeBits_other (s := (s.storeFreqMap (countSymbols msg)).loadTable
          (codeTableOf (countSymbols msg))) hp ha hfit hbits, State.loadTable_mem,
        read_storeFreqMap_other hp ha (countSymbols_length_le msg) hsym hcnt]
    all_goals rfl
  | huffDecode =>
    have hw : w ≠ .OUTBUF := fun hne => hw (List.mem_singleton.2 hne)
    rcases huffDecode_next h with
      ⟨-, rfl⟩ | ⟨-, -, rfl⟩ | ⟨-, -, table, -, ⟨-, rfl⟩ | ⟨out, used, found, hdecode, rfl⟩⟩
    · rfl
    · rfl
    · exact read_writeBlock_other_window (v := .OUTBUF) hp s.mem ha (freeBytes_length s _).le hw
    · exact read_writeBlock_other_window (v := .OUTBUF) hp s.mem ha (decodeBits_bounds hdecode).1 hw
  | capCheck =>
    rcases capCheck_next h with ⟨-, rfl⟩ | ⟨-, -, rfl⟩ | ⟨-, -, -, rfl⟩ | ⟨-, -, -, rfl⟩ <;> rfl
  | embed =>
    have hw : w ≠ .PIX := fun hne => hw (List.mem_singleton.2 hne)
    rcases embed_next h with
      ⟨-, rfl⟩ | ⟨-, -, rfl⟩ | ⟨-, -, -, rfl⟩ | ⟨hdims, hbuf, hcap, bits, pix, hbits, hpix, rfl⟩
    case inr.inr.inr =>
      have he : Embeds s bits pix := ⟨hdims, hbuf, hcap, hbits, hpix⟩
      have hfit : (embedBits pix bits).length ≤ s.params.pixMax := he.embedBits_length ▸ hcap.trans hdims
      exact read_writeBlock_other_window (v := .PIX) hp s.mem ha hfit hw
    all_goals rfl
  | extract =>
    have hw : w ≠ .BITBUF := fun hne => hw (List.mem_singleton.2 hne)
    rcases extract_next h with ⟨-, rfl⟩ | ⟨hdims, pix, hpix, rfl⟩
    · rfl
    · exact read_storeBits_other (s := s.setCapAvail) hp ha (extractBits_length_le hp hdims hpix) hw

/-- A window in memory is changed only by the commands that store to it. -/
theorem exec_byteAt_memory {i : Instr} {t : State} (h : exec i s = .next t) (hmem : inMemory w = true)
    (hw : w ∉ storedWindows i) : t.byteAt a = s.byteAt a := by
  obtain ⟨-, -, -, hparams, -⟩ := exec_next h
  have h1 : w ≠ .CODE_LEN := by rintro rfl; cases hmem
  have h2 : w ≠ .CODE := by rintro rfl; cases hmem
  rw [byteAt_of_memory ha h1 h2, byteAt_of_memory (hparams ▸ ha) h1 h2, exec_read_other hp ha h hw]

end

/-- The two windows of the code table are changed only with it. -/
theorem byteAt_code_windows {s t : State} (hparams : t.params = s.params) (htable : t.codeTable = s.codeTable) {a : Nat}
    {w : Window} (ha : windowAt s.params a = some w) (hw : w = .CODE_LEN ∨ w = .CODE) : t.byteAt a = s.byteAt a := by
  rcases hw with rfl | rfl <;> simp only [State.byteAt, hparams, ha, htable]

/-- Settles O60: the registers by `exec_registers`, the windows by `storedWindows` and, for the two that show the code
table, by the commands that load one. -/
theorem commandsWriteOnlyTheirResults : Obligations.CommandsWriteOnlyTheirResults := by
  intro i s t hp h
  obtain ⟨-, -, hfaulted, hparams, hhost, hturns, hresponses⟩ := exec_next h
  obtain ⟨hlastOp, hoperands, hbitLen, hcapAvail, hnsym, hdecoded, hcode, htable⟩ := exec_registers h
  refine ⟨⟨hhost, hturns, hresponses, hparams, hfaulted, hlastOp⟩, hoperands, hbitLen, hcapAvail, hnsym, hdecoded,
    hcode, htable, fun a w ha => ?_⟩
  have hstored : inMemory w = true → w ∉ storedWindows i → t.byteAt a = s.byteAt a := exec_byteAt_memory hp ha h
  refine ⟨?_, ?_, fun hw hi => byteAt_code_windows hparams (htable hi) ha hw, ?_, ?_, ?_⟩
  · rintro rfl
    exact hstored rfl (by cases i <;> decide)
  · rintro (rfl | rfl) hi <;> exact hstored rfl (by revert hi; cases i <;> decide)
  · rintro rfl hi
    exact hstored rfl (by revert hi; cases i <;> decide)
  · rintro rfl hi
    exact hstored rfl (by revert hi; cases i <;> decide)
  · rintro rfl hi
    exact hstored rfl (by revert hi; cases i <;> decide)

/-! ### Errors and their causes -/

/-- The conditions under which a command raises an error (R100, with the checks of 41_huffman.md and 42_lsb.md). -/
inductive Raises (s : State) : Instr → ErrCode → Prop where
  | dims {i : Instr} (hi : i = .capCheck ∨ i = .embed ∨ i = .extract) (h : s.params.pixMax < s.capacity) :
    Raises s i .dims
  | bitLen {i : Instr} (hi : i = .huffDecode ∨ i = .capCheck ∨ i = .embed) (h : s.params.bitbufBits < s.bitLen.toNat) :
    Raises s i .bitLen
  | capacity {i : Instr} (hi : i = .capCheck ∨ i = .embed) (h : s.capacity < s.bitLen.toNat) : Raises s i .capacity
  | noTree (h : s.treeValid = false) : Raises s .huffDecode .noTree
  | mapSize (h : s.nsym.toNat = 0 ∨ 256 < s.nsym.toNat) : Raises s .huffBuild .fmap
  | duplicate {syms : List Byte} (hsyms : s.fmapSyms s.nsym.toNat = some syms) (h : ¬ syms.Nodup) :
    Raises s .huffBuild .fmap
  | emptyMessage (h : s.msgLen.toNat = 0) : Raises s .huffEncode .fmap
  | mapNoDelim {syms : List Byte} (hsyms : s.fmapSyms s.nsym.toNat = some syms) (h : 0x23 ∉ syms) :
    Raises s .huffBuild .noDelim
  | messageNoDelim {msg : List Byte} (hmsg : s.message = some msg) (h : 0x23 ∉ msg) : Raises s .huffEncode .noDelim
  | freqOvf {cnts : List Nat} (hcnts : s.fmapCnts s.nsym.toNat = some cnts) (h : 2 ^ 32 - 1 < cnts.sum) :
    Raises s .huffBuild .freqOvf
  | msgLen {i : Instr} (hi : i = .huffCount ∨ i = .huffEncode) (h : s.params.msgMax < s.msgLen.toNat) :
    Raises s i .msgLen
  | codeTooLong {msg : List Byte} (hmsg : s.message = some msg)
    (h : s.params.bitbufBits < (encodeMessage (codeTableOf (countSymbols msg)) msg).length) :
    Raises s .huffEncode .bitLen
  | outOvf {table : CodeTable} (htable : s.codeTable = some table)
    (h : decodeBits table s.params.outMax (s.bitStream s.bitLen.toNat) = .overflow) : Raises s .huffDecode .outOvf

theorem countSymbols_eq_nil_iff {msg : List Byte} : countSymbols msg = [] ↔ msg = [] := by
  constructor
  · intro h
    rw [List.eq_nil_iff_forall_not_mem]
    intro x hx
    have := mem_keys_countSymbols.2 hx
    simp [h] at this
  · rintro rfl
    rfl

/-- A command issued with `ERR = 0` ends without error or with an error whose cause held. -/
theorem exec_raises {i : Instr} {s t : State} (hs : s.err = .none) (h : exec i s = .next t) :
    t.err = .none ∨ Raises s i t.err := by
  cases i with
  | nop => exact .inl (nop_next h ▸ hs)
  | clear => exact .inl (clear_next h ▸ hs)
  | huffCount =>
    rcases huffCount_next h with ⟨hlen, rfl⟩ | ⟨-, msg, -, rfl⟩
    · exact .inr (.msgLen (.inl rfl) hlen)
    · exact .inl hs
  | huffBuild =>
    rcases huffBuild_next h with
      ⟨hsize, rfl⟩ | ⟨-, -, syms, hsyms, ⟨hdup, rfl⟩ | ⟨-, hdelim, rfl⟩ | ⟨-, -, cnts, hcnts, ⟨hsum, rfl⟩ | ⟨-, rfl⟩⟩⟩
    · exact .inr (.mapSize hsize)
    · exact .inr (.duplicate hsyms hdup)
    · exact .inr (.mapNoDelim hsyms hdelim)
    · exact .inr (.freqOvf hcnts hsum)
    · exact .inl hs
  | huffEncode =>
    rcases huffEncode_next h with
      ⟨hlen, rfl⟩ | ⟨-, msg, hmsg, ⟨hnil, rfl⟩ | ⟨-, hdelim, rfl⟩ | ⟨-, hlong, rfl⟩ | ⟨-, -, rfl⟩⟩
    · exact .inr (.msgLen (.inr rfl) hlen)
    · refine .inr (.emptyMessage ?_)
      rw [← message_length hmsg, countSymbols_eq_nil_iff.1 hnil, List.length_nil]
    · exact .inr (.messageNoDelim hmsg (mt mem_keys_countSymbols.2 hdelim))
    · exact .inr (.codeTooLong hmsg hlong)
    · exact .inl hs
  | huffDecode =>
    rcases huffDecode_next h with
      ⟨htree, rfl⟩ | ⟨-, hlen, rfl⟩ | ⟨-, -, table, htable, ⟨hovf, rfl⟩ | ⟨out, used, found, -, rfl⟩⟩
    · exact .inr (.noTree htree)
    · exact .inr (.bitLen (.inl rfl) hlen)
    · exact .inr (.outOvf htable hovf)
    · exact .inl hs
  | capCheck =>
    rcases capCheck_next h with ⟨hdims, rfl⟩ | ⟨-, hlen, rfl⟩ | ⟨-, -, hcap, rfl⟩ | ⟨-, -, -, rfl⟩
    · exact .inr (.dims (.inl rfl) hdims)
    · exact .inr (.bitLen (.inr (.inl rfl)) hlen)
    · exact .inr (.capacity (.inl rfl) hcap)
    · exact .inl hs
  | embed =>
    rcases embed_next h with ⟨hdims, rfl⟩ | ⟨-, hlen, rfl⟩ | ⟨-, -, hcap, rfl⟩ | ⟨-, -, -, bits, pix, -, -, rfl⟩
    · exact .inr (.dims (.inr (.inl rfl)) hdims)
    · exact .inr (.bitLen (.inr (.inr rfl)) hlen)
    · exact .inr (.capacity (.inr rfl) hcap)
    · exact .inl hs
  | extract =>
    rcases extract_next h with ⟨hdims, rfl⟩ | ⟨-, pix, -, rfl⟩
    · exact .inr (.dims (.inr (.inr rfl)) hdims)
    · exact .inl hs

theorem errCode_codes :
    ([.none, .badCmd, .capacity, .noTree, .fmap, .noDelim, .freqOvf, .msgLen, .bitLen, .dims, .outOvf] :
      List ErrCode).map ErrCode.code = [0, 1, 2, 3, 4, 5, 6, 7, 8, 9, 10] ∧ ∀ e : ErrCode, e.code.toNat ≤ 10 :=
  ⟨rfl, fun e => by cases e <;> decide⟩

/-- Settles O59: an error of a command is one that it raises (`exec_raises`), and `E_BADCMD` is left to the words that
do not decode. -/
theorem errorsComeFromTheirCauses : Obligations.ErrorsComeFromTheirCauses := by
  have hraises : ∀ {i : Instr} {s t : State} {e : ErrCode}, s.err = .none → exec i s = .next t → t.err = e →
      e ≠ .none → Raises s i e := fun hs h he hne => he ▸ (exec_raises hs h).resolve_left (he ▸ hne)
  refine ⟨errCode_codes, fun w s t hs hrun hbad => ?_, fun i s t hs h => ⟨fun he => ?_, fun he => ⟨he ▸ rfl, ?_⟩,
    fun he => ⟨he ▸ rfl, ?_⟩, fun he => ⟨he ▸ rfl, ?_⟩, fun he => ⟨he ▸ rfl, ?_⟩, fun he => ⟨he ▸ rfl, ?_⟩,
    fun he => ⟨he ▸ rfl, ?_⟩, fun he => ⟨he ▸ rfl, ?_⟩, fun he => ⟨he ▸ rfl, ?_⟩, fun he => ⟨he ▸ rfl, ?_⟩⟩⟩
  · rcases runWord_cases hrun with ⟨i, -, hexec⟩ | ⟨e, herror, -⟩
    · exact absurd (hraises hs hexec hbad nofun) nofun
    · by_contra hlegal
      rw [not_or, not_not, not_not] at hlegal
      obtain ⟨i, hi⟩ := exists_decode_eq_ok_iff.2 hlegal
      exact absurd (hi.symm.trans herror) nofun
  · exact absurd (hraises hs h he nofun) nofun
  · cases hraises hs h he nofun with
    | capacity hi hlt => exact ⟨hi, hlt⟩
  · cases hraises hs h he nofun with
    | noTree htree => exact ⟨rfl, htree⟩
  · cases hraises hs h he nofun with
    | mapSize hsize => exact .inl ⟨rfl, hsize.elim .inl fun hlt => .inr (.inl hlt)⟩
    | duplicate hsyms hdup => exact .inl ⟨rfl, .inr (.inr ⟨_, hsyms, hdup⟩)⟩
    | emptyMessage hlen => exact .inr ⟨rfl, hlen⟩
  · cases hraises hs h he nofun with
    | mapNoDelim hsyms hdelim => exact .inl ⟨rfl, _, hsyms, hdelim⟩
    | messageNoDelim hmsg hdelim => exact .inr ⟨rfl, _, hmsg, hdelim⟩
  · cases hraises hs h he nofun with
    | freqOvf hcnts hsum => exact ⟨rfl, _, hcnts, hsum⟩
  · cases hraises hs h he nofun with
    | msgLen hi hlen => exact ⟨hi, hlen⟩
  · cases hraises hs h he nofun with
    | bitLen hi hlen => exact .inl ⟨hi, hlen⟩
    | codeTooLong hmsg hlong => exact .inr ⟨rfl, _, hmsg, hlong⟩
  · cases hraises hs h he nofun with
    | dims hi hdims => exact ⟨hi, hdims⟩
  · cases hraises hs h he nofun with
    | outOvf htable hovf => exact ⟨rfl, _, htable, hovf⟩

end Sys2Proof.Machine
end

section
/-! The step of the interleaving (20_memory.md R53, 70_reset_and_hazards.md R118 to R120), `WAIT` (30_encoding.md R65),
the overrun flag (40_host_access.md R69), the next issue after an error (60_exceptions.md R104) and reset
(70_reset_and_hazards.md R108). -/
namespace Sys2Proof.Machine

/-! ### Whose step it is -/

section
variable {s : State} (hrun : s.faulted = false)
include hrun

theorem step_of_idle (hidle : s.engine = .idle) : step s = hostStep s := by
  simp only [step, hrun, Bool.false_eq_true, if_false, agentStep, hidle]

theorem step_of_host_turn {w : Word} (hpending : s.engine = .pending w) (hhost : s.host ≠ []) {ts : List Agent}
    (hturns : s.turns = .host :: ts) : step s = hostStep { s with turns := ts } := by
  have hfirst : hostGoesFirst s = true := by simp [hostGoesFirst, hturns, hhost]
  have hpass : s.passTurn = { s with turns := ts } := by simp only [State.passTurn, hturns, List.tail_cons]
  simp only [step, hrun, Bool.false_eq_true, if_false, agentStep, hpending, hfirst, if_true, hpass]

end

theorem hostStep_nil {s : State} (h : s.host = []) : hostStep s = .next s := by simp only [hostStep, h]

theorem hostStep_access {s : State} {x : Transaction} {rest : List HostOp} (h : s.host = .access x :: rest) :
    hostStep s = hostAccess x (s.withHost rest) := by simp only [hostStep, h]

theorem hostStep_reset {s : State} {rest : List HostOp} (h : s.host = .reset :: rest) :
    hostStep s = .next (s.withHost rest).platformReset := by simp only [hostStep, h]

/-- A poll of `WAIT` reads `STATUS`, and leaves the list only when it reads `BUSY = 0` (30_encoding.md R65). -/
theorem hostStep_wait {s : State} {rest : List HostOp} (h : s.host = .wait :: rest) :
    hostStep s = .next ((if s.busy then s else s.withHost rest).respond (.data (.four s.statusWord))) := by
  have hword : (if s.busy then s else s.withHost rest).readReg .STATUS = s.statusWord := by split <;> rfl
  simp only [hostStep, h, hostAccess_read_steady (r := .STATUS) rfl, hword]

/-- Settles O5: the four ways in which the host comes to move, or has nothing to do. -/
theorem hostMovesWhenScheduledOrEngineIdle : Obligations.HostMovesWhenScheduledOrEngineIdle :=
  ⟨fun _ _ _ hhost => hostStep_access hhost, fun _ hrun hidle => step_of_idle hrun hidle,
    fun _ hrun hidle hhost => (step_of_idle hrun hidle).trans (hostStep_nil hhost),
    fun _ _ _ hrun hpending hhost hturns => step_of_host_turn hrun hpending hhost hturns⟩

/-! ### Faults and the end of a run -/

theorem advance_of_next {s t : State} (h : step s = .next t) : s.advance = t := by simp only [State.advance, h]

theorem advance_of_fault {s : State} {f : Fault} (h : step s = .fault f) : s.advance = { s with faulted := true } := by
  simp only [State.advance, h]

theorem step_of_faulted {s : State} (h : s.faulted = true) : step s = .fault .faulted := if_pos h

/-- Where a step leads back to its own state, so does any number of steps. -/
theorem afterSteps_of_advance_eq {s : State} (h : s.advance = s) (n : Nat) : s.afterSteps n = s := by
  induction n with
  | zero => rfl
  | succ n ih => rw [State.afterSteps, h, ih]

theorem advance_of_faulted {s : State} (h : s.faulted = true) : s.advance = s := by
  rw [advance_of_fault (step_of_faulted h), ← h]

theorem advance_of_final {s : State} (h : s.final) : s.advance = s := by
  obtain ⟨hhost, hidle, hrun⟩ := h
  exact advance_of_next ((step_of_idle hrun hidle).trans (hostStep_nil hhost))

/-- Settles O7: faulted and final states step to themselves. -/
theorem faultStopsTheRun : Obligations.FaultStopsTheRun := by
  refine ⟨fun s f h => advance_of_fault h, fun s n h => ?_,
    fun s n h => afterSteps_of_advance_eq (advance_of_final h) n⟩
  have hstay := afterSteps_of_advance_eq (advance_of_faulted h) n
  refine ⟨step_of_faulted h, hstay, fun ⟨_, _, hrun⟩ => ?_⟩
  rw [hstay, h] at hrun
  cases hrun

/-! ### `STATUS` -/

/-- The one-bit fields of `STATUS`, lowest first (10_state.md R20). -/
theorem statusWord_bits (s : State) :
    s.statusWord.getLsbD 0 = s.busy ∧ s.statusWord.getLsbD 1 = s.done ∧ s.statusWord.getLsbD 2 = s.treeValid ∧
    s.statusWord.getLsbD 3 = s.delimFound ∧ s.statusWord.getLsbD 4 = s.cmdOvr := by
  unfold State.statusWord flagBit
  simp only [BitVec.getLsbD_append]
  simp

/-- The wider fields of `STATUS`, each above the narrower ones below it, and the reserved bits between them. -/
theorem statusWord_fields (s : State) :
    s.statusWord.extractLsb' 5 3 = 0 ∧ s.statusWord.extractLsb' 8 4 = s.err.code ∧
    s.statusWord.extractLsb' 12 4 = 0 ∧ s.statusWord.extractLsb' 16 8 = s.lastOp ∧
    s.statusWord.extractLsb' 24 8 = 0 := by
  unfold State.statusWord flagBit
  simp (disch := decide) only [BitVec.extractLsb'_append_eq_of_le]
  simp (disch := decide) only [BitVec.extractLsb'_append_eq_of_add_le]
  simp

/-- Settles O9: the fields of the word, in two groups. -/
theorem statusFieldsStandInPlace : Obligations.StatusFieldsStandInPlace := by
  intro s
  obtain ⟨hbusy, hdone, htree, hdelim, hovr⟩ := statusWord_bits s
  exact ⟨hbusy, hdone, htree, hdelim, hovr, statusWord_fields s⟩

theorem statusWord_bit_zero (s : State) : s.statusWord.getLsbD 0 = s.busy := (statusWord_bits s).1

/-! ### `WAIT` -/

theorem step_wait_of_idle {s : State} {rest : List HostOp} (hrun : s.faulted = false) (hidle : s.engine = .idle)
    (hhost : s.host = .wait :: rest) :
    step s = .next { s with host := rest, responses := s.responses ++ [.data (.four s.statusWord)] } := by
  rw [step_of_idle hrun hidle, hostStep_wait hhost, busy_of_idle hidle]
  rfl

theorem step_wait_of_host_turn {s : State} {w : Word} {rest : List HostOp} {ts : List Agent} (hrun : s.faulted = false)
    (hpending : s.engine = .pending w) (hhost : s.host = .wait :: rest) (hturns : s.turns = .host :: ts) :
    step s = .next { s with turns := ts, responses := s.responses ++ [.data (.four s.statusWord)] } := by
  have hbusy : ({ s with turns := ts } : State).busy = true := busy_of_pending hpending
  rw [step_of_host_turn hrun hpending (by simp [hhost]) hturns,
    hostStep_wait (s := { s with turns := ts }) hhost, hbusy]
  rfl

/-- The polls that the schedule gives the host change nothing but the responses. -/
theorem afterSteps_wait {s : State} {w : Word} {rest : List HostOp} {k : Nat} {ts : List Agent}
    (hrun : s.faulted = false) (hpending : s.engine = .pending w) (hhost : s.host = .wait :: rest)
    (hturns : s.turns = List.replicate k .host ++ ts) :
    s.afterSteps k = { s with
      turns := ts, responses := s.responses ++ List.replicate k (.data (.four s.statusWord)) } := by
  induction k generalizing s with
  | zero =>
    obtain rfl : s.turns = ts := hturns
    simp [State.afterSteps]
  | succ k ih =>
    have hpoll := step_wait_of_host_turn hrun hpending hhost hturns
    rw [State.afterSteps, advance_of_next hpoll]
    refine Eq.trans (ih ?_ ?_ ?_ ?_) ?_
    · exact hrun
    · exact hpending
    · exact hhost
    · rfl
    simp only [List.replicate_succ, List.append_assoc, List.singleton_append]
    rfl

/-- Settles O8: the scheduled polls, then the engine's step, then the poll that ends `WAIT`. -/
theorem waitEndsAfterTheScheduledPolls : Obligations.WaitEndsAfterTheScheduledPolls := by
  have hend : ∀ (s : State) (rest : List HostOp), s.faulted = false → s.engine = .idle → s.host = .wait :: rest →
      step s = .next { s with host := rest, responses := s.responses ++ [.data (.four s.statusWord)] } ∧
      s.statusWord.getLsbD 0 = false := fun s rest hrun hidle hhost =>
    ⟨step_wait_of_idle hrun hidle hhost, (statusWord_bit_zero s).trans (busy_of_idle hidle)⟩
  refine ⟨hend, fun s w rest k ts hrun hpending hhost hturns hts => ?_⟩
  refine ⟨_, rfl, afterSteps_wait hrun hpending hhost hturns,
    (statusWord_bit_zero s).trans (busy_of_pending hpending), ?_⟩
  rw [afterSteps_wait hrun hpending hhost hturns]
  have hstep := step_of_pending (s := { s with
    turns := ts, responses := s.responses ++ List.replicate k (.data (.four s.statusWord)) })
    hpending hrun (hostGoesFirst_eq_false (.inr hts))
  refine ⟨hstep, fun u hu => ?_⟩
  obtain ⟨hidle, -, hfaulted, -, hhost', -⟩ := runWord_next (hstep.symm.trans hu)
  exact hend u rest (hfaulted.trans hrun) hidle (hhost'.trans hhost)

/-! ### The overrun flag -/

section
variable {s t : State} (hovr : s.cmdOvr = true)
include hovr

theorem runWord_keeps_cmdOvr {w : Word} (h : runWord w s = .next t) (hw : w ≠ encode .clear) : t.cmdOvr = true := by
  rcases runWord_cases h with ⟨i, hi, hexec⟩ | ⟨e, -, rfl⟩
  · obtain ⟨-, hoperands, -⟩ := exec_registers hexec
    obtain ⟨-, -, -, hkeep⟩ := hoperands (by rintro rfl; exact hw (decode_eq_ok_iff.1 hi))
    exact hkeep.trans hovr
  · exact hovr

theorem hostAccess_keeps_cmdOvr {x : Transaction} (h : hostAccess x s = .next t) : t.cmdOvr = true := by
  cases x with
  | read a n =>
    obtain ⟨r, rfl | ⟨-, rfl⟩⟩ := hostRead_cases h <;> exact hovr
  | write a d =>
    rcases hostWrite_cases h with ⟨r, rfl⟩ | rfl | ⟨-, r, -, -, rfl⟩ | ⟨-, w, -, -, rfl⟩
    · exact hovr
    · rw [State.respond_cmdOvr, State.writeCmd]
      split
      · rfl
      · exact hovr
    · cases r <;> exact hovr
    · exact hovr

theorem hostStep_keeps_cmdOvr (h : hostStep s = .next t) (hreset : s.host.head? ≠ some .reset) : t.cmdOvr = true := by
  rcases hostStep_cases h with ⟨-, rfl⟩ | ⟨x, rest, -, haccess⟩ | ⟨rest, hhost, -⟩ | ⟨rest, -, haccess⟩
  · exact hovr
  · exact hostAccess_keeps_cmdOvr (s := s.withHost rest) hovr haccess
  · exact absurd (by rw [hhost]; rfl) hreset
  · exact hostAccess_keeps_cmdOvr (by split <;> exact hovr) haccess

end

/-- Settles O11: a `CMD` write while busy is the overrun; of all operations only `CLEAR` and reset write the flag 0. -/
theorem cmdWriteWhileBusyOnlySetsOverrun : Obligations.CmdWriteWhileBusyOnlySetsOverrun := by
  refine ⟨fun s w v hpending => ?_, fun s t hovr hstep => ?_⟩
  · rw [hostAccess_write_cmd, State.writeCmd, busy_of_pending hpending, if_pos rfl]
    rfl
  · by_cases hreset : s.host.head? = some .reset
    · exact .inr (.inr hreset)
    obtain ⟨-, ⟨-, hhost⟩ | ⟨w, -, -, hhost⟩ | ⟨w, hpending, -, hrun⟩⟩ := step_cases hstep
    · exact .inl (hostStep_keeps_cmdOvr hovr hhost hreset)
    · exact .inl (hostStep_keeps_cmdOvr (s := s.passTurn) hovr hhost hreset)
    · by_cases hw : w = encode .clear
      · exact .inr (.inl (hw ▸ hpending))
      · exact .inl (runWord_keeps_cmdOvr (s := s.passTurn) hovr hrun hw)

/-! ### After an error, and reset -/

/-- Settles O12: an aborted command leaves the engine idle, and an idle engine issues the next word. -/
theorem errorDoesNotBlockNextCommand : Obligations.ErrorDoesNotBlockNextCommand := by
  intro e s t w h
  obtain rfl := abort_eq_next.1 h
  refine ⟨rfl, rfl, ((s.fail e).issue w).respond .ok, ?_, rfl, rfl⟩
  rw [hostAccess_write_cmd, writeCmd_of_idle (s := s.fail e) rfl]

theorem statusWord_platformReset (s : State) : s.platformReset.statusWord = 0 := by
  show (0 : BitVec 8) ++ (0 : Byte) ++ (0 : BitVec 4) ++ ErrCode.none.code ++ (0 : BitVec 3) ++ flagBit false
    ++ flagBit false ++ flagBit false ++ flagBit false ++ flagBit false = 0
  decide

/-- Settles O24: the next host operation is the platform's reset, which empties the memory and the code table. -/
theorem resetSetsRegistersAndClearsMarks : Obligations.ResetSetsRegistersAndClearsMarks := fun _ _ hhost =>
  ⟨_, hostStep_reset hhost, rfl, statusWord_platformReset _, rfl, rfl, byteAt_eq_none_of_unwritten rfl rfl⟩

end Sys2Proof.Machine
end

section
/-! Huffman trees (41_huffman.md R75, R76, R83): the merge loop leaves one root, a leaf's code is the path to it, and
the paths of a tree with two leaves or more are a complete code. -/
namespace Sys2Proof.Machine

/-! ### The merge loop -/

theorem mergeLowest_of_sorted {l : List Tree} {a b : Tree} {rest : List Tree}
    (h : stableSortByFreq l = a :: b :: rest) :
    mergeLowest l = rest ++ [.node (treeFreq a + treeFreq b) a b] := by simp only [mergeLowest, h]

/-- A pass keeps the sum of the frequencies: the merged node has those of its children. -/
theorem mergeLowest_freq_sum (l : List Tree) : ((mergeLowest l).map treeFreq).sum = (l.map treeFreq).sum := by
  have hsort := ((stableSortByFreq_perm l).map treeFreq).sum_eq
  unfold mergeLowest
  split
  next a b rest heq =>
    rw [heq] at hsort
    rw [← hsort]
    simp [treeFreq]
    omega
  next => exact hsort

theorem mergePasses_freq_sum (n : Nat) (l : List Tree) :
    ((mergePasses n l).map treeFreq).sum = (l.map treeFreq).sum := by
  induction n generalizing l with
  | zero => rfl
  | succ n ih => rw [mergePasses, ih, mergeLowest_freq_sum]

/-- `n - 1` passes over the leaves of a nonempty map leave one node (R75). -/
theorem exists_mergePasses_eq_singleton {fm : FreqMap} (hne : fm ≠ []) :
    ∃ root, mergePasses (fm.length - 1) (fm.map fun e => Tree.leaf e.1 e.2) = [root] := by
  have hpos := List.length_pos_iff.2 hne
  have hlen := mergePasses_length (n := fm.length - 1) (l := fm.map fun e => Tree.leaf e.1 e.2) (by simp; omega)
  exact List.length_eq_one_iff.1 (hlen.trans (by simp; omega))

/-- Settles O32: the leaves and the sum of the frequencies are kept by every pass. -/
theorem buildTreeMergesToOneRoot : Obligations.BuildTreeMergesToOneRoot := by
  refine ⟨fun l a b rest h => mergeLowest_of_sorted h, fun fm hne => ?_⟩
  obtain ⟨root, hroot⟩ := exists_mergePasses_eq_singleton hne
  have hbuild : buildTree fm = some root := by rw [buildTree, hroot, List.head?_cons]
  have hleaves := mergePasses_leafSymbols_perm (fm.length - 1) (fm.map fun e => Tree.leaf e.1 e.2)
  have hsum := mergePasses_freq_sum (fm.length - 1) (fm.map fun e => Tree.leaf e.1 e.2)
  rw [hroot, List.flatMap_singleton, flatMap_leafSymbols_leaves] at hleaves
  rw [hroot, List.map_singleton, List.sum_singleton, List.map_map] at hsum
  exact ⟨root, mergePasses_eq_iterate _ _ ▸ hroot, hbuild, codeTableOf_eq hbuild, hsum, hleaves⟩

/-! ### Paths -/

/-- The leaves of a node, each path one branch longer than in the child. -/
theorem walk_node_nil (f : Nat) (l r : Tree) : walk (.node f l r) [] =
    (walk l []).map (fun e => (e.1, false :: e.2)) ++ (walk r []).map (fun e => (e.1, true :: e.2)) := by
  rw [walk, walk_path l, walk_path r]
  rfl

/-- A walk lists a leaf with the bitstring that leads to it, and with no other. -/
theorem mem_walk_iff_follow {t : Tree} {x : Byte} {p : Bitstring} :
    (x, p) ∈ walk t [] ↔ ∃ g, follow t p = some (.leaf x g) := by
  induction t generalizing p with
  | leaf y f =>
    cases p with
    | nil => simp [walk, eq_comm]
    | cons b p => simp [walk]
  | node f l r ihl ihr =>
    rw [walk_node_nil, List.mem_append, List.mem_map, List.mem_map]
    cases p with
    | nil => simp
    | cons b p => cases b <;> simp [← ihl, ← ihr]

theorem codeOf_codesOf_leaf (x : Byte) (f : Nat) (y : Byte) :
    codeOf (codesOf (.leaf x f)) y = if y = x then [false] else [] := by
  rw [codeOf_codesOf, leafCodes]
  split
  next h => exact codeIn_mem (l := [(x, [false])]) (List.nodup_singleton x) (by rw [h]; exact List.mem_singleton.2 rfl)
  next h => exact codeIn_notMem (mt List.mem_singleton.1 h)

theorem codesOf_length (root : Tree) : (codesOf root).length = 256 := by simp [codesOf, Config.nsymMax]

section
variable {f : Nat} {l r : Tree} {x : Byte}

/-- With distinct symbols the code of a leaf is its path (R76). -/
theorem codeOf_codesOf_of_mem_walk (hnodup : (leafSymbols (.node f l r)).Nodup) {p : Bitstring}
    (h : (x, p) ∈ walk (.node f l r) []) : codeOf (codesOf (.node f l r)) x = p := by
  rw [codeOf_codesOf]
  exact codeIn_mem hnodup h

theorem mem_walk_codeOf (h : x ∈ leafSymbols (.node f l r)) :
    (x, codeOf (codesOf (.node f l r)) x) ∈ walk (.node f l r) [] := mem_leafCodes_codeOf h

end

/-- Settles O33: the code of a symbol is its path in the walk, and `follow` reads a path as the walk writes it. -/
theorem codesAreTheTreePaths : Obligations.CodesAreTheTreePaths := by
  refine ⟨codeOf_codesOf_leaf, fun f l r x p hnodup h => codeOf_codesOf_of_mem_walk hnodup h, fun f l r x h => ?_,
    codesOf_length, fun x f p => rfl, fun f l r p => rfl, fun f l r x hnodup h =>
    ⟨mem_walk_iff_follow.1 (mem_walk_codeOf h), fun p g hfollow =>
      codeOf_codesOf_of_mem_walk hnodup (mem_walk_iff_follow.2 ⟨g, hfollow⟩)⟩⟩
  rw [codeOf_codesOf]
  exact codeIn_notMem h

/-! ### Completeness -/

/-- The Kraft sum of a tree's paths, scaled by `2 ^ n` for any bound `n` of their lengths. -/
theorem walk_kraft_sum (t : Tree) {n : Nat} (h : ∀ e ∈ walk t [], e.2.length ≤ n) :
    ((walk t []).map fun e => 2 ^ (n - e.2.length)).sum = 2 ^ n := by
  induction t generalizing n with
  | leaf x f => simp [walk]
  | node f l r ihl ihr =>
    rw [walk_node_nil] at h ⊢
    have hl : ∀ e ∈ walk l [], e.2.length + 1 ≤ n := fun e he =>
      h _ (List.mem_append_left _ (List.mem_map_of_mem he))
    have hr : ∀ e ∈ walk r [], e.2.length + 1 ≤ n := fun e he =>
      h _ (List.mem_append_right _ (List.mem_map_of_mem he))
    obtain ⟨e, he⟩ := List.exists_mem_of_ne_nil _ (walk_ne_nil l [])
    obtain ⟨m, rfl⟩ : ∃ m, n = m + 1 := ⟨n - 1, by have := hl e he; omega⟩
    have hsuml := ihl fun e he => Nat.le_of_succ_le_succ (hl e he)
    have hsumr := ihr fun e he => Nat.le_of_succ_le_succ (hr e he)
    simp only [List.map_append, List.map_map, List.sum_append, Function.comp_def, List.length_cons,
      Nat.add_sub_add_right, hsuml, hsumr]
    rw [pow_succ, Nat.mul_two]

/-- A bitstring as long as every path begins with one of them. -/
theorem exists_walk_isPrefix (t : Tree) {bits : Bitstring} (h : ∀ e ∈ walk t [], e.2.length ≤ bits.length) :
    ∃ e ∈ walk t [], e.2 <+: bits := by
  induction t generalizing bits with
  | leaf x f => exact ⟨(x, []), List.mem_singleton.2 rfl, List.nil_prefix⟩
  | node f l r ihl ihr =>
    rw [walk_node_nil] at h ⊢
    have hl : ∀ e ∈ walk l [], e.2.length + 1 ≤ bits.length := fun e he =>
      h _ (List.mem_append_left _ (List.mem_map_of_mem he))
    have hr : ∀ e ∈ walk r [], e.2.length + 1 ≤ bits.length := fun e he =>
      h _ (List.mem_append_right _ (List.mem_map_of_mem he))
    cases bits with
    | nil =>
      obtain ⟨e, he⟩ := List.exists_mem_of_ne_nil _ (walk_ne_nil l [])
      exact absurd (hl e he) (Nat.not_succ_le_zero _)
    | cons b bits =>
      cases b with
      | false =>
        obtain ⟨e, he, hpre⟩ := ihl fun e he => Nat.le_of_succ_le_succ (hl e he)
        exact ⟨_, List.mem_append_left _ (List.mem_map_of_mem he), List.cons_prefix_cons.2 ⟨rfl, hpre⟩⟩
      | true =>
        obtain ⟨e, he, hpre⟩ := ihr fun e he => Nat.le_of_succ_le_succ (hr e he)
        exact ⟨_, List.mem_append_right _ (List.mem_map_of_mem he), List.cons_prefix_cons.2 ⟨rfl, hpre⟩⟩

/-- A map of two symbols or more has an internal node for its root. -/
theorem exists_buildTree_eq_node {fm : FreqMap} (hlen : 2 ≤ fm.length) :
    ∃ f l r, codeTableOf fm = codesOf (.node f l r) ∧ (leafSymbols (.node f l r)).Perm (fm.map (·.1)) := by
  obtain ⟨root, hroot, hperm⟩ := exists_buildTree_eq_some (List.length_pos_iff.1 (by omega : 0 < fm.length))
  cases root with
  | leaf x f =>
    have hone := hperm.length_eq
    simp only [leafSymbols_leaf, List.length_singleton, List.length_map] at hone
    omega
  | node f l r => exact ⟨f, l, r, codeTableOf_eq hroot, hperm⟩

/-- Two codes that begin the same bitstring are one symbol's. -/
theorem prefixFree.eq_of_isPrefix {t : CodeTable} (h : prefixFree t) {x y : Byte} {bits : Bitstring}
    (hx : codeOf t x ≠ []) (hy : codeOf t y ≠ []) (hxb : codeOf t x <+: bits) (hyb : codeOf t y <+: bits) : x = y := by
  by_contra hxy
  rcases List.prefix_or_prefix_of_prefix hxb hyb with hpre | hpre
  · exact h x y hxy hx hy hpre
  · exact h y x (Ne.symm hxy) hy hx hpre

/-- Settles O36: both halves are those of the tree's paths, which are the codes. -/
theorem builtCodeIsComplete : Obligations.BuiltCodeIsComplete := by
  intro fm hlen hnodup
  have hne : fm ≠ [] := List.length_pos_iff.1 (by omega)
  obtain ⟨f, l, r, htable, hperm⟩ := exists_buildTree_eq_node hlen
  have hcode : ∀ e ∈ walk (.node f l r) [], codeOf (codeTableOf fm) e.1 = e.2 := fun e he =>
    htable ▸ codeOf_codesOf_of_mem_walk (hperm.nodup_iff.2 hnodup) he
  have hkey : ∀ e ∈ walk (.node f l r) [], e.1 ∈ fm.map (·.1) := fun e he =>
    hperm.mem_iff.1 (List.mem_map_of_mem he)
  refine ⟨?_, fun bits hbits => ?_⟩
  · have h256 : fm.length ≤ 256 := by simpa using nodup_bytes_length hnodup
    have hdepth : ∀ e ∈ walk (.node f l r) [], e.2.length ≤ 255 := fun e he =>
      (hcode e he ▸ codeOf_codeTableOf_length_le hne e.1).trans (by omega)
    rw [← walk_kraft_sum _ hdepth, ← (hperm.map _).sum_eq, leafSymbols, List.map_map]
    exact congrArg List.sum (List.map_congr_left fun e he => by rw [Function.comp_apply, hcode e he])
  · obtain ⟨e, he, hpre⟩ := exists_walk_isPrefix (.node f l r) (bits := bits) fun e he =>
      (hcode e he ▸ codeOf_codeTableOf_length_le_maxLen hne e.1).trans hbits
    refine ⟨e.1, hkey e he, (hcode e he).symm ▸ hpre, fun y hy hyb => ?_⟩
    exact (codeTableOf_prefixFree hne).eq_of_isPrefix hy ((codeOf_codeTableOf_ne_nil_iff hne).2 (hkey e he)) hyb
      ((hcode e he).symm ▸ hpre)

end Sys2Proof.Machine
end

section
/-! Decode (41_huffman.md R77) on the codes of a text, code by code. -/
namespace Sys2Proof.Machine

theorem decodeFrom_nil (t : CodeTable) (outMax : Nat) (acc : Bitstring) (out : List Byte) (i : Nat) :
    decodeFrom t outMax [] acc out i = .text out i false := by rw [decodeFrom]

theorem decodeFrom_none (t : CodeTable) (outMax : Nat) (rest : List (Option Bool)) (acc : Bitstring) (out : List Byte)
    (i : Nat) : decodeFrom t outMax (none :: rest) acc out i = .unwritten := by rw [decodeFrom]

@[simp] theorem encodeMessage_nil (t : CodeTable) : encodeMessage t [] = [] := rfl

@[simp] theorem encodeMessage_cons (t : CodeTable) (x : Byte) (msg : List Byte) :
    encodeMessage t (x :: msg) = codeOf t x ++ encodeMessage t msg := List.flatMap_cons

@[simp] theorem encodeMessage_append (t : CodeTable) (msg msg' : List Byte) :
    encodeMessage t (msg ++ msg') = encodeMessage t msg ++ encodeMessage t msg' := List.flatMap_append

section
variable {t : CodeTable} (hl : t.length = 256) (outMax : Nat) (rest : List (Option Bool)) (out : List Byte) (i : Nat)
include hl

/-- Bits that no code begins are all consumed, and no symbol comes of them. -/
theorem decodeFrom_no_code {bits : Bitstring} (h : ∀ y : Byte, codeOf t y ≠ [] → ¬ codeOf t y <+: bits) :
    decodeFrom t outMax (bits.map some ++ rest) [] out i = decodeFrom t outMax rest bits out (i + bits.length) :=
  decodeFrom_accumulates hl outMax (fun p hp hpre y hy => h y (by rw [hy]; exact hp) (by rw [hy]; exact hpre)) rest
    out i

variable (hpf : prefixFree t)
include hpf

/-- So are the bits of a proper part of a code. -/
theorem decodeFrom_part {x : Byte} {part left : Bitstring} (hx : codeOf t x = part ++ left) (hleft : left ≠ []) :
    decodeFrom t outMax (part.map some ++ rest) [] out i = decodeFrom t outMax rest part out (i + part.length) := by
  have hne : codeOf t x ≠ [] := by rw [hx]; exact List.append_ne_nil_of_right_ne_nil _ hleft
  refine decodeFrom_no_code hl outMax rest out i fun y hy hpre => ?_
  obtain rfl := hpf.eq_of_isPrefix hne hy (List.prefix_refl _) (hx ▸ hpre.trans (List.prefix_append _ _))
  have hshort := hpre.length_le
  have hpos := List.length_pos_iff.2 hleft
  rw [hx, List.length_append] at hshort
  omega

/-- The delimiter's code ends the decode. -/
theorem decodeFrom_delim (hd : codeOf t Config.delim ≠ []) :
    decodeFrom t outMax ((codeOf t Config.delim).map some ++ rest) [] out i =
      .text out (i + (codeOf t Config.delim).length) true := by
  obtain ⟨init, b, hcode⟩ := (codeOf t Config.delim).eq_nil_or_concat'.resolve_left hd
  rw [hcode, List.map_append, List.append_assoc,
    decodeFrom_part hl outMax _ out i hpf hcode (List.cons_ne_nil _ _), List.map_singleton, List.singleton_append,
    decodeFrom, if_pos hcode.symm, List.length_append, List.length_singleton, Nat.add_assoc]

/-- The code of another symbol gives the symbol, if there is room. -/
theorem decodeFrom_code {x : Byte} (hx : codeOf t x ≠ []) (hd : codeOf t Config.delim ≠ []) (hxd : x ≠ Config.delim) :
    decodeFrom t outMax ((codeOf t x).map some ++ rest) [] out i =
      if out.length = outMax then .overflow
      else decodeFrom t outMax rest [] (out ++ [x]) (i + (codeOf t x).length) := by
  obtain ⟨init, b, hcode⟩ := (codeOf t x).eq_nil_or_concat'.resolve_left hx
  have hnot : codeOf t x ≠ codeOf t Config.delim := fun heq => hpf x Config.delim hxd hx hd (heq ▸ List.prefix_refl _)
  have hsymbol := symbolOf_code hl hpf hx
  rw [hcode] at hnot hsymbol
  rw [hcode, List.map_append, List.append_assoc,
    decodeFrom_part hl outMax _ out i hpf hcode (List.cons_ne_nil _ _), List.map_singleton, List.singleton_append,
    decodeFrom, if_neg hnot, hsymbol, List.length_append, List.length_singleton, Nat.add_assoc]

variable (hd : codeOf t Config.delim ≠ []) {text : List Byte} (htext : ∀ x ∈ text, codeOf t x ≠ [] ∧ x ≠ Config.delim)
include hd htext

/-- The codes of a text that fits give the text. -/
theorem decodeFrom_text (hfit : out.length + text.length ≤ outMax) :
    decodeFrom t outMax ((encodeMessage t text).map some ++ rest) [] out i =
      decodeFrom t outMax rest [] (out ++ text) (i + (encodeMessage t text).length) := by
  induction text generalizing out i with
  | nil => simp
  | cons x text ih =>
    obtain ⟨hx, htext⟩ := List.forall_mem_cons.1 htext
    rw [List.length_cons] at hfit
    rw [encodeMessage_cons, List.map_append, List.append_assoc,
      decodeFrom_code hl outMax _ out i hpf hx.1 hd hx.2, if_neg (by omega),
      ih _ _ htext (by rw [List.length_append, List.length_singleton]; omega), List.append_assoc,
      List.singleton_append, List.length_append, Nat.add_assoc]

/-- The codes of a text that does not fit overflow. -/
theorem decodeFrom_text_overflow (hout : out.length ≤ outMax) (hlong : outMax < out.length + text.length) :
    decodeFrom t outMax ((encodeMessage t text).map some ++ rest) [] out i = .overflow := by
  induction text generalizing out i with
  | nil => exact absurd hlong (Nat.not_lt.2 hout)
  | cons x text ih =>
    obtain ⟨hx, htext⟩ := List.forall_mem_cons.1 htext
    rw [List.length_cons] at hlong
    rw [encodeMessage_cons, List.map_append, List.append_assoc, decodeFrom_code hl outMax _ out i hpf hx.1 hd hx.2]
    split
    next => rfl
    next hne =>
      exact ih _ _ htext (by rw [List.length_append, List.length_singleton]; omega)
        (by rw [List.length_append, List.length_singleton]; omega)

end

/-- Settles O37: the text is decoded code by code, and what follows it is the delimiter's code, a part of a code or bits
without one. -/
theorem decodeReadsCodesUntilDelimiter : Obligations.DecodeReadsCodesUntilDelimiter := by
  intro t outMax text rest hl hpf hd htext
  have hfits : ∀ (bits : Bitstring) (more : List (Option Bool)), text.length ≤ outMax →
      decodeBits t outMax ((encodeMessage t text ++ bits).map some ++ more) =
        decodeFrom t outMax (bits.map some ++ more) [] text (encodeMessage t text).length := by
    intro bits more hfit
    rw [decodeBits, List.map_append, List.append_assoc,
      decodeFrom_text hl outMax _ [] 0 hpf hd htext (by simpa using hfit), List.nil_append, Nat.zero_add]
  have hends : ∀ bits : Bitstring, text.length ≤ outMax →
      (∀ more i, decodeFrom t outMax (bits.map some ++ more) [] text i =
        decodeFrom t outMax more bits text (i + bits.length)) →
      decodeBits t outMax ((encodeMessage t text ++ bits).map some) =
          .text text ((encodeMessage t text).length + bits.length) false ∧
        decodeBits t outMax ((encodeMessage t text ++ bits).map some ++ none :: rest) = .unwritten := by
    intro bits hfit hbits
    refine ⟨?_, by rw [hfits bits _ hfit, hbits, decodeFrom_none]⟩
    have hend := hfits bits [] hfit
    rw [hbits, decodeFrom_nil, List.append_nil] at hend
    exact hend
  refine ⟨fun hfit => ?_, fun hlong => ?_, fun x part left hfit hx hleft => ?_, fun bits hfit hbits => ?_⟩
  · exact (hfits _ rest hfit).trans (decodeFrom_delim hl outMax rest text _ hpf hd)
  · rw [decodeBits, List.map_append, List.append_assoc]
    exact decodeFrom_text_overflow hl outMax _ [] 0 hpf hd htext (Nat.zero_le _) (by simpa using hlong)
  · exact hends part hfit fun more i => decodeFrom_part hl outMax more text i hpf hx hleft
  · exact hends bits hfit fun more i => decodeFrom_no_code hl outMax more text i hbits

end Sys2Proof.Machine
end

section
/-! `HUFF_BUILD` and `HUFF_ENCODE` (41_huffman.md R79, R80): their checks in order, and what they leave. -/
namespace Sys2Proof.Machine

/-! ### `HUFF_BUILD` -/

theorem exec_huffBuild_of_size {s : State} (h : s.nsym.toNat = 0 ∨ 256 < s.nsym.toNat) :
    exec .huffBuild s = .next (s.fail .fmap) := if_pos h

section
variable {s : State} (h0 : 1 ≤ s.nsym.toNat) (h256 : s.nsym.toNat ≤ 256)
include h0 h256

theorem exec_huffBuild_of_unwritten (hnone : s.fmapSyms s.nsym.toNat = none) :
    exec .huffBuild s = .fault .uninitRead := by
  have hsize : ¬ (s.nsym.toNat = 0 ∨ 256 < s.nsym.toNat) := by omega
  rw [exec, execHuffBuild, Config.nsymMax, if_neg hsize, hnone, withOperand_none]

/-- The checks behind the size check and the read of the symbols (R79). -/
theorem exec_huffBuild_of_syms {syms : List Byte} (hsyms : s.fmapSyms s.nsym.toNat = some syms) :
    exec .huffBuild s =
      if ¬ syms.Nodup then abort .fmap s
      else if Config.delim ∉ syms then abort .noDelim s
      else withOperand (s.fmapCnts s.nsym.toNat) fun cnts =>
        if 2 ^ 32 - 1 < cnts.sum then abort .freqOvf s
        else complete (s.loadTable (codeTableOf (syms.zip cnts))) := by
  have hsize : ¬ (s.nsym.toNat = 0 ∨ 256 < s.nsym.toNat) := by omega
  rw [exec, execHuffBuild, Config.nsymMax, if_neg hsize, hsyms, withOperand_some]

variable {syms : List Byte} (hsyms : s.fmapSyms s.nsym.toNat = some syms) (hnodup : syms.Nodup)
  (hdelim : Config.delim ∈ syms)
include hsyms hnodup hdelim

/-- The last checks, of a map of distinct symbols with the delimiter. -/
theorem exec_huffBuild_of_map :
    exec .huffBuild s = withOperand (s.fmapCnts s.nsym.toNat) fun cnts =>
      if 2 ^ 32 - 1 < cnts.sum then abort .freqOvf s
      else complete (s.loadTable (codeTableOf (syms.zip cnts))) := by
  rw [exec_huffBuild_of_syms h0 h256 hsyms, if_neg (not_not.2 hnodup), if_neg (not_not.2 hdelim)]

end

/-- Settles O40: the first check that applies, and the operand that is read behind it. -/
theorem huffBuildFirstFailingCheck : Obligations.HuffBuildFirstFailingCheck := by
  refine fun s => ⟨exec_huffBuild_of_size, exec_huffBuild_of_unwritten, fun syms h0 h256 hsyms =>
    ⟨fun hdup => ?_, fun hnodup hdelim => ?_, fun hnodup hdelim hnone => ?_,
      fun cnts hnodup hdelim hcnts hsum => ?_⟩⟩
  · rw [exec_huffBuild_of_syms h0 h256 hsyms, if_pos hdup]
    rfl
  · rw [exec_huffBuild_of_syms h0 h256 hsyms, if_neg (not_not.2 hnodup),
      if_pos (show Config.delim ∉ syms from hdelim)]
    rfl
  · rw [exec_huffBuild_of_map h0 h256 hsyms hnodup hdelim, hnone, withOperand_none]
  · rw [exec_huffBuild_of_map h0 h256 hsyms hnodup hdelim, hcnts, withOperand_some, if_pos hsum]
    rfl

/-- Settles O39: the checks pass, and the table is that of the map in memory. -/
theorem huffBuildResult : Obligations.HuffBuildResult := by
  intro s syms cnts h0 h256 hsyms hnodup hdelim hcnts hsum
  have hexec : exec .huffBuild s = .next (s.loadTable (codeTableOf (syms.zip cnts))).finish := by
    rw [exec_huffBuild_of_map h0 h256 hsyms hnodup hdelim, hcnts, withOperand_some, if_neg (Nat.not_lt.2 hsum),
      complete]
  have hbuilt := builtFrom_huffBuild (Nat.one_le_iff_ne_zero.1 h0) h256 hsyms hcnts
  obtain ⟨root, hroot, -⟩ := exists_buildTree_eq_some hbuilt.nonempty
  refine ⟨_, hexec, rfl, ⟨root, hroot, codeTableOf_eq hroot⟩, hbuilt.maxCodeLen_toNat, fun x => ?_,
    fun a hlen hcode => byteAt_congr_off_code rfl hlen hcode rfl⟩
  rw [codeOf_codeTableOf_ne_nil_iff hbuilt.nonempty, (zip_length_and_symbols hsyms hcnts).2]

/-! ### `HUFF_ENCODE` -/

theorem exec_huffEncode_of_too_long {s : State} (h : s.params.msgMax < s.msgLen.toNat) :
    exec .huffEncode s = .next (s.fail .msgLen) := if_pos h

section
variable {s : State} (hfit : s.msgLen.toNat ≤ s.params.msgMax)
include hfit

theorem exec_huffEncode_of_unwritten (hnone : s.message = none) : exec .huffEncode s = .fault .uninitRead := by
  rw [exec, execHuffEncode, if_neg (Nat.not_lt.2 hfit), hnone, withOperand_none]

variable {msg : List Byte} (hmsg : s.message = some msg)
include hmsg

/-- The checks behind the length check and the read of the message (R80). -/
theorem exec_huffEncode_of_message :
    exec .huffEncode s =
      if countSymbols msg = [] then abort .fmap s
      else if Config.delim ∉ (countSymbols msg).map (·.1) then abort .noDelim s
      else if s.params.bitbufBits < (encodeMessage (codeTableOf (countSymbols msg)) msg).length then abort .bitLen s
      else .next (afterEncode s msg) := by
  rw [exec, execHuffEncode, if_neg (Nat.not_lt.2 hfit), hmsg, withOperand_some]
  rfl

/-- The last check, of a message with the delimiter. -/
theorem exec_huffEncode_of_delim (hdelim : Config.delim ∈ msg) :
    exec .huffEncode s =
      if s.params.bitbufBits < (encodeMessage (codeTableOf (countSymbols msg)) msg).length then abort .bitLen s
      else .next (afterEncode s msg) := by
  have hne : countSymbols msg ≠ [] := mt countSymbols_eq_nil_iff.1 (List.ne_nil_of_mem hdelim)
  rw [exec_huffEncode_of_message hfit hmsg, if_neg hne, if_neg (not_not.2 (mem_keys_countSymbols.2 hdelim))]

end

/-- Settles O42: the first check that applies, and the message that is read behind the first. -/
theorem huffEncodeFirstFailingCheck : Obligations.HuffEncodeFirstFailingCheck := by
  refine fun s => ⟨exec_huffEncode_of_too_long, exec_huffEncode_of_unwritten, fun msg hfit hmsg =>
    ⟨fun hnil => ?_, fun hne hdelim => ?_, fun hdelim hlong => ?_⟩⟩
  · rw [exec_huffEncode_of_message hfit hmsg, if_pos (countSymbols_eq_nil_iff.2 hnil)]
    rfl
  · rw [exec_huffEncode_of_message hfit hmsg, if_neg (mt countSymbols_eq_nil_iff.1 hne),
      if_pos (show Config.delim ∉ _ from mt mem_keys_countSymbols.1 hdelim)]
    rfl
  · rw [exec_huffEncode_of_delim hfit hmsg hdelim, if_pos hlong]
    rfl

section
variable (s : State) (bs : Bitstring)

/-- The bits of the last byte after the stored ones are 0. -/
theorem bit_storeBits_padding {i : Nat} (hle : bs.length ≤ i) (hlt : i < 8 * ((bs.length + 7) / 8)) :
    (s.storeBits bs).bit i = some false := by
  rw [bit_storeBits s bs hlt, List.getD_eq_default _ _ hle]

theorem storeBits_read_outside {a : Nat} (ha : ¬ (0x100000 ≤ a ∧ a < 0x100000 + (bs.length + 7) / 8)) :
    (s.storeBits bs).mem.read a = s.mem.read a := by
  rw [State.storeBits_mem]
  refine Memory.read_writeBlock_outside _ _ _ ?_
  rw [packBits_length, Window.base]
  omega

end

section
variable (s : State) (msg : List Byte)

/-- The registers, flags and arrays that the command writes (30_encoding.md R60). -/
theorem afterEncode_eq : afterEncode s msg = { s with
    engine := .idle, done := true, treeValid := true, codeTable := some (codeTableOf (countSymbols msg)),
    maxCodeLen := (afterEncode s msg).maxCodeLen, nsym := (afterEncode s msg).nsym,
    bitLen := (afterEncode s msg).bitLen, mem := (afterEncode s msg).mem } := by
  obtain ⟨t, ht⟩ : ∃ t, t = afterEncode s msg := ⟨_, rfl⟩
  rw [← ht]
  apply State.ext_fields
  case maxCodeLen | nsym | bitLen | mem => rfl
  all_goals simp [ht, afterEncode]

theorem bits_afterEncode : (afterEncode s msg).bits (encodeMessage (codeTableOf (countSymbols msg)) msg).length =
    some (encodeMessage (codeTableOf (countSymbols msg)) msg) :=
  bits_storeBits ((s.storeFreqMap (countSymbols msg)).loadTable (codeTableOf (countSymbols msg))) _

theorem bit_afterEncode_padding {i : Nat} (hle : (encodeMessage (codeTableOf (countSymbols msg)) msg).length ≤ i)
    (hlt : i < 8 * (((encodeMessage (codeTableOf (countSymbols msg)) msg).length + 7) / 8)) :
    (afterEncode s msg).bit i = some false :=
  bit_storeBits_padding ((s.storeFreqMap (countSymbols msg)).loadTable (codeTableOf (countSymbols msg))) _ hle hlt

/-- The command stores only the entries of the map and the bits. -/
theorem afterEncode_read_outside {a : Nat} (hsym : ¬ (0x020000 ≤ a ∧ a < 0x020000 + (countSymbols msg).length))
    (hcnt : ¬ (0x020400 ≤ a ∧ a < 0x020400 + 4 * (countSymbols msg).length))
    (hbuf : ¬ (0x100000 ≤ a ∧
      a < 0x100000 + ((encodeMessage (codeTableOf (countSymbols msg)) msg).length + 7) / 8)) :
    (afterEncode s msg).mem.read a = s.mem.read a := by
  rw [afterEncode, State.finish_mem, storeBits_read_outside _ _ hbuf, State.loadTable_mem,
    storeFreqMap_read_outside s _ hsym hcnt]

end

/-- Settles O41: the command leaves `afterEncode`, which stores the map, the table and the bits, each in its own
place. -/
theorem huffEncodeResult : Obligations.HuffEncodeResult := by
  rintro s msg table hp hfit hmsg hdelim rfl hbits
  have hexec : exec .huffEncode s = .next (afterEncode s msg) := by
    rw [exec_huffEncode_of_delim hfit hmsg hdelim, if_neg (Nat.not_lt.2 hbits)]
  have hbuilt := builtFrom_afterEncode s (mt countSymbols_eq_nil_iff.1 (List.ne_nil_of_mem hdelim))
  have hlen := bitLen_afterEncode_toNat hp hbits
  refine ⟨List.flatMap_def, afterEncode s msg, hexec, afterEncode_eq s msg, hbuilt.nsym, ?_⟩
  rw [hbuilt.nsym, hlen]
  exact ⟨hbuilt.syms, fmapCnts_afterEncode hmsg, hbuilt.maxCodeLen_toNat, rfl, bits_afterEncode s msg,
    fun i hle hlt => bit_afterEncode_padding s msg hle hlt,
    fun a hsym hcnt hcodeLen hcode hbuf =>
      byteAt_congr_off_code (s := s) rfl hcodeLen hcode (afterEncode_read_outside s msg hsym hcnt hbuf)⟩

end Sys2Proof.Machine
end

section
/-! `HUFF_DECODE` (41_huffman.md R81): its checks and ends, what it depends on (R87), and that it undoes `HUFF_ENCODE`
(R86). -/
namespace Sys2Proof.Machine

section
variable {s : State} (htree : s.treeValid = true)
include htree

theorem exec_huffDecode_of_too_long (h : s.params.bitbufBits < s.bitLen.toNat) :
    exec .huffDecode s = .next (s.fail .bitLen) := by
  rw [exec, execHuffDecode, if_neg (by simp [htree]), if_pos h, abort]

variable (hfit : s.bitLen.toNat ≤ s.params.bitbufBits) {table : CodeTable} (htable : s.codeTable = some table)
include hfit htable

theorem exec_huffDecode_of_text {out : List Byte} {used : Nat} {found : Bool}
    (hdecode : decodeBits table s.params.outMax (s.bitStream s.bitLen.toNat) = .text out used found) :
    exec .huffDecode s = .next (s.storeDecoded out used found).finish := by
  simp only [exec, execHuffDecode, htree, Bool.true_eq_false, if_false, Nat.not_lt.2 hfit, htable, withOperand_some,
    hdecode, complete]

theorem exec_huffDecode_of_overflow
    (hdecode : decodeBits table s.params.outMax (s.bitStream s.bitLen.toNat) = .overflow) :
    exec .huffDecode s = .next (s.spoilOutbuf.fail .outOvf) := by
  simp only [exec, execHuffDecode, htree, Bool.true_eq_false, if_false, Nat.not_lt.2 hfit, htable, withOperand_some,
    hdecode, abort]

theorem exec_huffDecode_of_unwritten
    (hdecode : decodeBits table s.params.outMax (s.bitStream s.bitLen.toNat) = .unwritten) :
    exec .huffDecode s = .fault .uninitRead := by
  simp only [exec, execHuffDecode, htree, Bool.true_eq_false, if_false, Nat.not_lt.2 hfit, htable, withOperand_some,
    hdecode, uninit]

end

/-- A number of symbols or bits that is at most `BIT_LEN` fits a register. -/
theorem toNat_ofNat_of_le_bitLen {s : State} {n : Nat} (h : n ≤ s.bitLen.toNat) : (BitVec.ofNat 32 n).toNat = n :=
  (BitVec.toNat_ofNat _ _).trans (Nat.mod_eq_of_lt (h.trans_lt s.bitLen.isLt))

/-- Settles O44: the command stores the text that Decode gives, which is no longer than the bits it has read. -/
theorem huffDecodeResult : Obligations.HuffDecodeResult := by
  intro s table out used found htree htable hfit hdecode
  obtain ⟨hout, houtUsed, hused⟩ := decodeBits_bounds hdecode
  rw [bitStream_length] at hused
  have houtLen : (s.storeDecoded out used found).finish.outLen.toNat = out.length :=
    toNat_ofNat_of_le_bitLen (houtUsed.trans hused)
  have htext := outbuf_storeDecoded s out used found
  refine ⟨_, exec_huffDecode_of_text htree hfit htable hdecode, rfl, houtLen, toNat_ofNat_of_le_bitLen hused, ?_,
    fun hp k hk => ?_, hout, houtUsed, hused, fun a ha => ?_⟩
  · rw [houtLen]
    exact htext
  · exact ((readBlock_window_eq_some_iff (s := (s.storeDecoded out used found).finish) (w := .OUTBUF) hp (by decide)
      (by decide) hout).1 htext).2 k hk
  · rw [houtLen] at ha
    refine byteAt_congr rfl rfl (Memory.read_writeBlock_outside _ _ _ ?_)
    rw [Window.base]
    omega

/-- After `E_OUTOVF` each byte of `OUTBUF` is the next free one. -/
theorem byteAt_spoilOutbuf {s : State} (hp : s.params.ok = true) {k : Nat} (hk : k < s.params.outMax) :
    s.spoilOutbuf.byteAt (0x030000 + k) = some (Config.freeByte (s.draws + k)) := by
  have hwindow : windowAt s.spoilOutbuf.params (0x030000 + k) = some .OUTBUF := windowAt_base_add hp .OUTBUF hk
  have hlen : k < (s.freeBytes s.params.outMax).length := (freeBytes_length s _).symm ▸ hk
  rw [byteAt_of_memory hwindow (by decide) (by decide)]
  exact (Memory.read_writeBlock_inside _ _ _ hlen).trans (by simp [State.freeBytes])

/-- Settles O45: the two checks, and the two ends of Decode without a text. -/
theorem huffDecodeFirstFailingCheck : Obligations.HuffDecodeFirstFailingCheck := fun s hp =>
  ⟨exec_huffDecode_of_no_tree, exec_huffDecode_of_too_long, fun _ htree hfit htable =>
    ⟨exec_huffDecode_of_unwritten htree hfit htable, fun hdecode =>
      ⟨_, exec_huffDecode_of_overflow htree hfit htable hdecode, rfl, fun _ hk => byteAt_spoilOutbuf hp hk,
        fun _ ha => byteAt_spoilOutbuf_outside s ha⟩⟩⟩

/-- Settles O46: the ends of the command are told apart by the table and the stream of bits alone. -/
theorem decodeDependsOnTableAndBitsOnly : Obligations.DecodeDependsOnTableAndBitsOnly := by
  intro s s' t hparams htree htable hbitLen hbits hs hs' hexec
  have hstream : s'.bitStream s'.bitLen.toNat = s.bitStream s.bitLen.toNat := by
    rw [hbitLen, bitStream_congr hbits]
  have hdecodes : ∀ table, decodeBits table s'.params.outMax (s'.bitStream s'.bitLen.toNat) =
      decodeBits table s.params.outMax (s.bitStream s.bitLen.toNat) := fun table => by rw [hparams, hstream]
  rcases huffDecode_next hexec with
    ⟨hno, rfl⟩ | ⟨hvalid, hlong, rfl⟩ | ⟨hvalid, hfit, table, hsome, ⟨hdecode, rfl⟩ | ⟨out, used, found, hdecode, rfl⟩⟩
  · exact ⟨_, exec_huffDecode_of_no_tree (htree.trans hno), rfl, nofun⟩
  · exact ⟨_, exec_huffDecode_of_too_long (htree.trans hvalid) (by rwa [hparams, hbitLen]), rfl, nofun⟩
  · exact ⟨_, exec_huffDecode_of_overflow (htree.trans hvalid) (by rwa [hparams, hbitLen]) (htable.trans hsome)
      ((hdecodes table).trans hdecode), rfl, nofun⟩
  · refine ⟨_, exec_huffDecode_of_text (htree.trans hvalid) (by rwa [hparams, hbitLen]) (htable.trans hsome)
      ((hdecodes table).trans hdecode), hs'.trans hs.symm, fun _ => ⟨rfl, rfl, rfl, ?_⟩⟩
    obtain ⟨-, houtUsed, hused⟩ := decodeBits_bounds hdecode
    rw [bitStream_length] at hused
    have houtLen : (s.storeDecoded out used found).finish.outLen.toNat = out.length :=
      toNat_ofNat_of_le_bitLen (houtUsed.trans hused)
    rw [houtLen]
    exact (outbuf_storeDecoded s' out used found).trans (outbuf_storeDecoded s out used found).symm

/-! ### The round trip -/

/-- A stream of bits is its front and what follows. -/
theorem exists_bitStream_eq_append (s : State) {m n : Nat} (h : m ≤ n) :
    ∃ rest, s.bitStream n = s.bitStream m ++ rest := by
  obtain ⟨k, rfl⟩ := Nat.exists_eq_add_of_le h
  exact ⟨_, by rw [State.bitStream, List.range_add, List.map_append]; rfl⟩

/-- A stream that begins with the code of a message decodes to the message up to its first delimiter. -/
theorem decodeBits_encodeMessage {text post : List Byte} (hnot : 0x23 ∉ text) {outMax : Nat}
    (hfit : text.length ≤ outMax) {table : CodeTable}
    (htable : table = codeTableOf (countSymbols (text ++ 0x23 :: post)))
    (rest : List (Option Bool)) :
    decodeBits table outMax ((encodeMessage table (text ++ 0x23 :: post)).map some ++ rest) =
      .text text ((encodeMessage table text).length + (codeOf table 0x23).length) true := by
  have hdelim : (0x23 : Byte) ∈ text ++ 0x23 :: post := by simp
  have hne : countSymbols (text ++ 0x23 :: post) ≠ [] := mt countSymbols_eq_nil_iff.1 (List.ne_nil_of_mem hdelim)
  have hcode : ∀ x ∈ text ++ 0x23 :: post, codeOf table x ≠ [] := fun x hx =>
    htable ▸ (codeOf_codeTableOf_ne_nil_iff hne).2 (mem_keys_countSymbols.2 hx)
  obtain ⟨hdecode, -⟩ := decodeReadsCodesUntilDelimiter table outMax text
    ((encodeMessage table post).map some ++ rest) (htable ▸ codeTableOf_length hne)
    (htable ▸ codeTableOf_prefixFree hne) (hcode _ hdelim) fun x hx =>
      ⟨hcode x (List.mem_append_left _ hx), fun heq => hnot (heq ▸ hx)⟩
  rw [← hdecode hfit]
  simp only [encodeMessage_append, encodeMessage_cons, List.map_append, List.append_assoc]

/-- Settles O47: the bits at the front are the code of the message, and Decode stops at its first delimiter. -/
theorem huffmanRoundTrip : Obligations.HuffmanRoundTrip := by
  intro s t u text post hp _ hmsg hnot hfit hexec hok hparams htree htable hle hbuf hbits
  obtain ⟨msg, hmsg', hne, hfits, rfl⟩ := huffEncode_success hexec hok
  obtain rfl := Option.some.inj (hmsg.symm.trans hmsg')
  have hlen := bitLen_afterEncode_toNat hp hfits
  have hfront : u.bitStream (afterEncode s (text ++ 0x23 :: post)).bitLen.toNat =
      (encodeMessage (codeTableOf (countSymbols (text ++ 0x23 :: post))) (text ++ 0x23 :: post)).map some := by
    rw [bitStream_congr hbits, hlen]
    exact bitStream_of_bits (bits_afterEncode s _)
  obtain ⟨rest, hstream⟩ := exists_bitStream_eq_append u hle
  have hout : text.length ≤ u.params.outMax := hparams ▸ hfit
  have hdecode := decodeBits_encodeMessage (post := post) hnot hout rfl rest
  rw [← hfront, ← hstream] at hdecode
  obtain ⟨v, hv, hframe, houtLen, hdecBits, houtbuf, -⟩ :=
    huffDecodeResult u _ text _ true (htree.trans rfl) (htable.trans rfl) hbuf hdecode
  refine ⟨v, _, hv, rfl, by rw [hframe], by rw [hframe], houtLen, houtLen ▸ houtbuf,
    hdecBits.trans ?_⟩
  rw [encodeMessage_length, List.map_append, List.sum_append, List.map_singleton, List.sum_singleton]

end Sys2Proof.Machine
end

section
/-! `EMBED` and `EXTRACT` (42_lsb.md R92, R93): their checks in order, their results, the raster order (20_memory.md
R48), and the whole pipeline from message to message (41_huffman.md R86, 42_lsb.md R96). -/
namespace Sys2Proof.Machine

/-! ### The checks -/

theorem exec_embed_of_checks {s : State} (hdims : s.capacity ≤ s.params.pixMax)
    (hbuf : s.bitLen.toNat ≤ s.params.bitbufBits) (hcap : s.bitLen.toNat ≤ s.capacity) :
    exec .embed s = withOperand (s.bits s.bitLen.toNat) fun bits =>
      withOperand (s.pixels s.bitLen.toNat) fun pix => .next (afterEmbed s bits pix) := by
  rw [exec, execEmbed, withCapacity_pass _ hdims hbuf hcap]
  rfl

/-- Settles O51: the capacity check in its order, then the operands. -/
theorem embedExtractFirstFailingCheck : Obligations.EmbedExtractFirstFailingCheck := by
  intro s cap hcap
  obtain rfl : cap = s.capacity := hcap
  refine ⟨fun hdims => ⟨?_, if_pos hdims⟩, fun hdims hbuf => ?_, fun hdims hbuf hcap => ?_,
    fun hdims hbuf hcap hnone => ?_, fun hdims hnone => ?_⟩
  · rw [exec, execEmbed, withCapacity_dims _ hdims]
    rfl
  · rw [exec, execEmbed, withCapacity_bitLen _ hdims hbuf]
    rfl
  · rw [exec, execEmbed, withCapacity_capacity _ hdims hbuf hcap]
    rfl
  · rw [exec_embed_of_checks hdims hbuf hcap]
    cases hbits : s.bits s.bitLen.toNat with
    | none => rfl
    | some bits => rw [withOperand_some, hnone.resolve_left (by simp [hbits]), withOperand_none]
  · have hread : s.setCapAvail.pixels s.setCapAvail.capacity = none := hnone
    rw [exec, execExtract, withDims_pass _ hdims, hread, withOperand_none]

/-! ### The results -/

theorem capAvail_setCapAvail_toNat {s : State} (hp : s.params.ok = true) (hdims : s.capacity ≤ s.params.pixMax) :
    s.setCapAvail.capAvail.toNat = s.capacity :=
  (BitVec.toNat_ofNat _ _).trans (Nat.mod_eq_of_lt (capacity_lt hp hdims))

/-- Settles O50: the command leaves `afterEmbed`, which stores the samples under the bits. -/
theorem embedResult : Obligations.EmbedResult := by
  intro s bits pix hp hdims hbuf hcap hbits hpix
  have he : Embeds s bits pix := ⟨hdims, hbuf, hcap, hbits, hpix⟩
  refine ⟨fun n px hn => readBlock_window_eq_some_iff (w := .PIX) hp (by decide) (by decide) hn,
    afterEmbed s bits pix, he.exec_eq, rfl, capAvail_setCapAvail_toNat hp hdims, he.pixels_afterEmbed, fun a ha =>
    he.byteAt_outside (by omega)⟩

/-- Settles O53: the command leaves `afterExtract`, which stores the parities and their padding. -/
theorem extractResult : Obligations.ExtractResult := by
  intro s pix hp hdims hpix
  have hlen : (extractBits pix).length = s.capacity := (List.length_map _).trans (Memory.readBlock_length hpix)
  refine ⟨afterExtract s pix, exec_extract_of_fits hdims hpix, rfl, capAvail_setCapAvail_toNat hp hdims,
    bitLen_afterExtract hdims hpix hp, ?_⟩
  rw [bitLen_afterExtract hdims hpix hp, ← hlen]
  exact ⟨bits_storeBits s.setCapAvail (extractBits pix), fun i hle hlt => bit_storeBits_padding s.setCapAvail _ hle hlt,
    fun a ha => byteAt_congr rfl rfl (storeBits_read_outside s.setCapAvail _ ha)⟩

/-! ### Raster order -/

/-- The samples of a grid come before its capacity. -/
theorem pixIndex_lt {height width y x c : Nat} (hy : y < height) (hx : x < width) (hc : c < 3) :
    pixIndex width y x c < height * width * 3 := by
  have hrow : (y + 1) * width ≤ height * width := Nat.mul_le_mul_right _ hy
  rw [Nat.succ_mul] at hrow
  rw [pixIndex]
  omega

/-- No two samples of a grid have the same index. -/
theorem pixIndex_injective {width y x c y' x' c' : Nat} (hx : x < width) (hc : c < 3) (hx' : x' < width) (hc' : c' < 3)
    (h : pixIndex width y' x' c' = pixIndex width y x c) : y' = y ∧ x' = x ∧ c' = c := by
  simp only [pixIndex] at h
  have hpix : x' + width * y' = x + width * y := by rw [Nat.mul_comm width, Nat.mul_comm width]; omega
  have hpos : 0 < width := Nat.zero_lt_of_lt hx
  have hrow := congrArg (· / width) hpix
  simp only [Nat.add_mul_div_left _ _ hpos, Nat.div_eq_of_lt hx, Nat.div_eq_of_lt hx', Nat.zero_add] at hrow
  subst hrow
  exact ⟨rfl, by omega, by omega⟩

/-- A sample below `BIT_LEN` is stored with its bit. -/
theorem Embeds.read_afterEmbed {s : State} {bits : Bitstring} {pix : List Byte} (he : Embeds s bits pix) {k : Nat}
    (hk : k < s.bitLen.toNat) :
    ∃ v b, (afterEmbed s bits pix).mem.read (0x400000 + k) = some v ∧ s.bit k = some b ∧ extractSample v = b := by
  have hkb : k < bits.length := he.bits_length.symm ▸ hk
  have hkp : k < pix.length := he.pix_length.symm ▸ hk
  refine ⟨embedSample pix[k] bits[k], bits[k], ?_, (bits_eq_some_iff.1 he.bits).2 k hkb, extractSample_embedSample _ _⟩
  rw [afterEmbed_mem, Memory.read_writeBlock_inside _ _ _ (he.embedBits_length.symm ▸ hk)]
  simp [embedBits]

/-- Settles O54: the index is below the capacity and tells the sample; the bit of that index is embedded there. -/
theorem embedFollowsRasterOrder : Obligations.EmbedFollowsRasterOrder := by
  intro s t y x c _ h herr hy hx hc
  obtain ⟨bits, pix, he, rfl⟩ := embed_success h herr
  exact ⟨rfl, pixIndex_lt hy hx hc, fun y' x' c' hx' hc' heq => pixIndex_injective hx hc hx' hc' heq,
    fun hlt => he.read_afterEmbed hlt⟩

/-! ### The pipeline -/

/-- `HUFF_ENCODE` leaves the samples alone: `PIX` stands above the bit buffer (20_memory.md R43). -/
theorem pixels_afterEncode {s : State} (hp : s.params.ok = true) {msg : List Byte}
    (hbits : (encodeMessage (codeTableOf (countSymbols msg)) msg).length ≤ s.params.bitbufBits) (n : Nat) :
    (afterEncode s msg).pixels n = s.pixels n := by
  have hmax := params_bounds hp
  have hlen := countSymbols_length_le msg
  refine Memory.readBlock_congr fun k _ => ?_
  simp only [Window.base]
  exact afterEncode_read_outside s msg (by omega) (by omega) (by omega)

/-- The front of a written grid is written. -/
theorem exists_pixels_of_le {s : State} {m n : Nat} (hle : m ≤ n) (h : s.pixels n ≠ none) :
    ∃ pix, s.pixels m = some pix := by
  obtain ⟨grid, hgrid⟩ := Option.ne_none_iff_exists'.1 h
  obtain ⟨hlen, hread⟩ := Memory.readBlock_eq_some_iff.1 hgrid
  refine ⟨grid.take m, Memory.readBlock_eq_some_iff.2 ⟨by simp; omega, fun k hk => ?_⟩⟩
  rw [List.getElem_take]
  exact hread k (by simp at hk; omega)

/-- A written grid stays written under `EMBED`. -/
theorem Embeds.pixels_ne_none {s : State} {bits : Bitstring} {pix : List Byte} (he : Embeds s bits pix) {n : Nat}
    (h : s.pixels n ≠ none) : (afterEmbed s bits pix).pixels n ≠ none := by
  obtain ⟨grid, hgrid⟩ := Option.ne_none_iff_exists'.1 h
  obtain ⟨hlen, hread⟩ := Memory.readBlock_eq_some_iff.1 hgrid
  intro hnone
  obtain ⟨k, hk, hbyte⟩ : ∃ k < n, (afterEmbed s bits pix).mem.read (0x400000 + k) = none := by
    simpa [State.pixels, Memory.readBlock, collect_eq_none_iff, Window.base] using hnone
  by_cases hlt : k < s.bitLen.toNat
  · obtain ⟨v, b, hv, -⟩ := he.read_afterEmbed hlt
    exact absurd (hbyte.symm.trans hv) nofun
  · rw [afterEmbed_mem, Memory.read_writeBlock_outside _ _ _ (by rw [he.embedBits_length]; omega)] at hbyte
    exact absurd (hbyte.symm.trans (hread k (hlen ▸ hk))) nofun

/-- `EMBED` and `EXTRACT` carry written bits through a written grid, and leave the code table alone. -/
theorem exists_embed_extract {s : State} {bits : Bitstring} (hp : s.params.ok = true) (herr : s.err = .none)
    (hdims : s.capacity ≤ s.params.pixMax) (hcap : s.bitLen.toNat ≤ s.capacity)
    (hbits : s.bits s.bitLen.toNat = some bits) (hgrid : s.pixels s.capacity ≠ none) :
    ∃ t u, exec .embed s = .next t ∧ exec .extract t = .next u ∧ u.err = .none ∧ u.params = s.params ∧
      u.treeValid = s.treeValid ∧ u.codeTable = s.codeTable ∧ u.bitLen.toNat = s.capacity ∧
      ∀ i < s.bitLen.toNat, u.bit i = s.bit i := by
  have hmax := params_bounds hp
  obtain ⟨pix, hpix⟩ := exists_pixels_of_le hcap hgrid
  have he : Embeds s bits pix := ⟨hdims, by omega, hcap, hbits, hpix⟩
  obtain ⟨t, ht⟩ : ∃ t, t = afterEmbed s bits pix := ⟨_, rfl⟩
  have hembed : exec .embed s = .next t := ht ▸ he.exec_eq
  have hterr : t.err = .none := ht ▸ herr
  have htgrid : t.pixels s.capacity ≠ none := ht ▸ he.pixels_ne_none hgrid
  obtain ⟨-, -, -, htparams, -⟩ := exec_next hembed
  obtain ⟨-, htoperands, -, -, -, -, httree, httable⟩ := exec_registers hembed
  obtain ⟨-, htH, htW, -⟩ := htoperands nofun
  obtain ⟨u, hextract, huerr, hulen, -, hubits, -⟩ := embedThenExtract s t t bits hp herr hembed hterr hbits htparams
    htH htW (fun _ _ => rfl) htgrid
  obtain ⟨-, -, -, huparams, -⟩ := exec_next hextract
  obtain ⟨-, -, -, -, -, -, hutree, hutable⟩ := exec_registers hextract
  refine ⟨t, u, hembed, hextract, huerr.trans hterr, huparams.trans htparams,
    (hutree (by decide)).2.trans (httree (by decide)).2, (hutable (by decide)).trans (httable (by decide)), hulen,
    fun i hi => ?_⟩
  have hi' : i < bits.length := he.bits_length.symm ▸ hi
  rw [(bits_eq_some_iff.1 hubits).2 i hi', (bits_eq_some_iff.1 hbits).2 i hi']

/-- Settles O57: the code of the message is carried through the grid (`exists_embed_extract`), and the decode finds it
at the front of the bit buffer, under the table that `HUFF_ENCODE` left (`huffmanRoundTrip`). -/
theorem encodeEmbedExtractDecodeRecoversMessage : Obligations.EncodeEmbedExtractDecodeRecoversMessage := by
  intro s text post hp herr hmsgLen hmsg hnot hfit hdims hgrid hcarrier
  have hmax := params_bounds hp
  have hdims' : s.capacity ≤ s.params.pixMax := hdims
  have hcode : (encodeMessage (codeTableOf (countSymbols (text ++ 0x23 :: post))) (text ++ 0x23 :: post)).length ≤
      s.params.bitbufBits := hcarrier.trans (hdims.trans (by omega))
  obtain ⟨a, ha⟩ : ∃ a, a = afterEncode s (text ++ 0x23 :: post) := ⟨_, rfl⟩
  have hencode : exec .huffEncode s = .next a := by
    rw [ha, exec_huffEncode_of_delim hmsgLen hmsg (by simp [Config.delim]), if_neg (Nat.not_lt.2 hcode)]
  have haerr : a.err = .none := ha ▸ herr
  have halen : a.bitLen.toNat =
      (encodeMessage (codeTableOf (countSymbols (text ++ 0x23 :: post))) (text ++ 0x23 :: post)).length :=
    ha ▸ bitLen_afterEncode_toNat hp hcode
  have habits := bits_afterEncode s (text ++ 0x23 :: post)
  rw [← ha, ← halen] at habits
  obtain ⟨-, -, -, haparams, -⟩ := exec_next hencode
  obtain ⟨-, haoperands, -⟩ := exec_registers hencode
  obtain ⟨-, haH, haW, -⟩ := haoperands nofun
  have hacap : a.capacity = s.capacity := by rw [State.capacity, haH, haW, State.capacity]
  have hagrid : a.pixels a.capacity ≠ none := by
    rw [hacap, ha, pixels_afterEncode hp hcode]
    exact hgrid
  obtain ⟨b, c, hembed, hextract, hcerr, hcparams, hctree, hctable, hclen, hcbits⟩ := exists_embed_extract
    (haparams ▸ hp) haerr (by rw [hacap, haparams]; exact hdims) (by rw [halen, hacap]; exact hcarrier) habits hagrid
  obtain ⟨d, table, hdecode, -, hderr, hfound, hout, houtbuf, -⟩ := huffmanRoundTrip s a c text post hp herr hmsg hnot
    hfit hencode haerr hcparams hctree hctable (by rw [hclen, halen, hacap]; exact hcarrier)
    (by rw [hclen, hacap, hcparams, haparams]; omega) hcbits
  exact ⟨a, b, c, d, hencode, hembed, hextract, hdecode, hderr.trans hcerr, hfound, hout, houtbuf⟩

end Sys2Proof.Machine
end
